-- ==== Sys2Proof/Word.lean ====
section
/-! DEFINITION. The machine's word types (R9, R20): the byte that crosses the link, the 32-bit address and
count, and the 16-bit chip identifier. -/

namespace Sys2Proof

/-- A byte of a frame, of a reply or of the image: bits 7 down to 0 (R9). -/
abbrev Byte := BitVec 8

/-- A DEVICE address, and the width of `TOTAL_BYTES` and `BYTES_WRITTEN` (R25, R43, R44). -/
abbrev Addr := BitVec 32

/-- A chip identifier (R41). -/
abbrev ChipId := BitVec 16

end Sys2Proof
end

