-- ==== Sys2Proof/Config.lean ====
section
/-! DEFINITION. The implementation parameters of R7 with their defaults, and the constraints of R8. A
`Params` is an argument of every definition of the model (it stands in the state as the field `params`, which no
step changes), so that a claim about every state is a claim about every value of every parameter (log entry 1). -/

namespace Sys2Proof

/-- The parameters of R7, one field per row of its table. -/
structure Params where
  /-- `SYNC_BYTE`: the document's own byte value. -/
  syncByte : Byte
  /-- `ACK_BYTE` (general knowledge, N3). -/
  ackByte : Byte
  /-- `NACK_BYTE` (general knowledge, N3). -/
  nackByte : Byte
  /-- `OPC_GET_VERSION` (general knowledge, D9). -/
  opcGetVersion : Byte
  /-- `OPC_GET_ID` (general knowledge, N4). -/
  opcGetId : Byte
  /-- `OPC_WRITE_UNPROTECT` (general knowledge, N4). -/
  opcWriteUnprotect : Byte
  /-- `OPC_ERASE` (general knowledge, N4). -/
  opcErase : Byte
  /-- `OPC_EXT_ERASE` (general knowledge, N4). -/
  opcExtErase : Byte
  /-- `OPC_WRITE_MEMORY` (general knowledge, N4). -/
  opcWriteMemory : Byte
  /-- `OPC_GO` (general knowledge, N4). -/
  opcGo : Byte
  /-- `MAX_SYNC_ATTEMPTS`. -/
  maxSyncAttempts : Nat
  /-- `RETRY_DELAY`, in time units. -/
  retryDelay : Nat
  /-- `TIME_UNIT`, in whole seconds: the unit is the model's choice (log entry 20); no rule depends on it. -/
  timeUnit : Nat
  /-- `T_RESP`: left open by the spec (D28); no rule depends on it. -/
  tResp : Nat
  /-- `MIN_VERSION` (general knowledge, N6). -/
  minVersion : Nat
  /-- `SUPPORTED_CHIP_IDS`: a finite set, left open by the spec (D29); only membership is ever asked. -/
  supportedChipIds : List ChipId
  /-- `EXT_ERASE_MAJOR`. -/
  extEraseMajor : Nat
  /-- `FLASH_BASE` (general knowledge, N8). -/
  flashBase : Addr
  /-- `MAX_CHUNK`. -/
  maxChunk : Nat
  /-- `PCT_STEP`. -/
  pctStep : Nat
  /-- `BAUD_DEFAULT`. -/
  baudDefault : Nat
  /-- `GO_ADDR` (D14). -/
  goAddr : Addr
  /-- `ERASE_ARG` (general knowledge, D11). -/
  eraseArg : Byte
  /-- `EXT_ERASE_ARG` (general knowledge, D12). -/
  extEraseArg : List Byte
  /-- `WUP_ACKS` (D10). -/
  wupAcks : Nat
  /-- `WUP_RESYNC` (D10). -/
  wupResync : Bool
  deriving DecidableEq, Repr

/-- FREE VALUE. The members of `SUPPORTED_CHIP_IDS`: the spec gives none and no default (R7, D29, N7), so nothing
can be proved of them. -/
opaque Config.supportedChipIds : List ChipId

/-- FREE VALUE. The length of `T_RESP`: the spec gives none (R7, D28, N5). -/
opaque Config.tResp : Nat

/-- The defaults of R7's table; the two OPEN rows are free values. R7 gives `TIME_UNIT` as about 1 second: that it is
exactly 1 here is the model's choice (DESIGN CHOICE, log entry 20). -/
def Params.default : Params where
  syncByte := 0x7F
  ackByte := 0x79
  nackByte := 0x1F
  opcGetVersion := 0x00
  opcGetId := 0x02
  opcWriteUnprotect := 0x73
  opcErase := 0x43
  opcExtErase := 0x44
  opcWriteMemory := 0x31
  opcGo := 0x21
  maxSyncAttempts := 60
  retryDelay := 1
  timeUnit := 1
  tResp := Config.tResp
  minVersion := 0x0201
  supportedChipIds := Config.supportedChipIds
  extEraseMajor := 3
  flashBase := 0x08000000
  maxChunk := 256
  pctStep := 10
  baudDefault := 9600
  goAddr := 0x08000000
  eraseArg := 0xFF
  extEraseArg := [0xFF, 0xFF]
  wupAcks := 1
  wupResync := false

/-- The constraints of R8, with the two the parameter table itself states in its type column (`WUP_ACKS` at least
1; `MIN_VERSION` in 0..65535). A parameter set that breaks one has no run (D1, U13). -/
def Params.ok (p : Params) : Bool :=
  p.ackByte != p.nackByte
    && decide (1 ≤ p.maxChunk) && decide (p.maxChunk ≤ 256)
    && decide (1 ≤ p.maxSyncAttempts)
    && decide (1 ≤ p.pctStep) && p.pctStep ∣ 100
    && !p.extEraseArg.isEmpty
    && decide (1 ≤ p.wupAcks)
    && decide (p.minVersion ≤ 65535)

/-- The seven opcodes are pairwise distinct (R103). The FRAMER does not check this and no step depends on it; only
reading a command frame back needs it. -/
def Params.opcodesDistinct (p : Params) : Bool :=
  decide [p.opcGetVersion, p.opcGetId, p.opcWriteUnprotect, p.opcErase, p.opcExtErase, p.opcWriteMemory, p.opcGo].Nodup

end Sys2Proof
end

