-- ==== Sys2Proof/Machine/Flags.lean ====
section
/-! DEFINITION. The checksum unit (R120, R121, R127) and the classification of a received byte (R126). All pure
functions. -/

namespace Sys2Proof.Machine

/-- `cmpl(b)`: the one's-complement parity byte (R120). -/
def cmpl (b : Byte) : Byte := b ^^^ 0xFF

/-- The accumulator of the checksum unit after the bytes `bs`, started at `acc` (R47, R121). -/
def xorsumFrom (acc : Byte) : List Byte → Byte
  | [] => acc
  | b :: bs => xorsumFrom (acc ^^^ b) bs

/-- `xorsum(bs)`: the running exclusive-or, started at `0x00` (R121). -/
def xorsum (bs : List Byte) : Byte := xorsumFrom 0x00 bs

/-- `checkCmpl(f)` (R127). -/
def checkCmpl : List Byte → Bool
  | [a, b] => (a ^^^ b) == 0xFF
  | _ => false

/-- `checkXor(f)` (R127). -/
def checkXor (f : List Byte) : Bool := decide (2 ≤ f.length) && xorsum f == 0x00

/-- The three results of `decodeAck` (R126). -/
inductive AckClass where
  | ack
  | nack
  | unexpected
  deriving DecidableEq, Repr

/-- `decodeAck(b)` (R126). -/
def decodeAck (p : Params) (b : Byte) : AckClass :=
  if b = p.ackByte then .ack else if b = p.nackByte then .nack else .unexpected

end Sys2Proof.Machine
end

