-- ==== Sys2Proof/Machine/Operands.lean ====
section
/-! DEFINITION. The frame formats (R91, R99 to R101) and the encoders that build their bytes (R122 to R125). -/

namespace Sys2Proof.Machine

/-- Every frame format of the opcode table: six sent (R91), three received (R99 to R101). -/
inductive Format where
  | fSync
  | fCmd
  | fArgc
  | fArgx
  | fAddr
  | fData
  | rAck
  | rVer
  | rId
  deriving DecidableEq, Repr

/-- `encodeSingleByteCommand(op)` (R122), the form of F-CMD and of F-ARGC. -/
def encodeSingleByteCommand (op : Byte) : List Byte := [op, cmpl op]

/-- `encodePayload(bs)` (R123). -/
def encodePayload (bs : List Byte) : List Byte := bs ++ [xorsum bs]

/-- The four address bytes, most significant first (R69, R95). -/
def addrBytes (a : Addr) : List Byte :=
  [a.extractLsb' 24 8, a.extractLsb' 16 8, a.extractLsb' 8 8, a.extractLsb' 0 8]

/-- The address that four bytes stand for, most significant first (R69). -/
def addrOfBytes (b3 b2 b1 b0 : Byte) : Addr := b3 ++ b2 ++ b1 ++ b0

/-- `encodeAddr(a)` (R124). -/
def encodeAddr (a : Addr) : List Byte := encodePayload (addrBytes a)

/-- The payload of F-DATA: the length byte, count minus one, and the data (R96). -/
def dataPayload (ds : List Byte) : List Byte := BitVec.ofNat 8 (ds.length - 1) :: ds

/-- `encodeData(ds)` (R125). -/
def encodeData (ds : List Byte) : List Byte := encodePayload (dataPayload ds)

/-- The high byte of a chip identifier (R100). -/
def idHi (id : ChipId) : Byte := id.extractLsb' 8 8

/-- The low byte of a chip identifier (R100). -/
def idLo (id : ChipId) : Byte := id.extractLsb' 0 8

/-- `CHIP_ID = hi * 256 + lo` (R100, R150). -/
def chipIdOf (hi lo : Byte) : ChipId := hi ++ lo

/-- `BL_MAJOR = zext_8(p[0][7:4])` (R101). -/
def majorOf (p0 : Byte) : Byte := (p0.extractLsb' 4 4).setWidth 8

/-- `BL_MINOR = zext_8(p[0][3:0])` (R101). -/
def minorOf (p0 : Byte) : Byte := (p0.extractLsb' 0 4).setWidth 8

/-- A frame the FRAMER can hand to `Send`: the six formats of R91 with their operands. -/
inductive Frame where
  | sync
  | cmd (op : Byte)
  | argc (arg : Byte)
  | argx (args : List Byte)
  | addr (a : Addr)
  | data (ds : List Byte)
  deriving DecidableEq, Repr

/-- The bytes of a frame in sending order (R91 to R98). -/
def Frame.bytes (p : Params) : Frame → List Byte
  | .sync => [p.syncByte]
  | .cmd op => encodeSingleByteCommand op
  | .argc arg => encodeSingleByteCommand arg
  | .argx args => encodePayload args
  | .addr a => encodeAddr a
  | .data ds => encodeData ds

/-- `CKSUM` after the frame has been encoded: a payload frame runs the accumulator over its payload, a bare frame
leaves it alone (R47, R121 to R125). -/
def Frame.cksum (old : Byte) : Frame → Byte
  | .sync => old
  | .cmd _ => old
  | .argc _ => old
  | .argx args => xorsum args
  | .addr a => xorsum (addrBytes a)
  | .data ds => xorsum (dataPayload ds)

end Sys2Proof.Machine
end

