-- ==== Sys2Proof/Machine/State.lean ====
section
/-! DEFINITION. The state of the FRAMER (R20), of what the sequencer has in progress, and of the world outside
that answers its primitives. Plain data throughout. -/

namespace Sys2Proof.Machine

/-- `SEQ`, the last session state entered (R30). -/
inductive Seq where
  | disconnected
  | connected
  | versionKnown
  | identified
  | unprotected
  | erased
  | programmed
  | executing
  deriving DecidableEq, Repr

/-- `ERR_CODE` (R34). The codes 10 to 15 are never written (U15). -/
inductive ErrCode where
  | none
  | transportError
  | handshakeTimeout
  | versionUnsupported
  | chipUnsupported
  | protoNack
  | protoTimeout
  | protoUnexpected
  | protoMalformed
  | srcContract
  deriving DecidableEq, Repr

/-- `FAIL_STEP` (R34). The codes 12 to 15 are never written (U15). -/
inductive FailStep where
  | none
  | openLink
  | sync
  | getVersion
  | versionCheck
  | getId
  | chipCheck
  | writeUnprotect
  | erase
  | extErase
  | program
  | go
  deriving DecidableEq, Repr

/-- `CALL`, the state of the command in progress (R36). -/
inductive Call where
  | idle
  | awaitingAck
  | acked
  | nacked
  | timedOut
  | unexpected
  | linkFailed
  deriving DecidableEq, Repr

/-- What `Open` and `Send` answer (R61, R62). -/
inductive LinkAnswer where
  | ok
  | err
  deriving DecidableEq, Repr

/-- What `Recv` answers (R63). -/
inductive RxAnswer where
  | byte (b : Byte)
  | timeout
  | err
  deriving DecidableEq, Repr

/-- `CFG_PORT`'s port identifier, a string the FRAMER never interprets, as its characters (R24). -/
abbrev PortId := List Char

/-- The event alphabet of the trace (R11). -/
inductive Event where
  | opened (port : PortId) (baud : Nat) (a : LinkAnswer)
  | tx (bs : List Byte) (a : LinkAnswer)
  | rx (a : RxAnswer)
  | delay (n : Nat)
  | src (maxLen : Nat) (bs : List Byte)
  | progress (n : Nat)
  | pct (k : Nat)
  | close
  | haltDone
  | haltErr (code : ErrCode) (step : FailStep)
  deriving DecidableEq, Repr

/-- The inputs of the configuration surface as the host presents them (R24, R25); the baud rate may be left out. -/
structure HostCfg where
  port : PortId
  baud : Option Nat
  skipProg : Bool
  sendGo : Bool
  totalBytes : Addr
  deriving DecidableEq, Repr

/-- The two places where the session runs CONNECT (R192, R200): at S1, and again after WRITE_UNPROTECT when
`WUP_RESYNC`. -/
inductive Handshake where
  | first
  | again
  deriving DecidableEq, Repr

/-- The lines of the session that call a command (R190). -/
inductive CallSite where
  | sync (h : Handshake)
  | getVersion
  | getId
  | writeUnprotect
  | erase
  | extErase
  | write
  | go
  deriving DecidableEq, Repr

/-- The lines of the session that call none: those of R190, with CONNECT (R192) and PROGRAM (R205) written out. -/
inductive Ctl where
  /-- S0: `Open`. -/
  | openLink
  /-- CONNECT: `SYNC_FAILS <- 0`. -/
  | connectStart (h : Handshake)
  /-- CONNECT: a failed attempt is counted, and waits or raises. -/
  | retry (h : Handshake)
  /-- CONNECT: `SEQ <- max(SEQ, Connected)`. -/
  | connected (h : Handshake)
  /-- S3. -/
  | versionCheck
  /-- S5. -/
  | chipCheck
  /-- S6. -/
  | skipCheck
  /-- S7: `if WUP_RESYNC then CONNECT at WRITE_UNPROTECT`. -/
  | resyncCheck
  /-- S7: `SEQ <- Unprotected`. -/
  | unprotected
  /-- S8: which erase. -/
  | eraseSelect
  /-- S8: `SEQ <- Erased`. -/
  | erased
  /-- S9: PROGRAM up to its loop. -/
  | programStart
  /-- S9: the source read, the end of the loop and the overrun check. -/
  | read
  /-- S9: the advance and the progress events. -/
  | advance
  /-- S10: whether to go. -/
  | goCheck
  /-- S10: `SEQ <- Executing`. -/
  | executing
  /-- S11. -/
  | finish
  deriving DecidableEq, Repr

/-- The place in the hard-wired program (R190). `SEQ` alone does not tell it. -/
inductive Line where
  | call (c : CallSite)
  | ctl (c : Ctl)
  deriving DecidableEq, Repr

/-- The items a call is made of: the phase lists of R180, and the writes its rule makes between and after them. -/
inductive Item where
  /-- `Tx(f)`: one `TrySend`. -/
  | send (f : Frame)
  /-- `Ack`: one `ExpectAck`; in a SYNC call, SYNC's own receive (R144). -/
  | ack
  /-- `Count`: one `RecvData` whose value `n` sets the length `n + 1` of the payload. -/
  | count
  /-- `Count` of GET_ID, which must be 1 (R150). -/
  | countOne
  /-- `Data(k)`: `k` times `RecvData`. -/
  | data
  /-- `BL_MAJOR`, `BL_MINOR`, `VER_VALID` are written (R146). -/
  | setVersion
  /-- `CHIP_ID`, `ID_VALID` are written (R150). -/
  | setId
  /-- `MemWrite(addr, n, v)` (R64, R172). -/
  | memWrite (addr : Addr) (ds : List Byte)
  /-- `CALL <- Idle`. -/
  | idle
  deriving DecidableEq, Repr

/-- One move of the world outside: the host's inputs (R263, R260, R24), an answer that becomes available to a
primitive (R61 to R63, R66), or nothing for this step. -/
inductive Move where
  /-- Nothing: the sequencer steps. -/
  | pass
  /-- The `reset` input (R260). -/
  | reset
  /-- The host presents new configuration inputs (R267). -/
  | config (c : HostCfg)
  /-- The `start` input (R263). -/
  | start
  /-- An answer to a coming `Open`. -/
  | openAnswer (a : LinkAnswer)
  /-- An answer to a coming `Send`. -/
  | sendAnswer (a : LinkAnswer)
  /-- An answer to the present or a coming `Recv`. -/
  | rxAnswer (a : RxAnswer)
  /-- What the present or a coming source read returns. -/
  | srcAnswer (bs : List Byte)
  deriving DecidableEq, Repr

/-- Bytes by address, strictly rising; an unlisted address has no value. -/
abbrev Memory := List Host.Cell

/-- The machine. Every register of R20 is a field; the groups after them are the model's own (log entries 1 to 6). -/
structure State where
  /-- `CFG_PORT` (R24). -/
  cfgPort : PortId
  /-- `CFG_BAUD` (R24). -/
  cfgBaud : Nat
  /-- `CFG_SKIP_PROG` (R24). -/
  cfgSkipProg : Bool
  /-- `CFG_SEND_GO` (R24). -/
  cfgSendGo : Bool
  /-- `TOTAL_BYTES` (R25). -/
  totalBytes : Addr
  /-- `SEQ` (R30). -/
  seq : Seq
  /-- `RUN` (R31). -/
  run : Bool
  /-- `LINK_OPEN` (R32). -/
  linkOpen : Bool
  /-- `DONE` (R33). -/
  done : Bool
  /-- `ERR` (R33). -/
  err : Bool
  /-- `ERR_CODE` (R34). -/
  errCode : ErrCode
  /-- `FAIL_STEP` (R34). -/
  failStep : FailStep
  /-- `CALL` (R36). -/
  call : Call
  /-- `BL_MAJOR` (R40). -/
  blMajor : Byte
  /-- `BL_MINOR` (R40). -/
  blMinor : Byte
  /-- `VER_VALID` (R40). -/
  verValid : Bool
  /-- `CHIP_ID` (R41). -/
  chipId : ChipId
  /-- `ID_VALID` (R41). -/
  idValid : Bool
  /-- `BYTES_WRITTEN` (R43). -/
  bytesWritten : Addr
  /-- `CUR_ADDR` (R44). -/
  curAddr : Addr
  /-- `SYNC_FAILS` (R45). -/
  syncFails : Nat
  /-- `NEXT_PCT` (R46). -/
  nextPct : Nat
  /-- `CKSUM` (R47). -/
  cksum : Byte
  /-- `CHUNK_BUF[0..MAX_CHUNK-1]` (R48). -/
  chunkBuf : List Byte
  /-- `CHUNK_LEN` (R48). -/
  chunkLen : Nat
  /-- The parameters (R7); no step changes them. -/
  params : Params
  /-- The line of the hard-wired program the sequencer is at (R190). -/
  line : Line
  /-- What is still to do of the call in progress (R141, R180); empty between calls. -/
  phase : List Item
  /-- The payload bytes the call in progress has received, oldest first (the locals `p`, `hi`, `lo` of R146, R150). -/
  payload : List Byte
  /-- How many payload bytes the call in progress still has to receive (R180's `Data(k)`). -/
  remain : Nat
  /-- The configuration inputs the host presents (R24). -/
  hostCfg : HostCfg
  /-- The moves the outside is still to make, oldest first. -/
  moves : List Move
  /-- The answers the coming `Open` calls get, oldest first; `ok` when none is listed (R107). -/
  openAns : List LinkAnswer
  /-- The answers the coming `Send` calls get, oldest first; `ok` when none is listed (R107). -/
  sendAns : List LinkAnswer
  /-- RX: the answers the coming `Recv` calls get, oldest first (R51 c, R60, R107). -/
  rx : List RxAnswer
  /-- SRC: what the coming source reads return, oldest first (R60, R107). -/
  src : List (List Byte)
  /-- DEV: the bytes that acknowledged stores put there and no later command has put in doubt (R60, R64, U1, U4; log
  entry 9). -/
  dev : Memory
  /-- The trace of the present run, oldest event first (R11). -/
  trace : List Event
  deriving DecidableEq, Repr

/-- The registers of R20, by name, for reading. -/
inductive Reg where
  | cfgPort
  | cfgBaud
  | cfgSkipProg
  | cfgSendGo
  | totalBytes
  | seq
  | run
  | linkOpen
  | done
  | err
  | errCode
  | failStep
  | call
  | blMajor
  | blMinor
  | verValid
  | chipId
  | idValid
  | bytesWritten
  | curAddr
  | syncFails
  | nextPct
  | cksum
  | chunkBuf (i : Nat)
  | chunkLen
  deriving DecidableEq, Repr

/-- What reading a register gives: the port identifier as it is, everything else as its number (bits as 0 and 1,
enumerations as the codes of R30, R34 and R36). -/
inductive RegValue where
  | number (n : Nat)
  | port (p : PortId)
  deriving DecidableEq, Repr

/-- Why the machine stops with a fault. -/
inductive Fault where
  /-- A register that holds no value was read (R40, R41, R50, U9; past CHUNK_LEN log entry 22). Raised by `readReg` and, in states no run
  reaches, by the lines that read `BL_MAJOR`, `BL_MINOR` and `CHIP_ID`. Safe: the spec asks for it. -/
  | noValue (r : Reg)
  /-- A frame or reply whose operand its format cannot carry (R96, R123, R101): raised by WRITE_MEMORY, F-DATA, F-ARGX
  and R-VER on a block or payload of a forbidden length, which no run reaches. Safe. -/
  | badFrame
  /-- The percentage was to be computed with `TOTAL_BYTES = 0`, which R206 excludes: raised by the advance line, in
  states no run reaches. Safe. -/
  | divisionByZero
  /-- A byte of DEV that no acknowledged store has written was asked for (U1): raised by `devByte`. Safe. -/
  | devUnknown (addr : Nat)
  deriving DecidableEq, Repr

/-- Why there is no step. -/
inductive Refusal where
  /-- An instruction without a meaning. No arm of `exec` is left with it. Safe. -/
  | notModelled (mnemonic : String)
  /-- The parameters break a constraint of R8, so no run exists (D1, U13): raised by `step`. Safe. -/
  | badParameters
  /-- `reset` was given while `RUN = 1`, for which the spec has no move (R261, D27): raised by `step`. The spec itself
  lists that reading as erring towards proving, so unsafe (log entry 11). -/
  | resetWhileRunning
  deriving DecidableEq, Repr

/-- What a step of this machine answers. -/
abbrev Result := Host.Outcome State Fault Refusal

/-- Nothing presented: the configuration inputs before the host sets them (log entry 7). -/
def HostCfg.none : HostCfg where
  port := []
  baud := Option.none
  skipProg := false
  sendGo := false
  totalBytes := 0

/-- The machine right after reset, with the parameters `p` and nothing outside it: no move, no answer, no byte of DEV
known. The registers for which R50 says "no value" hold zero, behind the guards of `readReg` (log entry 7). -/
def State.resetWith (p : Params) : State where
  cfgPort := []
  cfgBaud := p.baudDefault
  cfgSkipProg := false
  cfgSendGo := false
  totalBytes := 0
  seq := .disconnected
  run := false
  linkOpen := false
  done := false
  err := false
  errCode := .none
  failStep := .none
  call := .idle
  blMajor := 0
  blMinor := 0
  verValid := false
  chipId := 0
  idValid := false
  bytesWritten := 0
  curAddr := p.flashBase
  syncFails := 0
  nextPct := p.pctStep
  cksum := 0
  chunkBuf := List.replicate p.maxChunk 0
  chunkLen := 0
  params := p
  line := .ctl .openLink
  phase := []
  payload := []
  remain := 0
  hostCfg := .none
  moves := []
  openAns := []
  sendAns := []
  rx := []
  src := []
  dev := []
  trace := []

/-- The machine right after reset (R50, R260), with the default parameters of R7. -/
def State.reset : State := State.resetWith Params.default

end Sys2Proof.Machine
end

