-- ==== Sys2Proof/Syntax.lean ====
section
/-! DEFINITION. The rows of the opcode table: the eight commands of R103, the four argument frames of R91 and
the five responses of R99 to R101 and R105. -/

namespace Sys2Proof

/-- One constructor per row of the opcode table. The commands take no operand of their own: their operands are the
values the sequencer supplies (R104). -/
inductive Instr where
  /-- SYNC, format F-SYNC (R144). -/
  | sync
  /-- GET_VERSION, format F-CMD (R146). -/
  | getVersion
  /-- GET_ID, format F-CMD (R150). -/
  | getId
  /-- WRITE_UNPROTECT, format F-CMD (R162). -/
  | writeUnprotect
  /-- ERASE, format F-CMD (R165). -/
  | erase
  /-- EXT_ERASE, format F-CMD (R168). -/
  | extErase
  /-- WRITE_MEMORY, format F-CMD; `addr = CUR_ADDR`, data = `CHUNK_BUF[0..CHUNK_LEN-1]` (R172). -/
  | writeMemory
  /-- GO, format F-CMD; `addr = GO_ADDR` (R176). -/
  | go
  /-- The argument frame F-ARGC of a call in progress: one argument byte and its complement (R94). -/
  | frameArgc (arg : Byte)
  /-- The argument frame F-ARGX of a call in progress: a payload and its exclusive-or (R97, R98). -/
  | frameArgx (args : List Byte)
  /-- The address frame F-ADDR of a call in progress (R95). -/
  | frameAddr (addr : Addr)
  /-- The data frame F-DATA of a call in progress (R96), of any number of bytes; the table's row is its one-byte
  instance. -/
  | frameData (ds : List Byte)
  /-- The response ACK: the byte `ACK_BYTE` where an acknowledgement is awaited (R126). -/
  | responseAck
  /-- The response NACK: the byte `NACK_BYTE` where an acknowledgement is awaited (R126). -/
  | responseNack
  /-- The response Unexpected: any other byte where an acknowledgement is awaited (R105). -/
  | responseUnexpected (b : Byte)
  /-- The whole reply R-VER to GET_VERSION, with its payload `p[0..n]` (R101); the table's row is the instance
  `n = 0`. -/
  | responseVer (ps : List Byte)
  /-- The whole reply R-ID to GET_ID (R100). -/
  | responseId (id : ChipId)
  deriving DecidableEq, Repr

end Sys2Proof
end

