-- ==== Sys2Proof/WellFormed.lean ====
section
/-! DEFINITION. Which operands the encodings can carry. The commands and the one-byte argument frame carry any
value; the checks are on the forms of variable length and on the class of an unexpected byte. -/

namespace Sys2Proof

/-- The payload of F-ARGX is not empty (R123). -/
def argxOk (args : List Byte) : Bool := !args.isEmpty

/-- The block of F-DATA has 1 to `MAX_CHUNK` bytes, and at most the 256 its length byte can count (R96). -/
def blockOk (p : Params) (ds : List Byte) : Bool :=
  decide (1 ≤ ds.length) && decide (ds.length ≤ p.maxChunk) && decide (ds.length ≤ 256)

/-- The payload of R-VER has `n + 1` bytes for a count byte `n` in 0..255 (R101). -/
def verPayloadOk (ps : List Byte) : Bool :=
  decide (1 ≤ ps.length) && decide (ps.length ≤ 256)

/-- An unexpected byte is neither `ACK_BYTE` nor `NACK_BYTE` (R105, R126). -/
def unexpectedOk (p : Params) (b : Byte) : Bool :=
  b != p.ackByte && b != p.nackByte

/-- The instruction can be written in its format. -/
def WellFormed (p : Params) : Instr → Bool
  | .sync => true
  | .getVersion => true
  | .getId => true
  | .writeUnprotect => true
  | .erase => true
  | .extErase => true
  | .writeMemory => true
  | .go => true
  | .frameArgc _ => true
  | .frameArgx args => argxOk args
  | .frameAddr _ => true
  | .frameData ds => blockOk p ds
  | .responseAck => true
  | .responseNack => true
  | .responseUnexpected b => unexpectedOk p b
  | .responseVer ps => verPayloadOk ps
  | .responseId _ => true

end Sys2Proof
end

