-- ==== Sys2Proof/Machine/Ops.lean ====
section
/-! DEFINITION. The named operations every command and every line of the session is written with: DEV, the trace,
reading a register, the fatal abort (R236), the primitives (R61 to R66), and the call engine (R140 to R143, R180). -/

namespace Sys2Proof.Machine

/-! ## DEV: memory as a canonical list -/

/-- One acknowledged byte at an address. -/
def Memory.write (a : Nat) (b : Byte) : Memory → Memory
  | [] => [(a, b)]
  | c :: m =>
    if a < c.1 then (a, b) :: c :: m
    else if a = c.1 then (a, b) :: m
    else c :: Memory.write a b m

/-- The byte last acknowledged at an address, where there is one. -/
def Memory.read (a : Nat) : Memory → Option Byte
  | [] => none
  | c :: m => if a = c.1 then some c.2 else Memory.read a m

/-- Every address lies above `lo` and the addresses rise strictly, inside the 32-bit space (R60 d). -/
def Memory.wfAbove (lo : Nat) : Memory → Bool
  | [] => true
  | c :: m => decide (lo ≤ c.1) && decide (c.1 < 2 ^ 32) && Memory.wfAbove (c.1 + 1) m

/-- The canonical form. -/
def Memory.wf (m : Memory) : Bool := Memory.wfAbove 0 m

/-- `MemWrite(addr, n, v)`: byte `v[i]` at `addr +_32 i`, lowest address first (R64). -/
def Memory.writeBlock (a : Addr) : List Byte → Memory → Memory
  | [], m => m
  | d :: ds, m => Memory.writeBlock (a + 1) ds (Memory.write a.toNat d m)

/-- Nothing is known any more of the `n` bytes from `a` on (U4). -/
def Memory.forget (a : Addr) : Nat → Memory → Memory
  | 0, m => m
  | n + 1, m => Memory.forget (a + 1) n (m.filter fun c => decide (c.1 ≠ a.toNat))

/-- The byte of DEV that the acknowledged stores put at an address; unknown elsewhere (U1). -/
def devByte (s : State) (a : Addr) : Except Fault Byte :=
  match Memory.read a.toNat s.dev with
  | some b => .ok b
  | none => .error (.devUnknown a.toNat)

/-! ## The trace, and codes -/

/-- `Emit(e)` (R10, R11). -/
def State.emit (s : State) (e : Event) : State := { s with trace := s.trace ++ [e] }

/-- `CALL <- c` (R36). -/
def State.setCall (s : State) (c : Call) : State := { s with call := c }

/-- The sequencer goes on at a line (R190). -/
def State.goto (s : State) (l : Line) : State := { s with line := l }

/-- `SEQ <- q` (R30). -/
def State.setSeq (s : State) (q : Seq) : State := { s with seq := q }

/-- What is left of the call in progress (R180). -/
def State.withPhase (s : State) (its : List Item) : State := { s with phase := its }

/-- How many payload bytes are still to come (R180). -/
def State.withRemain (s : State) (n : Nat) : State := { s with remain := n }

/-- One more payload byte has come in (R146, R150). -/
def State.pushPayload (s : State) (b : Byte) : State := { s with payload := s.payload ++ [b] }

/-- `BL_MAJOR`, `BL_MINOR` and `VER_VALID` from the first payload byte (R101, R146). -/
def State.withVersion (s : State) (p0 : Byte) : State :=
  { s with blMajor := majorOf p0, blMinor := minorOf p0, verValid := true }

/-- `CHIP_ID` and `ID_VALID` from the two payload bytes (R150). -/
def State.withId (s : State) (hi lo : Byte) : State := { s with chipId := chipIdOf hi lo, idValid := true }

/-- DEV is known to hold `m` and nothing else (R60, R64). -/
def State.withDev (s : State) (m : Memory) : State := { s with dev := m }

/-- Nothing is known of DEV any more: after a failed call (U1, R237), and from the moment an erase begins (U1, U2; log
entry 9). -/
def State.doubtAll (s : State) : State := s.withDev []

/-- The codes of `SEQ` (R30). -/
def Seq.code : Seq → Nat
  | .disconnected => 0
  | .connected => 1
  | .versionKnown => 2
  | .identified => 3
  | .unprotected => 4
  | .erased => 5
  | .programmed => 6
  | .executing => 7

/-- The codes of `ERR_CODE` (R34). -/
def ErrCode.code : ErrCode → Nat
  | .none => 0
  | .transportError => 1
  | .handshakeTimeout => 2
  | .versionUnsupported => 3
  | .chipUnsupported => 4
  | .protoNack => 5
  | .protoTimeout => 6
  | .protoUnexpected => 7
  | .protoMalformed => 8
  | .srcContract => 9

/-- The codes of `FAIL_STEP` (R34). -/
def FailStep.code : FailStep → Nat
  | .none => 0
  | .openLink => 1
  | .sync => 2
  | .getVersion => 3
  | .versionCheck => 4
  | .getId => 5
  | .chipCheck => 6
  | .writeUnprotect => 7
  | .erase => 8
  | .extErase => 9
  | .program => 10
  | .go => 11

/-- The codes of `CALL` (R36). -/
def Call.code : Call → Nat
  | .idle => 0
  | .awaitingAck => 1
  | .acked => 2
  | .nacked => 3
  | .timedOut => 4
  | .unexpected => 5
  | .linkFailed => 6

/-- `max(a, b)` in the order of the codes (R192). -/
def Seq.max (a b : Seq) : Seq := if a.code ≤ b.code then b else a

/-! ## Reading a register -/

/-- Idle: reset and not yet started (R240); no value has been sampled into the configuration registers (R50). -/
def State.idle (s : State) : Bool := !s.run && !s.done && !s.err

/-- The value of a register; a read of a register that holds no value is a fault, as the spec asks (R40, R41, R50, R267,
U9). Reading changes nothing. R48 says of CHUNK_BUF past CHUNK_LEN and between blocks only that it is not observable: that
a read past CHUNK_LEN is this fault too, even where a longer block once stood, and that the last block can be read between
blocks, is the model's choice (DESIGN CHOICE, log entry 22). -/
def readReg (s : State) : Reg → Except Fault RegValue
  | .cfgPort => if s.idle then .error (.noValue .cfgPort) else .ok (.port s.cfgPort)
  | .cfgBaud => if s.idle then .error (.noValue .cfgBaud) else .ok (.number s.cfgBaud)
  | .cfgSkipProg => if s.idle then .error (.noValue .cfgSkipProg) else .ok (.number s.cfgSkipProg.toNat)
  | .cfgSendGo => if s.idle then .error (.noValue .cfgSendGo) else .ok (.number s.cfgSendGo.toNat)
  | .totalBytes => if s.idle then .error (.noValue .totalBytes) else .ok (.number s.totalBytes.toNat)
  | .seq => .ok (.number s.seq.code)
  | .run => .ok (.number s.run.toNat)
  | .linkOpen => .ok (.number s.linkOpen.toNat)
  | .done => .ok (.number s.done.toNat)
  | .err => .ok (.number s.err.toNat)
  | .errCode => .ok (.number s.errCode.code)
  | .failStep => .ok (.number s.failStep.code)
  | .call => .ok (.number s.call.code)
  | .blMajor => if s.verValid then .ok (.number s.blMajor.toNat) else .error (.noValue .blMajor)
  | .blMinor => if s.verValid then .ok (.number s.blMinor.toNat) else .error (.noValue .blMinor)
  | .verValid => .ok (.number s.verValid.toNat)
  | .chipId => if s.idValid then .ok (.number s.chipId.toNat) else .error (.noValue .chipId)
  | .idValid => .ok (.number s.idValid.toNat)
  | .bytesWritten => .ok (.number s.bytesWritten.toNat)
  | .curAddr => .ok (.number s.curAddr.toNat)
  | .syncFails => .ok (.number s.syncFails)
  | .nextPct => .ok (.number s.nextPct)
  | .cksum => .ok (.number s.cksum.toNat)
  | .chunkBuf i =>
    match (s.chunkBuf.take s.chunkLen)[i]? with
    | some b => .ok (.number b.toNat)
    | none => .error (.noValue (.chunkBuf i))
  | .chunkLen => .ok (.number s.chunkLen)

/-- `CHUNK_BUF[0..CHUNK_LEN-1]` (R48). -/
def State.chunk (s : State) : List Byte := s.chunkBuf.take s.chunkLen

/-! ## The fatal abort and the link -/

/-- `Close()` (R61): it cannot fail. -/
def closeLink (s : State) : State := { s.emit .close with linkOpen := false }

/-- The `Close` event of an abort: there where the link is open (R236). -/
def closing : Bool → List Event
  | true => [.close]
  | false => []

/-- The first lines of `raise`: what is recorded, and the link closed if it is open (R236). -/
def recordError (code : ErrCode) (step : FailStep) (s : State) : State :=
  let r := { s with errCode := code, failStep := step, phase := [], payload := [], remain := 0 }
  if r.linkOpen then closeLink r else r

/-- `raise code(step)`: taking the one exception there is, the fatal abort (R236). There is no return from it (R238);
only `reset` leads on. -/
def raise (code : ErrCode) (step : FailStep) (s : State) : State :=
  { recordError code step s with err := true, run := false }.emit (.haltErr code step)

/-- The step a failure at a line is reported under: the step names of R190 and R192. -/
def Handshake.failStep : Handshake → FailStep
  | .first => .sync
  | .again => .writeUnprotect

/-- The step of a call (R190). -/
def CallSite.failStep : CallSite → FailStep
  | .sync h => h.failStep
  | .getVersion => .getVersion
  | .getId => .getId
  | .writeUnprotect => .writeUnprotect
  | .erase => .erase
  | .extErase => .extErase
  | .write => .program
  | .go => .go

/-- The step of a line that calls nothing (R190); `none` where nothing can fail. -/
def Ctl.failStep : Ctl → FailStep
  | .openLink => .openLink
  | .connectStart h => h.failStep
  | .retry h => h.failStep
  | .connected h => h.failStep
  | .versionCheck => .versionCheck
  | .chipCheck => .chipCheck
  | .skipCheck => .none
  | .resyncCheck => .writeUnprotect
  | .unprotected => .writeUnprotect
  | .eraseSelect => .none
  | .erased => .none
  | .programStart => .program
  | .read => .program
  | .advance => .program
  | .goCheck => .none
  | .executing => .none
  | .finish => .none

/-- The step of the line the sequencer is at. -/
def Line.failStep : Line → FailStep
  | .call c => c.failStep
  | .ctl c => c.failStep

/-! ## The primitives -/

/-- The next answer of a script, `ok` when it lists none (R107). -/
def nextAnswer (script : List LinkAnswer) : LinkAnswer := script.headD .ok

/-- How far a call has come. -/
inductive Run where
  /-- It has returned success. -/
  | done (s : State)
  /-- It has returned `Fail(code)` (R140). -/
  | fail (code : ErrCode) (s : State)
  /-- SYNC has returned `Retry` (R144). -/
  | retry (s : State)
  /-- It waits for a `Recv` to be answered. -/
  | wait (s : State)
  deriving DecidableEq, Repr

/-- The state a call has come to, however it stands. -/
def Run.state : Run → State
  | .done s => s
  | .fail _ s => s
  | .retry s => s
  | .wait s => s

/-- What `Send` does but for its answer: the encoder has run the checksum unit, the answer is used up and the event
stands on the trace (R62, R47). -/
def State.sent (s : State) (f : Frame) : State :=
  { s with
    cksum := f.cksum s.cksum
    sendAns := s.sendAns.tail
    trace := s.trace ++ [.tx (f.bytes s.params) (nextAnswer s.sendAns)] }

/-- `TrySend(f)` (R62, R143). -/
def trySend (f : Frame) (s : State) : Run :=
  match nextAnswer s.sendAns with
  | .ok => .done (s.sent f)
  | .err => .fail .transportError ((s.sent f).setCall .linkFailed)

/-- What `Recv` does with the answer at the head of RX: it is used up and the event stands on the trace (R63). -/
def State.received (s : State) (a : RxAnswer) : State :=
  { s with call := .awaitingAck, rx := s.rx.tail, trace := s.trace ++ [.rx a] }

/-- `CALL <- AwaitingAck; r <- Recv()`, and what is done with the answer. With no answer yet, the call waits (log
entry 4). -/
def recv (s : State) (k : RxAnswer → State → Run) : Run :=
  match s.rx with
  | [] => .wait (s.setCall .awaitingAck)
  | a :: _ => k a (s.received a)

/-- `ExpectAck()` after its `Recv` (R142). -/
def expectAnswer : RxAnswer → State → Run
  | .byte b, s =>
    match decodeAck s.params b with
    | .ack => .done (s.setCall .acked)
    | .nack => .fail .protoNack (s.setCall .nacked)
    | .unexpected => .fail .protoUnexpected (s.setCall .unexpected)
  | .timeout, s => .fail .protoTimeout (s.setCall .timedOut)
  | .err, s => .fail .transportError (s.setCall .linkFailed)

/-- SYNC after its `Recv` (R144). -/
def syncAnswer : RxAnswer → State → Run
  | .byte b, s =>
    match decodeAck s.params b with
    | .ack => .done (s.setCall .acked)
    | .nack => .retry s
    | .unexpected => .retry s
  | .timeout, s => .retry (s.setCall .timedOut)
  | .err, s => .fail .transportError (s.setCall .linkFailed)

/-- Whether the call in progress is a SYNC, the one command whose NACK and timeout are not fatal (R144). -/
def Line.isSync : Line → Bool
  | .call (.sync _) => true
  | _ => false

/-- What is made of an answer where an acknowledgement is awaited: SYNC takes its own (R144), every other command
ExpectAck (R142). -/
def ackAnswer (a : RxAnswer) (s : State) : Run :=
  match s.line.isSync with
  | true => syncAnswer a s
  | false => expectAnswer a s

/-- The receive of one acknowledgement (R142, R144). -/
def awaitAck (s : State) : Run := recv s ackAnswer

/-- `RecvData()`, and what is done with the byte (R143). -/
def recvData (s : State) (k : Byte → State → Run) : Run :=
  recv s fun a s' =>
    match a with
    | .byte b => k b s'
    | .timeout => .fail .protoTimeout (s'.setCall .timedOut)
    | .err => .fail .transportError (s'.setCall .linkFailed)

/-- `n` payload bytes, each by one `RecvData` (R146, R150). -/
def recvMany : Nat → State → Run
  | 0, s => .done (s.withRemain 0)
  | k + 1, s => recvData (s.withRemain (k + 1)) fun b s' => recvMany k (s'.pushPayload b)

/-! ## The call engine -/

/-- One item of a call. -/
def runItem : Item → State → Run
  | .send f, s => trySend f s
  | .ack, s => awaitAck s
  | .count, s => recvData s fun b s' => .done (s'.withRemain (b.toNat + 1))
  | .countOne, s =>
    recvData s fun b s' => if b = 1 then .done (s'.withRemain 2) else .fail .protoMalformed s'
  | .data, s => recvMany s.remain s
  | .setVersion, s =>
    match s.payload with
    | p0 :: _ => .done (s.withVersion p0)
    | [] => .done s
  | .setId, s =>
    match s.payload with
    | hi :: lo :: _ => .done (s.withId hi lo)
    | _ => .done s
  | .memWrite a ds, s => .done (s.withDev (Memory.writeBlock a ds s.dev))
  | .idle, s => .done (s.setCall .idle)

/-- The items of a call left to right, stopping at the first failure (R180). Where a receive is not answered yet the
call stays at that item. -/
def runItems : List Item → State → Run
  | [], s => .done s
  | it :: rest, s =>
    match runItem it s with
    | .done s' => runItems rest s'
    | .fail e s' => .fail e s'
    | .retry s' => .retry s'
    | .wait s' => .wait (s'.withPhase (it :: rest))

/-- Nothing of a call is left (R140: no engine-level state between calls). -/
def State.endCall (s : State) : State := { s with phase := [], payload := [], remain := 0 }

/-- A call begins at its line with `CALL <- Idle`. -/
def State.beginCall (s : State) (c : CallSite) : State :=
  { s with line := .call c, phase := [], payload := [], remain := 0, call := .idle }

/-- Where the session goes on when a call has returned success (R190, R192). -/
def CallSite.after : CallSite → Ctl
  | .sync h => .connected h
  | .getVersion => .versionCheck
  | .getId => .chipCheck
  | .writeUnprotect => .resyncCheck
  | .erase => .erased
  | .extErase => .erased
  | .write => .advance
  | .go => .executing

@[inherit_doc CallSite.after]
def Line.after : Line → Line
  | .call c => .ctl c.after
  | .ctl c => .ctl c

/-- Where CONNECT counts a failed attempt (R192). -/
def Line.retried : Line → Line
  | .call (.sync h) => .ctl (.retry h)
  | .call c => .call c
  | .ctl c => .ctl c

/-- What the sequencer makes of a call: it goes on, it counts a failed synchronisation, it raises (R194) with nothing
known of DEV any more (U1, R237; log entry 9), or the call stays in progress. -/
def settle : Run → State
  | .done s => s.endCall.goto s.line.after
  | .fail e s => raise e s.line.failStep s.doubtAll
  | .retry s => s.endCall.goto s.line.retried
  | .wait s => s

/-- A whole call at its line. -/
def callAt (c : CallSite) (items : List Item) (s : State) : State := settle (runItems items (s.beginCall c))

/-- The call in progress goes on with `items` and then with what was left of it. -/
def resumeWith (items : List Item) (s : State) : State :=
  settle (runItems (items ++ s.phase) (s.withPhase []))

/-- RX with the bytes of a response before what it holds. -/
def State.answeredBy (s : State) (bs : List Byte) : State := { s with rx := bs.map .byte ++ s.rx }

end Sys2Proof.Machine
end

