-- ==== Sys2Proof/Machine/Modify.lean ====
section
/-! DEFINITION. The commands that change the DEVICE: WRITE_UNPROTECT (R162), ERASE (R165), EXT_ERASE (R168),
WRITE_MEMORY (R172), GO (R176). -/

namespace Sys2Proof.Machine

/-- The phase list of WRITE_UNPROTECT (R162, R180). -/
def writeUnprotectItems (p : Params) : List Item :=
  .send (.cmd p.opcWriteUnprotect) :: List.replicate p.wupAcks .ack ++ [.idle]

/-- The argument phase of ERASE (R165). -/
def eraseArgItems (arg : Byte) : List Item := [.send (.argc arg), .ack]

/-- The phase list of ERASE (R165, R180). -/
def eraseItems (p : Params) : List Item :=
  [.send (.cmd p.opcErase), .ack] ++ eraseArgItems p.eraseArg ++ [.idle]

/-- The argument phase of EXT_ERASE (R168). -/
def extEraseArgItems (args : List Byte) : List Item := [.send (.argx args), .ack]

/-- The phase list of EXT_ERASE (R168, R180). -/
def extEraseItems (p : Params) : List Item :=
  [.send (.cmd p.opcExtErase), .ack] ++ extEraseArgItems p.extEraseArg ++ [.idle]

/-- The address phase of WRITE_MEMORY and of GO (R172, R176). -/
def addrItems (a : Addr) : List Item := [.send (.addr a), .ack]

/-- The data phase of WRITE_MEMORY (R172). -/
def dataItems (ds : List Byte) : List Item := [.send (.data ds), .ack]

/-- The phase list of WRITE_MEMORY (R172, R180). -/
def writeMemoryItems (p : Params) (a : Addr) (ds : List Byte) : List Item :=
  [.send (.cmd p.opcWriteMemory), .ack] ++ addrItems a ++ dataItems ds ++ [.memWrite a ds, .idle]

/-- The phase list of GO (R176, R180). -/
def goItems (p : Params) (a : Addr) : List Item :=
  [.send (.cmd p.opcGo), .ack] ++ addrItems a ++ [.idle]

/-- WRITE_UNPROTECT (R162), called at S7 (R200). -/
def execWriteUnprotect (s : State) : Result := .next (callAt .writeUnprotect (writeUnprotectItems s.params) s)

/-- From the moment a block's WRITE_MEMORY begins, and up to its third ACK, nothing is known of the block; should it fail,
nothing of DEV is (U1, U4; log entry 9). -/
def State.doubtBlock (s : State) (a : Addr) (n : Nat) : State := s.withDev (Memory.forget a n s.dev)

/-- ERASE (R165), called at S8 (R202). -/
def execErase (s : State) : Result := .next (callAt .erase (eraseItems s.params) s.doubtAll)

/-- EXT_ERASE (R168), called at S8 (R202). -/
def execExtErase (s : State) : Result := .next (callAt .extErase (extEraseItems s.params) s.doubtAll)

/-- `WRITE_MEMORY addr, ds` for any address and any block its data frame can carry (R172). -/
def callWriteMemory (a : Addr) (ds : List Byte) (s : State) : Result :=
  if blockOk s.params ds then .next (callAt .write (writeMemoryItems s.params a ds) (s.doubtBlock a ds.length))
  else .fault .badFrame

/-- WRITE_MEMORY as the session calls it: `CUR_ADDR` and `CHUNK_BUF[0..CHUNK_LEN-1]` (R172, R209). -/
def execWriteMemory (s : State) : Result := callWriteMemory s.curAddr s.chunk s

/-- `GO addr` for any address (R176). -/
def callGo (a : Addr) (s : State) : Result := .next (callAt .go (goItems s.params a) s)

/-- GO as the session calls it: `GO_ADDR` (R176, R214). -/
def execGo (s : State) : Result := callGo s.params.goAddr s

end Sys2Proof.Machine
end

