-- ==== Sys2Proof/Machine/Frames.lean ====
section
/-! DEFINITION. The argument frames of the opcode table. Each is one phase of a call in progress (R141): the frame
is sent, its ACK is required, and the call goes on with what is left of it. -/

namespace Sys2Proof.Machine

/-- F-ARGC, the argument phase of ERASE (R94, R165). -/
def execFrameArgc (arg : Byte) (s : State) : Result := .next (resumeWith (eraseArgItems arg) s)

/-- F-ARGX, the argument phase of EXT_ERASE (R97, R98, R168). -/
def execFrameArgx (args : List Byte) (s : State) : Result :=
  if argxOk args then .next (resumeWith (extEraseArgItems args) s) else .fault .badFrame

/-- F-ADDR, the address phase of WRITE_MEMORY and of GO (R95, R172, R176). -/
def execFrameAddr (a : Addr) (s : State) : Result := .next (resumeWith (addrItems a) s)

/-- F-DATA, the data phase of WRITE_MEMORY (R96, R172). -/
def execFrameData (ds : List Byte) (s : State) : Result :=
  if blockOk s.params ds then .next (resumeWith (dataItems ds) s) else .fault .badFrame

end Sys2Proof.Machine
end

