-- ==== Sys2Proof/Machine/Query.lean ====
section
/-! DEFINITION. The commands that change nothing in the DEVICE: SYNC (R144), GET_VERSION (R146), GET_ID (R150). -/

namespace Sys2Proof.Machine

/-- The handshake a SYNC belongs to: that of the line the sequencer is at, the first where it is at none (R192). -/
def Line.handshake : Line → Handshake
  | .call (.sync h) => h
  | _ => .first

/-- The phase list of SYNC (R180). -/
def syncItems : List Item := [.send .sync, .ack]

/-- The reply R-VER after its command frame, and what it writes (R101, R146). -/
def verReplyItems : List Item := [.ack, .count, .data, .ack, .setVersion]

/-- The phase list of GET_VERSION (R180). -/
def getVersionItems (p : Params) : List Item := .send (.cmd p.opcGetVersion) :: verReplyItems ++ [.idle]

/-- The reply R-ID after its command frame, and what it writes (R100, R150). -/
def idReplyItems : List Item := [.ack, .countOne, .data, .ack, .setId]

/-- The phase list of GET_ID (R180). -/
def getIdItems (p : Params) : List Item := .send (.cmd p.opcGetId) :: idReplyItems ++ [.idle]

/-- SYNC (R144), called by CONNECT (R192). -/
def execSync (s : State) : Result := .next (callAt (.sync s.line.handshake) syncItems s)

/-- GET_VERSION (R146), called at S2 (R195). -/
def execGetVersion (s : State) : Result := .next (callAt .getVersion (getVersionItems s.params) s)

/-- GET_ID (R150), called at S4 (R197). -/
def execGetId (s : State) : Result := .next (callAt .getId (getIdItems s.params) s)

end Sys2Proof.Machine
end

