-- ==== Sys2Proof/Decode.lean ====
section
/-! DEFINITION. Reading bytes as a row of the opcode table, and writing a row as bytes. A frame is not
self-delimiting and its format is fixed by where it stands (R90), so the decoder takes the format and the bytes.
It is total and rejects by name. -/

namespace Sys2Proof

open Sys2Proof.Machine

/-- Why bytes are no instance of a format. -/
inductive DecodeError where
  /-- Fewer bytes than the format has. -/
  | tooShort
  /-- F-SYNC: the byte is not `SYNC_BYTE` (R92). -/
  | notSyncByte
  /-- F-CMD, F-ARGC: the second byte is not the complement of the first (R93, R94). -/
  | badComplement
  /-- F-CMD: the opcode is none of the seven of R103 (R106). -/
  | unknownOpcode
  /-- F-ARGX: no payload before the trailer (R123). -/
  | emptyPayload
  /-- F-ARGX, F-ADDR, F-DATA: the trailer is not the exclusive-or of the payload (R97). -/
  | badChecksum
  /-- F-DATA: the length byte counts more than `MAX_CHUNK` bytes (R96). -/
  | blockTooLong
  /-- R-VER, R-ID: a first or closing byte that is not `ACK_BYTE` (R100, R101). -/
  | notAck
  /-- R-ID: the count byte is not 1 (R100). -/
  | badCount
  deriving DecidableEq, Repr

/-- What the decoder answers: an instruction and the bytes after it, or why there is none. -/
abbrev Decoded := Except DecodeError (Instr × List Byte)

/-- The format of each row of the opcode table. -/
def formatOf : Instr → Format
  | .sync => .fSync
  | .getVersion => .fCmd
  | .getId => .fCmd
  | .writeUnprotect => .fCmd
  | .erase => .fCmd
  | .extErase => .fCmd
  | .writeMemory => .fCmd
  | .go => .fCmd
  | .frameArgc _ => .fArgc
  | .frameArgx _ => .fArgx
  | .frameAddr _ => .fAddr
  | .frameData _ => .fData
  | .responseAck => .rAck
  | .responseNack => .rAck
  | .responseUnexpected _ => .rAck
  | .responseVer _ => .rVer
  | .responseId _ => .rId

/-- The command an opcode selects (R103). -/
def commandOf (p : Params) (op : Byte) : Option Instr :=
  if op = p.opcGetVersion then some .getVersion
  else if op = p.opcGetId then some .getId
  else if op = p.opcWriteUnprotect then some .writeUnprotect
  else if op = p.opcErase then some .erase
  else if op = p.opcExtErase then some .extErase
  else if op = p.opcWriteMemory then some .writeMemory
  else if op = p.opcGo then some .go
  else none

/-- The response a byte is where an acknowledgement is awaited (R99, R126). -/
def responseOf (p : Params) (b : Byte) : Instr :=
  match decodeAck p b with
  | .ack => .responseAck
  | .nack => .responseNack
  | .unexpected => .responseUnexpected b

/-- F-SYNC (R92). -/
def decodeSync (p : Params) : List Byte → Decoded
  | b :: rest => if b = p.syncByte then .ok (.sync, rest) else .error .notSyncByte
  | [] => .error .tooShort

/-- F-CMD (R93). -/
def decodeCmd (p : Params) : List Byte → Decoded
  | op :: c :: rest =>
    if c = cmpl op then
      match commandOf p op with
      | some i => .ok (i, rest)
      | none => .error .unknownOpcode
    else .error .badComplement
  | _ => .error .tooShort

/-- F-ARGC (R94). -/
def decodeArgc : List Byte → Decoded
  | arg :: c :: rest => if c = cmpl arg then .ok (.frameArgc arg, rest) else .error .badComplement
  | _ => .error .tooShort

/-- F-ARGX takes all the bytes there are: nothing in it says where it ends (R90, R97). -/
def decodeArgx (bs : List Byte) : Decoded :=
  match bs.dropLast, bs.getLast? with
  | _, none => .error .tooShort
  | [], some _ => .error .emptyPayload
  | args, some x => if x = xorsum args then .ok (.frameArgx args, []) else .error .badChecksum

/-- F-ADDR (R95). -/
def decodeAddr : List Byte → Decoded
  | b3 :: b2 :: b1 :: b0 :: x :: rest =>
    if x = xorsum [b3, b2, b1, b0] then .ok (.frameAddr (addrOfBytes b3 b2 b1 b0), rest) else .error .badChecksum
  | _ => .error .tooShort

/-- F-DATA (R96). -/
def decodeData (p : Params) : List Byte → Decoded
  | l :: rest =>
    let n := l.toNat + 1
    if p.maxChunk < n then .error .blockTooLong
    else
      match rest.drop n with
      | x :: after =>
        if x = xorsum (l :: rest.take n) then .ok (.frameData (rest.take n), after) else .error .badChecksum
      | [] => .error .tooShort
  | [] => .error .tooShort

/-- R-ACK (R99): every byte is one of the three responses. -/
def decodeAckByte (p : Params) : List Byte → Decoded
  | b :: rest => .ok (responseOf p b, rest)
  | [] => .error .tooShort

/-- R-VER (R101). -/
def decodeVer (p : Params) : List Byte → Decoded
  | a :: l :: rest =>
    if a = p.ackByte then
      match rest.drop (l.toNat + 1) with
      | z :: after =>
        if z = p.ackByte then .ok (.responseVer (rest.take (l.toNat + 1)), after) else .error .notAck
      | [] => .error .tooShort
    else .error .notAck
  | _ => .error .tooShort

/-- R-ID (R100). -/
def decodeId (p : Params) : List Byte → Decoded
  | a :: l :: hi :: lo :: z :: rest =>
    if a = p.ackByte then
      if l = 1 then
        if z = p.ackByte then .ok (.responseId (chipIdOf hi lo), rest) else .error .notAck
      else .error .badCount
    else .error .notAck
  | _ => .error .tooShort

/-- The decoder, by format. -/
def decode (p : Params) : Format → List Byte → Decoded
  | .fSync, bs => decodeSync p bs
  | .fCmd, bs => decodeCmd p bs
  | .fArgc, bs => decodeArgc bs
  | .fArgx, bs => decodeArgx bs
  | .fAddr, bs => decodeAddr bs
  | .fData, bs => decodeData p bs
  | .rAck, bs => decodeAckByte p bs
  | .rVer, bs => decodeVer p bs
  | .rId, bs => decodeId p bs

/-- The count byte of R-VER: the number of payload bytes minus one (R101). -/
def verCount (ps : List Byte) : Byte := BitVec.ofNat 8 (ps.length - 1)

/-- The bytes of a row of the opcode table: a command's first frame, an argument frame, a whole response. -/
def encode (p : Params) : Instr → List Byte
  | .sync => Frame.bytes p .sync
  | .getVersion => Frame.bytes p (.cmd p.opcGetVersion)
  | .getId => Frame.bytes p (.cmd p.opcGetId)
  | .writeUnprotect => Frame.bytes p (.cmd p.opcWriteUnprotect)
  | .erase => Frame.bytes p (.cmd p.opcErase)
  | .extErase => Frame.bytes p (.cmd p.opcExtErase)
  | .writeMemory => Frame.bytes p (.cmd p.opcWriteMemory)
  | .go => Frame.bytes p (.cmd p.opcGo)
  | .frameArgc arg => Frame.bytes p (.argc arg)
  | .frameArgx args => Frame.bytes p (.argx args)
  | .frameAddr a => Frame.bytes p (.addr a)
  | .frameData ds => Frame.bytes p (.data ds)
  | .responseAck => [p.ackByte]
  | .responseNack => [p.nackByte]
  | .responseUnexpected b => [b]
  | .responseVer ps => p.ackByte :: verCount ps :: ps ++ [p.ackByte]
  | .responseId id => [p.ackByte, 1, idHi id, idLo id, p.ackByte]

/-- The `n` bytes of the number `w`, most significant first: the table writes byte 0 of a row as its highest byte
(R93, R103; log entry 13). -/
def bytesOfNat : Nat → Nat → List Byte
  | 0, _ => []
  | n + 1, w => BitVec.ofNat 8 (w >>> (8 * n)) :: bytesOfNat n w

/-- The formats in the order in which a word without a position is read, the most specific first (log entry 13). -/
def tableOrder : List Format := [.fSync, .fCmd, .rId, .rVer, .fData, .fArgc, .fAddr, .fArgx, .rAck]

/-- The first format of the list in which all of the bytes are one instruction. -/
def decodeFirst (p : Params) (bs : List Byte) : List Format → Option Instr
  | [] => none
  | f :: fs =>
    match decode p f bs with
    | .ok (i, []) => some i
    | _ => decodeFirst p bs fs

/-- The instruction that the decoder reads from a word of the opcode table, with the table's default parameters. -/
def decodeTableWord (nbits w : Nat) : Option Instr :=
  decodeFirst Params.default (bytesOfNat (nbits / 8) w) tableOrder

end Sys2Proof
end

