-- ==== Sys2Proof/Machine/Responses.lean ====
section
/-! DEFINITION. The responses of the opcode table. Each is what a call in progress does when the DEVICE answers it so:
the bytes stand at the head of RX, the call takes them by its own receives (R142 to R146, R150), and goes on with
what is left of it. -/

namespace Sys2Proof.Machine

/-- The response ACK (R126, R142, R144). -/
def execResponseAck (s : State) : Result :=
  .next (resumeWith [.ack] (s.answeredBy (encode s.params .responseAck)))

/-- The response NACK (R126, R142, R144). -/
def execResponseNack (s : State) : Result :=
  .next (resumeWith [.ack] (s.answeredBy (encode s.params .responseNack)))

/-- The response Unexpected (R105, R142, R144). -/
def execResponseUnexpected (b : Byte) (s : State) : Result :=
  .next (resumeWith [.ack] (s.answeredBy (encode s.params (.responseUnexpected b))))

/-- The whole reply R-VER (R101, R146). -/
def execResponseVer (ps : List Byte) (s : State) : Result :=
  if verPayloadOk ps then .next (resumeWith verReplyItems (s.answeredBy (encode s.params (.responseVer ps))))
  else .fault .badFrame

/-- The whole reply R-ID (R100, R150). -/
def execResponseId (id : ChipId) (s : State) : Result :=
  .next (resumeWith idReplyItems (s.answeredBy (encode s.params (.responseId id))))

end Sys2Proof.Machine
end

