-- ==== Sys2Proof/Machine/Dispatch.lean ====
section
/-! DEFINITION. One arm per row of the opcode table. -/

namespace Sys2Proof.Machine

def exec (i : Instr) (s : State) : Host.Outcome State Fault Refusal :=
  match i with
  | .sync => Sys2Proof.Machine.execSync s
  | .getVersion => Sys2Proof.Machine.execGetVersion s
  | .getId => Sys2Proof.Machine.execGetId s
  | .writeUnprotect => Sys2Proof.Machine.execWriteUnprotect s
  | .erase => Sys2Proof.Machine.execErase s
  | .extErase => Sys2Proof.Machine.execExtErase s
  | .writeMemory => Sys2Proof.Machine.execWriteMemory s
  | .go => Sys2Proof.Machine.execGo s
  | .frameArgc arg => Sys2Proof.Machine.execFrameArgc arg s
  | .frameArgx args => Sys2Proof.Machine.execFrameArgx args s
  | .frameAddr a => Sys2Proof.Machine.execFrameAddr a s
  | .frameData ds => Sys2Proof.Machine.execFrameData ds s
  | .responseAck => Sys2Proof.Machine.execResponseAck s
  | .responseNack => Sys2Proof.Machine.execResponseNack s
  | .responseUnexpected b => Sys2Proof.Machine.execResponseUnexpected b s
  | .responseVer ps => Sys2Proof.Machine.execResponseVer ps s
  | .responseId id => Sys2Proof.Machine.execResponseId id s

end Sys2Proof.Machine
end

