-- ==== Sys2Proof/Machine/Fetch.lean ====
section
/-! DEFINITION. Which row of the opcode table the sequencer runs next. The program is hard-wired (R75, R106): between
calls the line selects the command, and inside a call the item it stands at selects the argument frame, or the bytes
at the head of RX are decoded as the response it waits for. -/

namespace Sys2Proof.Machine

/-- The command a line of the session calls (R190). -/
def CallSite.instr : CallSite → Instr
  | .sync _ => .sync
  | .getVersion => .getVersion
  | .getId => .getId
  | .writeUnprotect => .writeUnprotect
  | .erase => .erase
  | .extErase => .extErase
  | .write => .writeMemory
  | .go => .go

/-- The row of the opcode table that a frame sent in the middle of a call is. -/
def Frame.instr : Frame → Option Instr
  | .sync => none
  | .cmd _ => none
  | .argc arg => some (.frameArgc arg)
  | .argx args => some (.frameArgx args)
  | .addr a => some (.frameAddr a)
  | .data ds => some (.frameData ds)

/-- The bytes at the head of RX, up to the first answer that is none. -/
def rxBytes : List RxAnswer → List Byte
  | .byte b :: q => b :: rxBytes q
  | .timeout :: _ => []
  | .err :: _ => []
  | [] => []

/-- A response read from the head of RX by the format the call waits for, and RX after it. -/
def fetchResponse (fmt : Format) (s : State) : Option (Instr × List RxAnswer) :=
  match decode s.params fmt (rxBytes s.rx) with
  | .ok (i, _) => some (i, s.rx.drop (encode s.params i).length)
  | .error _ => none

/-- The row the call in progress runs next, with the items after it and RX after it: an argument frame to be sent, a
whole reply that has come in, or one acknowledgement. -/
def fetchPhase (s : State) : List Item → Option (Instr × List Item × List RxAnswer)
  | .ack :: .count :: .data :: .ack :: .setVersion :: rest =>
    match fetchResponse .rVer s with
    | some (i, q) => some (i, rest, q)
    | none => (fetchResponse .rAck s).map fun r => (r.1, .count :: .data :: .ack :: .setVersion :: rest, r.2)
  | .ack :: .countOne :: .data :: .ack :: .setId :: rest =>
    match fetchResponse .rId s with
    | some (i, q) => some (i, rest, q)
    | none => (fetchResponse .rAck s).map fun r => (r.1, .countOne :: .data :: .ack :: .setId :: rest, r.2)
  | .ack :: rest => (fetchResponse .rAck s).map fun r => (r.1, rest, r.2)
  | .send f :: .ack :: rest => f.instr.map fun i => (i, rest, s.rx)
  | _ => none

/-- The items and the answers of the fetched row are taken off. -/
def State.taken (s : State) (its : List Item) (q : List RxAnswer) : State := { s with phase := its, rx := q }

/-- The row the sequencer runs next and the state it runs it in; none where the next step is a line that calls nothing,
or a part of a call that is no row of the table. -/
def State.fetch (s : State) : Option (Instr × State) :=
  match s.phase with
  | [] =>
    match s.line with
    | .call c => some (c.instr, s)
    | .ctl _ => none
  | items => (fetchPhase s items).map fun r => (r.1, s.taken r.2.1 r.2.2)

/-! ## Placing an instruction -/

/-- The state is made ready for the sequencer: running, with the link open, and no move of the outside before it. -/
def State.ready (s : State) (c : CallSite) : State :=
  { s with run := true, done := false, err := false, linkOpen := true, moves := [], line := .call c, phase := [] }

/-- The state in the middle of the call `c`, with the items it still has to run. -/
def State.inside (s : State) (c : CallSite) (items : List Item) : State := { s.ready c with phase := items }

/-- A block WRITE_MEMORY can carry: the one that is there, or one byte where there is none (log entry 12). -/
def State.withBlock (s : State) : State :=
  if blockOk s.params s.chunk then s else { s with chunkBuf := 0 :: s.chunkBuf.drop 1, chunkLen := 1 }

/-- `s` with the instruction selected, so that the next step runs it (log entry 12). -/
def State.select (s : State) : Instr → State
  | .sync => s.ready (.sync .first)
  | .getVersion => s.ready .getVersion
  | .getId => s.ready .getId
  | .writeUnprotect => s.ready .writeUnprotect
  | .erase => s.ready .erase
  | .extErase => s.ready .extErase
  | .writeMemory => s.withBlock.ready .write
  | .go => s.ready .go
  | .frameArgc arg => s.inside .erase (eraseArgItems arg ++ [.idle])
  | .frameArgx args => s.inside .extErase (extEraseArgItems args ++ [.idle])
  | .frameAddr a => s.inside .go (addrItems a ++ [.idle])
  | .frameData ds => s.inside .write (dataItems ds ++ [.memWrite s.curAddr ds, .idle])
  | .responseAck => (s.inside .writeUnprotect [.ack, .idle]).answeredBy (encode s.params .responseAck)
  | .responseNack => (s.inside .writeUnprotect [.ack, .idle]).answeredBy (encode s.params .responseNack)
  | .responseUnexpected b =>
    (s.inside .writeUnprotect [.ack, .idle]).answeredBy (encode s.params (.responseUnexpected b))
  | .responseVer ps => (s.inside .getVersion (verReplyItems ++ [.idle])).answeredBy (encode s.params (.responseVer ps))
  | .responseId id => (s.inside .getId (idReplyItems ++ [.idle])).answeredBy (encode s.params (.responseId id))

end Sys2Proof.Machine
end

