-- ==== Sys2Proof/Machine/HostPort.lean ====
section
/-! DEFINITION. The moves of the outside (R267): reset, the configuration inputs, start, and the answers that become
available to the primitives. -/

namespace Sys2Proof.Machine

/-- The registers at the values of R50 and R260; what lies outside the FRAMER is kept (R262), and the trace of the next
run starts empty. -/
def State.resetRegs (s : State) : State :=
  { State.resetWith s.params with
    hostCfg := s.hostCfg
    moves := s.moves
    openAns := s.openAns
    sendAns := s.sendAns
    rx := s.rx
    src := s.src
    dev := s.dev }

/-- `reset` (R260), which has a move only while `RUN = 0` (R261). -/
def hostReset (s : State) : Result :=
  if s.run then .refused .resetWhileRunning else .next s.resetRegs

/-- The configuration check at `start`: the image ends inside the 32-bit address space; the sum does not wrap
(R264). -/
def State.configAdmitted (s : State) : Bool :=
  decide (s.params.flashBase.toNat + s.hostCfg.totalBytes.toNat ≤ 2 ^ 32)

/-- The five configuration registers are sampled from the host's inputs (R263). -/
def State.sampled (s : State) : State :=
  { s with
    cfgPort := s.hostCfg.port
    cfgBaud := s.hostCfg.baud.getD s.params.baudDefault
    cfgSkipProg := s.hostCfg.skipProg
    cfgSendGo := s.hostCfg.sendGo
    totalBytes := s.hostCfg.totalBytes }

/-- `start`: accepted when idle with an admitted configuration, ignored otherwise (R263). -/
def hostStart (s : State) : State :=
  if s.idle && s.configAdmitted then { s.sampled with run := true }.goto (.ctl .openLink) else s

/-- The moves the outside is still to make. -/
def State.withMoves (s : State) (ms : List Move) : State := { s with moves := ms }

/-- A move of the outside other than `pass`. -/
def runMove (m : Move) (s : State) : Result :=
  match m with
  | .pass => .next s
  | .reset => hostReset s
  | .config c => .next { s with hostCfg := c }
  | .start => .next (hostStart s)
  | .openAnswer a => .next { s with openAns := s.openAns ++ [a] }
  | .sendAnswer a => .next { s with sendAns := s.sendAns ++ [a] }
  | .rxAnswer a => .next { s with rx := s.rx ++ [a] }
  | .srcAnswer bs => .next { s with src := s.src ++ [bs] }

end Sys2Proof.Machine
end

