-- ==== Sys2Proof/Machine/Sequencer.lean ====
section
/-! DEFINITION. The lines of the hard-wired session that call no command (R190): the opening of the link, the
connect loop, the checks, the program loop, progress, and the end. -/

namespace Sys2Proof.Machine

/-- What `Open` does but for its answer: the answer is used up and the event stands on the trace (R61). -/
def State.opened (s : State) : State :=
  { s with
    openAns := s.openAns.tail
    trace := s.trace ++ [.opened s.cfgPort s.cfgBaud (nextAnswer s.openAns)] }

/-- S0: `Open(CFG_PORT, CFG_BAUD)` (R61, R191). -/
def runOpen (s : State) : State :=
  match nextAnswer s.openAns with
  | .ok => { s.opened with linkOpen := true }.goto (.ctl (.connectStart .first))
  | .err => raise .transportError .openLink s.opened

/-- `SYNC_FAILS <- n` (R45). -/
def State.withSyncFails (s : State) (n : Nat) : State := { s with syncFails := n }

/-- CONNECT begins: `SYNC_FAILS <- 0` (R192). -/
def runConnectStart (h : Handshake) (s : State) : State :=
  (s.withSyncFails 0).goto (.call (.sync h))

/-- CONNECT after a `Retry`: the attempt is counted; the last one raises, any other waits and resends (R192). -/
def runRetry (h : Handshake) (s : State) : State :=
  let s' := s.withSyncFails (s.syncFails + 1)
  if s.syncFails + 1 = s.params.maxSyncAttempts then raise .handshakeTimeout h.failStep s'
  else (s'.emit (.delay s.params.retryDelay)).goto (.call (.sync h))

/-- Where the session goes on after CONNECT (R190). -/
def Handshake.next : Handshake → Line
  | .first => .call .getVersion
  | .again => .ctl .unprotected

/-- CONNECT after `Connected`: `SEQ <- max(SEQ, Connected)` (R192). -/
def runConnected (h : Handshake) (s : State) : State := (s.setSeq (s.seq.max .connected)).goto h.next

/-- `BL_MAJOR * 256 + BL_MINOR`, as a natural (R196, R220 c). -/
def State.version (s : State) : Nat := s.blMajor.toNat * 256 + s.blMinor.toNat

/-- S3: the version check (R196). -/
def runVersionCheck (s : State) : Result :=
  if s.verValid then
    if s.version < s.params.minVersion then .next (raise .versionUnsupported .versionCheck s)
    else .next ((s.setSeq .versionKnown).goto (.call .getId))
  else .fault (.noValue .blMajor)

/-- `CHIP_ID ∈ SUPPORTED_CHIP_IDS` (R198). -/
def State.chipSupported (s : State) : Bool := decide (s.chipId ∈ s.params.supportedChipIds)

/-- S5: the chip check (R198). -/
def runChipCheck (s : State) : Result :=
  if s.idValid then
    if s.chipSupported then .next ((s.setSeq .identified).goto (.ctl .skipCheck))
    else .next (raise .chipUnsupported .chipCheck s)
  else .fault (.noValue .chipId)

/-- S6: the skip branch (R199). -/
def runSkipCheck (s : State) : State :=
  s.goto (if s.cfgSkipProg then .ctl .goCheck else .call .writeUnprotect)

/-- S7 after WRITE_UNPROTECT: whether to synchronise again (R200). -/
def runResyncCheck (s : State) : State :=
  s.goto (if s.params.wupResync then .ctl (.connectStart .again) else .ctl .unprotected)

/-- S7 ends: `SEQ <- Unprotected` (R200). -/
def runUnprotected (s : State) : State := (s.setSeq .unprotected).goto (.ctl .eraseSelect)

/-- The erase a bootloader's major version asks for (R202). -/
def eraseSite (p : Params) (major : Byte) : CallSite :=
  if major.toNat = p.extEraseMajor then .extErase else .erase

/-- S8: the erase strategy (R202). -/
def runEraseSelect (s : State) : Result :=
  if s.verValid then .next (s.goto (.call (eraseSite s.params s.blMajor))) else .fault (.noValue .blMajor)

/-- S8 ends: `SEQ <- Erased` (R202). -/
def runErased (s : State) : State := (s.setSeq .erased).goto (.ctl .programStart)

/-- `BYTES_WRITTEN <- 0 ; CUR_ADDR <- FLASH_BASE` (R205). -/
def State.rewound (s : State) : State := { s with bytesWritten := 0, curAddr := s.params.flashBase }

/-- S9: PROGRAM up to its loop, with the zero-size image (R205, R206). -/
def runProgramStart (s : State) : State :=
  if s.totalBytes = 0 then (s.rewound.setSeq .programmed).goto (.ctl .goCheck) else s.rewound.goto (.ctl .read)

/-- Whether a list the source returned breaks its contract: longer than asked, or past the declared size; the sum does
not wrap (R208). -/
def State.overrun (s : State) (bs : List Byte) : Bool :=
  decide (s.params.maxChunk < bs.length) || decide (s.totalBytes.toNat < s.bytesWritten.toNat + bs.length)

/-- `CHUNK_BUF[0..len(bs)-1] <- bs ; CHUNK_LEN <- len(bs)` (R66, R205). -/
def State.storeChunk (s : State) (bs : List Byte) : State :=
  { s with chunkBuf := bs ++ s.chunkBuf.drop bs.length, chunkLen := bs.length }

/-- `CHUNK_LEN <- n` (R48). -/
def State.withChunkLen (s : State) (n : Nat) : State := { s with chunkLen := n }

/-- S9: what is made of the list `bs` that a source read returned (R207, R208). -/
def takeChunk (bs : List Byte) (s : State) : State :=
  if bs = [] then ((s.withChunkLen 0).setSeq .programmed).goto (.ctl .goCheck)
  else if s.overrun bs then raise .srcContract .program s
  else (s.storeChunk bs).goto (.call .write)

/-- What a source read does but for what is made of its list: the list is used up and the event stands on the trace
(R66). -/
def State.fed (s : State) (bs : List Byte) : State :=
  { s with src := s.src.tail, trace := s.trace ++ [.src s.params.maxChunk bs] }

/-- S9: `bs <- MemRead(SRC, MAX_CHUNK)` (R66, R207). With no answer yet, the sequencer waits (log entry 4). -/
def runRead (s : State) : State :=
  match s.src with
  | [] => s
  | bs :: _ => takeChunk bs (s.fed bs)

/-- The thresholds that a percentage has reached from `next` on, in order, and the next one not reached (R212). The
first argument bounds the loop, which ends at 100. -/
def thresholds (step pct : Nat) : Nat → Nat → List Nat × Nat
  | 0, next => ([], next)
  | fuel + 1, next =>
    if next ≤ 100 ∧ next ≤ pct then
      let r := thresholds step pct fuel (next + step)
      (next :: r.1, r.2)
    else ([], next)

/-- A bound on the turns of the threshold loop: `NEXT_PCT` grows by at least 1 and stops past 100 (R212). -/
def thresholdFuel : Nat := 101

/-- `(BYTES_WRITTEN * 100) div TOTAL_BYTES`, the product exact (R212, R220 f). -/
def percentage (bytesWritten totalBytes : Addr) : Nat := bytesWritten.toNat * 100 / totalBytes.toNat

/-- S9: `CUR_ADDR` and `BYTES_WRITTEN` go on by `CHUNK_LEN` (R210). -/
def State.advanced (s : State) : State :=
  { s with
    curAddr := s.curAddr + BitVec.ofNat 32 s.chunkLen
    bytesWritten := s.bytesWritten + BitVec.ofNat 32 s.chunkLen }

/-- S9: the progress events of the advanced counts, and `NEXT_PCT` (R212). -/
def State.reported (s : State) : State :=
  let r := thresholds s.params.pctStep (percentage s.bytesWritten s.totalBytes) thresholdFuel s.nextPct
  { s with trace := s.trace ++ .progress s.bytesWritten.toNat :: r.1.map .pct, nextPct := r.2 }

/-- S9: the advance and the progress events (R210, R212). -/
def runAdvance (s : State) : Result :=
  if s.totalBytes = 0 then .fault .divisionByZero
  else .next (s.advanced.reported.goto (.ctl .read))

/-- S10: the optional go (R214). -/
def runGoCheck (s : State) : State :=
  s.goto (if s.cfgSendGo then .call .go else .ctl .finish)

/-- S10 ends: `SEQ <- Executing` (R214). -/
def runExecuting (s : State) : State := (s.setSeq .executing).goto (.ctl .finish)

/-- S11: the successful end (R216). -/
def runFinish (s : State) : State :=
  { closeLink s with done := true, run := false }.emit .haltDone

/-- One line of the session that calls no command. -/
def runCtl (c : Ctl) (s : State) : Result :=
  match c with
  | .openLink => .next (runOpen s)
  | .connectStart h => .next (runConnectStart h s)
  | .retry h => .next (runRetry h s)
  | .connected h => .next (runConnected h s)
  | .versionCheck => runVersionCheck s
  | .chipCheck => runChipCheck s
  | .skipCheck => .next (runSkipCheck s)
  | .resyncCheck => .next (runResyncCheck s)
  | .unprotected => .next (runUnprotected s)
  | .eraseSelect => runEraseSelect s
  | .erased => .next (runErased s)
  | .programStart => .next (runProgramStart s)
  | .read => .next (runRead s)
  | .advance => runAdvance s
  | .goCheck => .next (runGoCheck s)
  | .executing => .next (runExecuting s)
  | .finish => .next (runFinish s)

end Sys2Proof.Machine
end

