-- ==== Sys2Proof/Machine/Step.lean ====
section
/-! DEFINITION. One step: a move of the outside if one is due, else one step of the sequencer (R12, R190). -/

namespace Sys2Proof.Machine

/-- One step of the sequencer: none while `RUN = 0` (R31); else the row of the opcode table that is selected, the
rest of the call in progress, or the line of the session. -/
def runSequencer (s : State) : Result :=
  if s.run then
    match s.fetch with
    | some (i, s') => exec i s'
    | none =>
      match s.line with
      | .ctl c => if s.phase = [] then runCtl c s else .next (resumeWith [] s)
      | .call _ => .next (resumeWith [] s)
  else .next s

/-- One step of the machine. With parameters outside R8 there is none (D1, U13). -/
def step (s : State) : Host.Outcome State Fault Refusal :=
  if s.params.ok then
    match s.moves with
    | [] => runSequencer s
    | .pass :: ms => runSequencer (s.withMoves ms)
    | m :: ms => runMove m (s.withMoves ms)
  else .refused .badParameters

/-- `s` with the instruction that the word stands for selected as the next step's (log entry 12); `s` itself where the
word is none. -/
def State.withFetchWord (s : State) (nbits w : Nat) : State :=
  match decodeTableWord nbits w with
  | some i => s.select i
  | none => s

end Sys2Proof.Machine
end

