-- ==== Sys2Proof/Laws/PerInstr.lean ====
section
/-! SUPPORT. Reading back what was written, row by row of the opcode table: the decoder gives the instruction, with
every operand, from the bytes the encoder wrote, and leaves nothing over. -/

namespace Sys2Proof

open Sys2Proof.Machine

/-- The bytes of a well-formed instruction decode to it in its own format (R90 to R101). The opcodes must be told apart
for a command to be read back (R103). -/
def Laws.RoundTrip.Statement (i : Instr) : Prop :=
  ∀ p : Params, p.ok = true → p.opcodesDistinct = true → WellFormed p i = true →
    decode p (formatOf i) (encode p i) = .ok (i, [])

/-- R8, as far as decoding needs it. -/
theorem Params.ok_ack {p : Params} (h : p.ok = true) : p.ackByte ≠ p.nackByte := by
  simp only [Params.ok, Bool.and_eq_true, bne_iff_ne] at h
  exact h.1.1.1.1.1.1.1.1

/-- The seven opcodes differ (R103). -/
theorem Params.opcodes_ne {p : Params} (h : p.opcodesDistinct = true) :
    [p.opcGetVersion, p.opcGetId, p.opcWriteUnprotect, p.opcErase, p.opcExtErase, p.opcWriteMemory, p.opcGo].Nodup := by
  simpa [Params.opcodesDistinct] using h

/-- The opcode of each command selects it. -/
theorem commandOf_own {p : Params} (h : p.opcodesDistinct = true) :
    commandOf p p.opcGetVersion = some .getVersion ∧ commandOf p p.opcGetId = some .getId
      ∧ commandOf p p.opcWriteUnprotect = some .writeUnprotect ∧ commandOf p p.opcErase = some .erase
      ∧ commandOf p p.opcExtErase = some .extErase ∧ commandOf p p.opcWriteMemory = some .writeMemory
      ∧ commandOf p p.opcGo = some .go := by
  have hd := Params.opcodes_ne h
  simp only [List.nodup_cons, List.mem_cons, List.not_mem_nil, or_false, not_or, List.nodup_nil, and_true] at hd
  obtain ⟨⟨h1, h2, h3, h4, h5, h6⟩, ⟨h7, h8, h9, h10, h11⟩, ⟨h12, h13, h14, h15⟩, ⟨h16, h17, h18⟩, ⟨h19, h20⟩, h21, -⟩ := hd
  refine ⟨?_, ?_, ?_, ?_, ?_, ?_, ?_⟩ <;> simp [commandOf, *, Ne.symm, eq_comm]

theorem decodeCmd_own {p : Params} {op : Byte} {i : Instr} (h : commandOf p op = some i) :
    decodeCmd p (encodeSingleByteCommand op) = .ok (i, []) := by
  simp [decodeCmd, encodeSingleByteCommand, h]

theorem decodeArgx_own (args : List Byte) (h : args ≠ []) : decodeArgx (encodePayload args) = .ok (.frameArgx args, []) := by
  unfold decodeArgx encodePayload
  simp only [List.dropLast_concat, List.getLast?_concat]
  cases args with
  | nil => exact absurd rfl h
  | cons a as => simp

theorem addrOfBytes_own (a : Addr) :
    addrOfBytes (a.extractLsb' 24 8) (a.extractLsb' 16 8) (a.extractLsb' 8 8) (a.extractLsb' 0 8) = a := by
  simp only [addrOfBytes]
  ext i hi
  simp only [BitVec.getElem_append, BitVec.getElem_extractLsb']
  split
  · simp [BitVec.getLsbD_eq_getElem, *]
  · split
    · rw [show 8 + (i - 8) = i by omega]; simp [BitVec.getLsbD_eq_getElem, hi]
    · split
      · rw [show 16 + (i - 8 - 8) = i by omega]; simp [BitVec.getLsbD_eq_getElem, hi]
      · rw [show 24 + (i - 8 - 8 - 8) = i by omega]; simp [BitVec.getLsbD_eq_getElem, hi]

theorem chipIdOf_own (id : ChipId) : chipIdOf (idHi id) (idLo id) = id := by
  simp only [chipIdOf, idHi, idLo]
  ext i hi
  simp only [BitVec.getElem_append, BitVec.getElem_extractLsb']
  split
  · simp [BitVec.getLsbD_eq_getElem, *]
  · rw [show 8 + (i - 8) = i by omega]; simp [BitVec.getLsbD_eq_getElem, hi]

/-- The count-minus-one byte counts back. -/
theorem countByte_toNat {n : Nat} (h1 : 1 ≤ n) (h2 : n ≤ 256) : (BitVec.ofNat 8 (n - 1)).toNat + 1 = n := by
  simp only [BitVec.toNat_ofNat]
  omega

theorem Laws.RoundTrip.sync : Statement .sync := fun p _ _ _ => by
  simp [decode, formatOf, decodeSync, encode, Frame.bytes]

theorem Laws.RoundTrip.getVersion : Statement .getVersion := fun _ _ hd _ => decodeCmd_own (commandOf_own hd).1

theorem Laws.RoundTrip.getId : Statement .getId := fun _ _ hd _ => decodeCmd_own (commandOf_own hd).2.1

theorem Laws.RoundTrip.writeUnprotect : Statement .writeUnprotect := fun _ _ hd _ =>
  decodeCmd_own (commandOf_own hd).2.2.1

theorem Laws.RoundTrip.erase : Statement .erase := fun _ _ hd _ => decodeCmd_own (commandOf_own hd).2.2.2.1

theorem Laws.RoundTrip.extErase : Statement .extErase := fun _ _ hd _ => decodeCmd_own (commandOf_own hd).2.2.2.2.1

theorem Laws.RoundTrip.writeMemory : Statement .writeMemory := fun _ _ hd _ =>
  decodeCmd_own (commandOf_own hd).2.2.2.2.2.1

theorem Laws.RoundTrip.go : Statement .go := fun _ _ hd _ => decodeCmd_own (commandOf_own hd).2.2.2.2.2.2

theorem Laws.RoundTrip.frameArgc (arg : Byte) : Statement (.frameArgc arg) := fun p _ _ _ => by
  simp [decode, formatOf, decodeArgc, encode, Frame.bytes, encodeSingleByteCommand]

theorem Laws.RoundTrip.frameArgx (args : List Byte) : Statement (.frameArgx args) := fun p _ _ h => by
  simp only [WellFormed, argxOk, Bool.not_eq_true', List.isEmpty_eq_false_iff] at h
  exact decodeArgx_own args h

theorem Laws.RoundTrip.frameAddr (addr : Addr) : Statement (.frameAddr addr) := fun p _ _ _ => by
  simp [decode, formatOf, decodeAddr, encode, Frame.bytes, encodeAddr, encodePayload, addrBytes, addrOfBytes_own]

theorem Laws.RoundTrip.frameData (ds : List Byte) : Statement (.frameData ds) := fun p _ _ h => by
  simp only [WellFormed, blockOk, Bool.and_eq_true, decide_eq_true_eq] at h
  have hn := countByte_toNat h.1.1 h.2
  have hm := h.1.2
  simp only [decode, formatOf, decodeData, encode, Frame.bytes, encodeData, encodePayload, dataPayload,
    List.cons_append, hn, List.drop_append_of_le_length (Nat.le_refl _), List.drop_length, List.nil_append,
    List.take_append_of_le_length (Nat.le_refl _), List.take_length, if_true]
  rw [if_neg (by omega)]

theorem Laws.RoundTrip.responseAck : Statement .responseAck := fun p _ _ _ => by
  simp [decode, formatOf, decodeAckByte, encode, responseOf, decodeAck]

theorem Laws.RoundTrip.responseNack : Statement .responseNack := fun p hp _ _ => by
  simp [decode, formatOf, decodeAckByte, encode, responseOf, decodeAck, Ne.symm (Params.ok_ack hp)]

theorem Laws.RoundTrip.responseUnexpected (b : Byte) : Statement (.responseUnexpected b) := fun p _ _ h => by
  simp only [WellFormed, unexpectedOk, Bool.and_eq_true, bne_iff_ne] at h
  simp [decode, formatOf, decodeAckByte, encode, responseOf, decodeAck, h.1, h.2]

theorem Laws.RoundTrip.responseVer (ps : List Byte) : Statement (.responseVer ps) := fun p _ _ h => by
  simp only [WellFormed, verPayloadOk, Bool.and_eq_true, decide_eq_true_eq] at h
  have hn := countByte_toNat h.1 h.2
  simp only [decode, formatOf, decodeVer, encode, verCount, List.cons_append, hn,
    List.drop_append_of_le_length (Nat.le_refl _), List.drop_length, List.nil_append,
    List.take_append_of_le_length (Nat.le_refl _), List.take_length, if_true]

theorem Laws.RoundTrip.responseId (id : ChipId) : Statement (.responseId id) := fun p _ _ _ => by
  simp [decode, formatOf, decodeId, encode, chipIdOf_own]

end Sys2Proof
end

