-- ==== Sys2Proof/Safety.lean ====
section
/-! DEFINITION. The vocabulary of claims: what the outside answers, what a step adds to the trace, and the invariants
of a run (R33, R34, R45, R46, R49, R216, R219). -/

namespace Sys2Proof.Safety

open Sys2Proof Sys2Proof.Machine

/-! ## What the outside answers -/

/-- The next `n` calls of `Send` answer `ok`. -/
def sendsOk (n : Nat) (s : State) : Prop := ∀ a ∈ s.sendAns.take n, a = .ok

/-- `ACK_BYTE` received. -/
def ackAns (p : Params) : RxAnswer := .byte p.ackByte

/-- The event of a frame sent with success. -/
def sentOk (p : Params) (f : Frame) : Event := .tx (f.bytes p) .ok

/-- The event of an `ACK_BYTE` received. -/
def gotAck (p : Params) : Event := .rx (ackAns p)

/-- What the trace of a later state of the same run has more than that of an earlier one. -/
def newEvents (s s' : State) : List Event := s'.trace.drop s.trace.length

/-- An answer to a synchronisation attempt that makes it a failed one (R144): a timeout, or a byte that is not
`ACK_BYTE`. -/
def failsSync (p : Params) : RxAnswer → Bool
  | .byte b => b != p.ackByte
  | .timeout => true
  | .err => false

/-- A frame with bit `j` of byte `i` flipped (R128). -/
def flipBit (f : List Byte) (i j : Nat) : List Byte := f.modify i (· ^^^ BitVec.twoPow 8 j)

/-- The error an answer gives where an ACK is required (R142, R231); none for `ACK_BYTE`. -/
def ackError (p : Params) : RxAnswer → ErrCode
  | .byte b => if b = p.ackByte then .none else if b = p.nackByte then .protoNack else .protoUnexpected
  | .timeout => .protoTimeout
  | .err => .transportError

/-- What `CALL` holds after that answer (R142). -/
def ackCall (p : Params) : RxAnswer → Call
  | .byte b => if b = p.ackByte then .acked else if b = p.nackByte then .nacked else .unexpected
  | .timeout => .timedOut
  | .err => .linkFailed

/-- The error of an answer where a payload byte is awaited (R143); none for any byte. -/
def dataError : RxAnswer → ErrCode
  | .byte _ => .none
  | .timeout => .protoTimeout
  | .err => .transportError

/-- The events of one failed synchronisation attempt and the wait after it (R192). -/
def failedAttempt (p : Params) (a : RxAnswer) : List Event := [sentOk p .sync, .rx a, .delay p.retryDelay]

/-- The threshold of a `Pct` event (R68). -/
def pctOf : Event → Option Nat
  | .pct k => some k
  | _ => none

/-- The steps of the machine, one after another. -/
def runs (k : Nat) (s : State) : Result := Host.Core.run Sys2Proof.core k s

/-! ## Invariants -/

/-- The outcome flags (R31, R32, R33, R34). -/
structure FlagsInv (s : State) : Prop where
  notBoth : ¬ (s.done = true ∧ s.err = true)
  running : s.run = true → s.done = false ∧ s.err = false
  closed : s.run = false → s.linkOpen = false
  noError : s.err = false → s.errCode = .none ∧ s.failStep = .none
  anError : s.err = true → s.errCode ≠ .none

/-- The ranges of the registers that count (R45, R46, R48). -/
structure RangeInv (s : State) : Prop where
  syncFails : s.syncFails ≤ s.params.maxSyncAttempts
  nextPctLow : s.params.pctStep ≤ s.nextPct
  nextPctHigh : s.nextPct ≤ 100 + s.params.pctStep
  nextPctStep : s.params.pctStep ∣ s.nextPct
  chunkBuf : s.chunkBuf.length = s.params.maxChunk
  chunkLen : s.chunkLen ≤ s.params.maxChunk

/-- GET_VERSION has succeeded and its version has passed the check (R196). -/
def versionPassed (s : State) : Prop := s.verValid = true ∧ s.params.minVersion ≤ s.version

/-- DeviceIdentity has been obtained and both checks have passed (R49 b). -/
def identityPassed (s : State) : Prop := versionPassed s ∧ s.idValid = true ∧ s.chipSupported = true

/-- Programming was not skipped and the identity is known: what every line from S7 to S9 runs under. -/
def mayChange (s : State) : Prop := identityPassed s ∧ s.cfgSkipProg = false

/-- What holds in the program loop (R44, R49). -/
def looping (s : State) : Prop :=
  mayChange s ∧ s.seq = .erased ∧ s.totalBytes ≠ 0
    ∧ s.curAddr = s.params.flashBase + s.bytesWritten
    ∧ s.bytesWritten.toNat ≤ s.totalBytes.toNat

/-- A block is in the buffer that the contract admits (R208). -/
def blockReady (s : State) : Prop :=
  1 ≤ s.chunkLen ∧ s.bytesWritten.toNat + s.chunkLen ≤ s.totalBytes.toNat

/-- `SEQ` where programming is over or was skipped (R214, R216). -/
def programmedOrSkipped (s : State) : Prop :=
  identityPassed s ∧ s.seq = (if s.cfgSkipProg then .identified else .programmed)

/-- `SEQ` at a successful end: the table of R216. -/
def endSeq (skipProg sendGo : Bool) : Seq :=
  if sendGo then .executing else if skipProg then .identified else .programmed

/-- What a line of the handshake runs under: nothing is known in the first; after WRITE_UNPROTECT the identity is. -/
def handshakeInv (h : Handshake) (s : State) : Prop :=
  match h with
  | .first => s.seq = .disconnected
  | .again => mayChange s ∧ s.seq = .identified ∧ s.params.wupResync = true

/-- What holds of a running FRAMER at each line that calls a command. -/
def callInv (c : CallSite) (s : State) : Prop :=
  match c with
  | .sync h => handshakeInv h s ∧ s.syncFails < s.params.maxSyncAttempts
  | .getVersion => s.seq = .connected
  | .getId => versionPassed s ∧ s.seq = .versionKnown
  | .writeUnprotect => mayChange s ∧ s.seq = .identified
  | .erase => mayChange s ∧ s.seq = .unprotected ∧ s.blMajor.toNat ≠ s.params.extEraseMajor
  | .extErase => mayChange s ∧ s.seq = .unprotected ∧ s.blMajor.toNat = s.params.extEraseMajor
  | .write => looping s ∧ blockReady s
  | .go => programmedOrSkipped s ∧ s.cfgSendGo = true

/-- What holds of a running FRAMER at each line that calls none. -/
def ctlInv (c : Ctl) (s : State) : Prop :=
  match c with
  | .openLink => s.seq = .disconnected
  | .connectStart h => handshakeInv h s
  | .retry h => handshakeInv h s ∧ s.syncFails < s.params.maxSyncAttempts
  | .connected h => handshakeInv h s
  | .versionCheck => s.verValid = true ∧ s.seq = .connected
  | .chipCheck => versionPassed s ∧ s.idValid = true ∧ s.seq = .versionKnown
  | .skipCheck => identityPassed s ∧ s.seq = .identified
  | .resyncCheck => mayChange s ∧ s.seq = .identified
  | .unprotected => mayChange s ∧ s.seq = .identified
  | .eraseSelect => mayChange s ∧ s.seq = .unprotected
  | .erased => mayChange s ∧ s.seq = .unprotected
  | .programStart => mayChange s ∧ s.seq = .erased
  | .read => looping s
  | .advance => looping s ∧ blockReady s
  | .goCheck => programmedOrSkipped s
  | .executing => programmedOrSkipped s ∧ s.cfgSendGo = true
  | .finish => identityPassed s ∧ s.seq = endSeq s.cfgSkipProg s.cfgSendGo

/-- What holds of a running FRAMER at its line (R49, R218). -/
def lineInv (s : State) : Prop :=
  match s.line with
  | .call c => callInv c s
  | .ctl c => ctlInv c s

/-- The phase list of the call a line makes (R180). -/
def callItems (c : CallSite) (s : State) : List Item :=
  match c with
  | .sync _ => syncItems
  | .getVersion => getVersionItems s.params
  | .getId => getIdItems s.params
  | .writeUnprotect => writeUnprotectItems s.params
  | .erase => eraseItems s.params
  | .extErase => extEraseItems s.params
  | .write => writeMemoryItems s.params s.curAddr s.chunk
  | .go => goItems s.params s.params.goAddr

/-- What is known when a call of the session begins: an erase puts all of DEV in doubt, and a WRITE_MEMORY its block (U1,
U4). -/
def doubting (c : CallSite) (s : State) : State :=
  match c with
  | .sync _ => s
  | .getVersion => s
  | .getId => s
  | .writeUnprotect => s
  | .erase => s.doubtAll
  | .extErase => s.doubtAll
  | .write => s.doubtBlock s.curAddr s.chunk.length
  | .go => s

/-- The frame of a call's second phase (R165, R168, R172, R176); none where it has one phase. -/
def argFrame (c : CallSite) (s : State) : Option Frame :=
  match c with
  | .sync _ => none
  | .getVersion => none
  | .getId => none
  | .writeUnprotect => none
  | .erase => some (.argc s.params.eraseArg)
  | .extErase => some (.argx s.params.extEraseArg)
  | .write => some (.addr s.curAddr)
  | .go => some (.addr s.params.goAddr)

/-- The items at which a call can be waiting. -/
def receives : Item → Bool
  | .send _ => false
  | .ack => true
  | .count => true
  | .countOne => true
  | .data => true
  | .setVersion => false
  | .setId => false
  | .memWrite _ _ => false
  | .idle => false

/-- How many payload bytes the writes at the end of a call read (R146, R150). -/
def payloadNeed : CallSite → Nat
  | .sync _ => 0
  | .getVersion => 1
  | .getId => 2
  | .writeUnprotect => 0
  | .erase => 0
  | .extErase => 0
  | .write => 0
  | .go => 0

/-- The payload bytes a call has and those its items `its` still receive are as many as its writes read. -/
def payloadComes (need : Nat) (its : List Item) (s : State) : Prop :=
  .count ∈ its ∨ .countOne ∈ its ∨ need ≤ s.payload.length + (if .data ∈ its then s.remain else 0)

/-- A call in progress waits at a receive; what is left of it is the end of its line's phase list, and its payload comes
in whole. A line that calls nothing has nothing left of a call. -/
def phaseInv (s : State) : Prop :=
  match s.line with
  | .call c => s.phase = [] ∨
    (s.phase <:+ callItems c s ∧ (∀ it ∈ s.phase.head?, receives it = true) ∧ payloadComes (payloadNeed c) s.phase s)
  | .ctl _ => s.phase = []

/-- The registers of an idle FRAMER that the next run starts from (R260). -/
structure IdleInv (s : State) : Prop where
  seq : s.seq = .disconnected
  verValid : s.verValid = false
  idValid : s.idValid = false
  bytesWritten : s.bytesWritten = 0
  phase : s.phase = []

/-- The invariant of a session (R49, R216, R218): every state a run reaches has it. -/
structure SessionInv (s : State) : Prop where
  params : s.params.ok = true
  flags : FlagsInv s
  ranges : RangeInv s
  dev : Memory.wf s.dev = true
  written : s.bytesWritten.toNat ≤ s.totalBytes.toNat
  fits : s.params.flashBase.toNat + s.totalBytes.toNat ≤ 2 ^ 32
  idle : s.idle = true → IdleInv s
  link : s.run = true → (s.linkOpen = true ↔ s.line ≠ .ctl .openLink)
  line : s.run = true → lineInv s
  phase : s.run = true → phaseInv s
  finished : s.done = true → identityPassed s ∧ s.seq = endSeq s.cfgSkipProg s.cfgSendGo

/-! ## How much a run can still do (R219 e, R287) -/

/-- What an item of a call can still cost: one for each receive and each write, and for the count byte of a reply the
most that it can announce. -/
def itemWork (remain : Nat) : Item → Nat
  | .send _ => 1
  | .ack => 1
  | .count => 300
  | .countOne => 10
  | .data => remain + 1
  | .setVersion => 1
  | .setId => 1
  | .memWrite _ _ => 1
  | .idle => 1

/-- What is left of the call in progress. -/
def phaseWork (remain : Nat) (its : List Item) : Nat := (its.map (itemWork remain)).sum

/-- More than any call costs. -/
def callBound (p : Params) : Nat := 1000 + p.wupAcks

/-- The bytes of the image not yet acknowledged. -/
def bytesLeft (s : State) : Nat := s.totalBytes.toNat - s.bytesWritten.toNat

/-- The synchronisation attempts left. -/
def attemptsLeft (s : State) : Nat := s.params.maxSyncAttempts - s.syncFails

/-- Where the second handshake stands in the order of the lines. -/
def againRank (s : State) : Nat := 3 * s.totalBytes.toNat + 12

/-- Where the first handshake stands in the order of the lines. -/
def firstRank (s : State) : Nat := againRank s + 2 * s.params.maxSyncAttempts + 10

/-- The rank a handshake counts down to. -/
def handshakeRank (h : Handshake) (s : State) : Nat :=
  match h with
  | .first => firstRank s
  | .again => againRank s

/-- A number that falls from line to line of the session, around its loops too. -/
def lineRank (s : State) : Nat :=
  match s.line with
  | .ctl .openLink => firstRank s + 2 * s.params.maxSyncAttempts + 3
  | .ctl (.connectStart h) => handshakeRank h s + 2 * s.params.maxSyncAttempts + 2
  | .call (.sync h) => handshakeRank h s + 2 * attemptsLeft s + 1
  | .ctl (.retry h) => handshakeRank h s + 2 * attemptsLeft s
  | .ctl (.connected h) => handshakeRank h s
  | .call .getVersion => againRank s + 2 * s.params.maxSyncAttempts + 9
  | .ctl .versionCheck => againRank s + 2 * s.params.maxSyncAttempts + 8
  | .call .getId => againRank s + 2 * s.params.maxSyncAttempts + 7
  | .ctl .chipCheck => againRank s + 2 * s.params.maxSyncAttempts + 6
  | .ctl .skipCheck => againRank s + 2 * s.params.maxSyncAttempts + 5
  | .call .writeUnprotect => againRank s + 2 * s.params.maxSyncAttempts + 4
  | .ctl .resyncCheck => againRank s + 2 * s.params.maxSyncAttempts + 3
  | .ctl .unprotected => 3 * s.totalBytes.toNat + 11
  | .ctl .eraseSelect => 3 * s.totalBytes.toNat + 10
  | .call .erase => 3 * s.totalBytes.toNat + 9
  | .call .extErase => 3 * s.totalBytes.toNat + 9
  | .ctl .erased => 3 * s.totalBytes.toNat + 8
  | .ctl .programStart => 3 * s.totalBytes.toNat + 7
  | .ctl .read => 4 + 3 * bytesLeft s + 2
  | .call .write => 4 + 3 * bytesLeft s + 1
  | .ctl .advance => 4 + 3 * bytesLeft s
  | .ctl .goCheck => 3
  | .call .go => 2
  | .ctl .executing => 1
  | .ctl .finish => 0

/-- A bound on the steps a run still takes: nothing once it has halted; else the rank of the line, and inside a call
what is left of it. -/
def workLeft (s : State) : Nat :=
  if s.run then
    1 + lineRank s * callBound s.params
      + (match s.line with
        | .call _ => if s.phase = [] then callBound s.params - 1 else phaseWork s.remain s.phase
        | .ctl _ => 0)
  else 0

/-- The primitive that the sequencer waits for, where it waits for one, has its answer (R287). -/
def answered (s : State) : Prop :=
  (s.phase ≠ [] → s.rx ≠ []) ∧ (s.line = .ctl .read → s.src ≠ [])

end Sys2Proof.Safety
end

