-- ==== Sys2Proof/Certificates/Slice0/Obligations.lean ====
section
/-! DEFINITION. The statements for the provers. Each says what an instruction or the machine does, over every state,
so over every value of every parameter and every answer of the outside. Where a next state is written as the old one with
some fields replaced, every other register, every byte of DEV and everything outside is as it was: the frame. -/

open Sys2Proof Sys2Proof.Machine Sys2Proof.Safety

/-! ## Reset, start, halt -/

/-- R260: `reset` gives every register its value; those without one read as a fault; nothing outside changes. The value
0 behind a register that holds none is the model's (log entry 7) and is not stated. -/
def Obligations.ResetGivesEveryRegisterItsValue : Prop :=
  ∀ (s : State) (ms : List Move), s.params.ok = true → s.run = false → s.moves = .reset :: ms →
    ∃ t, step s = .next t
      ∧ t.seq = .disconnected ∧ t.run = false ∧ t.linkOpen = false ∧ t.done = false ∧ t.err = false
      ∧ t.errCode = .none ∧ t.failStep = .none ∧ t.call = .idle ∧ t.verValid = false ∧ t.idValid = false
      ∧ t.bytesWritten = 0 ∧ t.curAddr = s.params.flashBase ∧ t.syncFails = 0 ∧ t.nextPct = s.params.pctStep
      ∧ t.cksum = 0 ∧ t.chunkLen = 0 ∧ t.trace = []
      ∧ (∀ r ∈ [Reg.cfgPort, .cfgBaud, .cfgSkipProg, .cfgSendGo, .totalBytes, .blMajor, .blMinor, .chipId],
          readReg t r = .error (.noValue r))
      ∧ (∀ i, readReg t (.chunkBuf i) = .error (.noValue (.chunkBuf i)))
      ∧ t.params = s.params ∧ t.hostCfg = s.hostCfg ∧ t.rx = s.rx ∧ t.src = s.src ∧ t.dev = s.dev
      ∧ t.openAns = s.openAns ∧ t.sendAns = s.sendAns ∧ t.moves = ms

/-- R261: `reset` has no move while `RUN = 1`. -/
def Obligations.ResetHasNoMoveWhileRunning : Prop :=
  ∀ (s : State) (ms : List Move), s.params.ok = true → s.run = true → s.moves = .reset :: ms →
    step s = .refused .resetWhileRunning

/-- R263: `start` is accepted when idle with an admitted configuration, and then samples the five configuration registers
and sets `RUN`, with no event of its own; otherwise it is ignored. The first event of the run is the `Open`. -/
def Obligations.StartSamplesOrIsIgnored : Prop :=
  ∀ (s : State) (ms : List Move), s.params.ok = true → s.moves = .start :: ms →
    (s.run = false → s.done = false → s.err = false →
      s.params.flashBase.toNat + s.hostCfg.totalBytes.toNat ≤ 2 ^ 32 →
        step s = .next { s with
          moves := ms, run := true, line := .ctl .openLink
          cfgPort := s.hostCfg.port, cfgBaud := s.hostCfg.baud.getD s.params.baudDefault
          cfgSkipProg := s.hostCfg.skipProg, cfgSendGo := s.hostCfg.sendGo, totalBytes := s.hostCfg.totalBytes }
        ∧ ∀ t u, step s = .next t → s.phase = [] → step { t with moves := [] } = .next u →
            (newEvents t u).head? = some (.opened t.cfgPort t.cfgBaud (nextAnswer s.openAns)))
    ∧ (s.run = true ∨ s.done = true ∨ s.err = true
        ∨ 2 ^ 32 < s.params.flashBase.toNat + s.hostCfg.totalBytes.toNat →
        step s = .next { s with moves := ms })

/-- R264: a configuration that runs past the top of the address space, or parameters outside R8, have no run. -/
def Obligations.ConfigurationPastTheTopIsRefused : Prop :=
  ∀ (s : State) (ms : List Move), s.idle = true → s.moves = .start :: ms →
    (s.params.ok = false → step s = .refused .badParameters)
    ∧ (s.params.ok = true →
        ∃ t, step s = .next t
          ∧ (t.run = true ↔ ¬ 2 ^ 32 < s.params.flashBase.toNat + s.hostCfg.totalBytes.toNat)
          ∧ (s.hostCfg.totalBytes = 0 → t.run = true))

/-- R31, R238: without a move of the outside, a FRAMER that is not running takes no step. -/
def Obligations.NoStepWhileNotRunning : Prop :=
  ∀ s : State, s.params.ok = true → s.run = false → s.moves = [] ∨ (∃ ms, s.moves = .pass :: ms) →
    step s = .next { s with moves := s.moves.tail }

/-- R33, R238: after a halt no move but `reset` changes a register or emits an event. -/
def Obligations.HaltIsFinalUntilReset : Prop :=
  ∀ (s t : State) (m : Move) (ms : List Move), s.run = false → s.done = true ∨ s.err = true →
    s.moves = m :: ms → m ≠ .reset → step s = .next t →
      t = { s with
        moves := ms, hostCfg := t.hostCfg, openAns := t.openAns, sendAns := t.sendAns, rx := t.rx, src := t.src }

/-- R236: `raise` records the error, closes the link if it is open, sets `ERR`, clears `RUN`, emits `Halt`, and keeps
everything else; and a step that sets `ERR` ends in it. The fields `phase`, `payload` and `remain` of the model (log entry
3) are emptied. -/
def Obligations.RaiseIsTheOnlyAbort : Prop :=
  (∀ (code : ErrCode) (f : FailStep) (s : State),
    raise code f s = { s with
      errCode := code, failStep := f, linkOpen := false, err := true, run := false
      phase := [], payload := [], remain := 0
      trace := s.trace ++ closing s.linkOpen ++ [.haltErr code f] })
  ∧ ∀ s t : State, step s = .next t → s.err = false → t.err = true →
      ∃ (code : ErrCode) (f : FailStep) (u : State), t = raise code f u ∧ code ≠ .none

/-- R216: the successful end. -/
def Obligations.FinishHaltsWithDone : Prop :=
  ∀ s : State, s.params.ok = true → s.run = true → s.moves = [] → s.phase = [] → s.line = .ctl .finish →
    step s = .next { s with
      linkOpen := false, done := true, run := false, trace := s.trace ++ [.close, .haltDone] }

/-- R40, R41, R267: reading a register changes nothing, gives its value where it holds one, and is a fault where it does
not. That CHUNK_BUF can be read within CHUNK_LEN, between blocks too, and is a fault past it, is the model's choice (DESIGN
CHOICE, log entry 22): R48 says only that what lies past CHUNK_LEN and between blocks is not observable. -/
def Obligations.ReadsFaultWithoutAValue : Prop :=
  ∀ s : State,
    (readReg s .blMajor = .error (.noValue .blMajor) ↔ s.verValid = false)
    ∧ (readReg s .blMinor = .error (.noValue .blMinor) ↔ s.verValid = false)
    ∧ (readReg s .chipId = .error (.noValue .chipId) ↔ s.idValid = false)
    ∧ (s.verValid = true → readReg s .blMajor = .ok (.number s.blMajor.toNat)
        ∧ readReg s .blMinor = .ok (.number s.blMinor.toNat))
    ∧ (s.idValid = true → readReg s .chipId = .ok (.number s.chipId.toNat))
    ∧ (∀ i (h : i < s.chunkBuf.length), i < s.chunkLen →
        readReg s (.chunkBuf i) = .ok (.number (s.chunkBuf[i]).toNat))
    ∧ (∀ i, s.chunkLen ≤ i → readReg s (.chunkBuf i) = .error (.noValue (.chunkBuf i)))

/-! ## Framing -/

/-- R120, R121: the laws and corners of the two checksums. -/
def Obligations.ChecksumUnitLaws : Prop :=
  (∀ b : Byte, cmpl (cmpl b) = b ∧ b ^^^ cmpl b = 0xFF ∧ b.toNat + (cmpl b).toNat = 255 ∧ cmpl b ≠ b)
  ∧ cmpl 0x00 = 0xFF ∧ cmpl 0xFF = 0x00 ∧ cmpl 0x7F = 0x80 ∧ cmpl 0x31 = 0xCE
  ∧ (∀ bs : List Byte, xorsum bs = bs.foldl (· ^^^ ·) 0x00)
  ∧ (∀ (s : State) (bs : List Byte), (s.sent (.argx bs)).cksum = bs.foldl (· ^^^ ·) 0x00)
  ∧ xorsum [] = 0 ∧ (∀ b, xorsum [b] = b)
  ∧ (∀ a b, xorsum (a ++ b) = xorsum a ^^^ xorsum b)
  ∧ (∀ a b : List Byte, a.Perm b → xorsum a = xorsum b)
  ∧ (∀ (b : Byte) (bs : List Byte), Even (bs.count b) → xorsum bs = xorsum (bs.filter (· != b)))
  ∧ xorsum [0xFF, 0xFF] = 0 ∧ xorsum ((List.range 256).map (BitVec.ofNat 8)) = 0
  ∧ xorsum [0x08, 0x00, 0x01, 0x00] = 0x09

/-- R128: every encoder passes its validator, the fields read back, every single-bit error is detected, and an even
number of flips of one bit position is not. -/
def Obligations.FramesPassTheirValidators : Prop :=
  (∀ op, checkCmpl (encodeSingleByteCommand op) = true)
  ∧ (∀ bs, bs ≠ [] → checkXor (encodePayload bs) = true)
  ∧ (∀ a, checkXor (encodeAddr a) = true
      ∧ ∃ b3 b2 b1 b0 x, encodeAddr a = [b3, b2, b1, b0, x] ∧ addrOfBytes b3 b2 b1 b0 = a)
  ∧ (∀ ds : List Byte, 1 ≤ ds.length → ds.length ≤ 256 →
      checkXor (encodeData ds) = true
      ∧ ∃ l x, encodeData ds = l :: ds ++ [x] ∧ l.toNat + 1 = ds.length)
  ∧ (∀ (f : List Byte) (i j : Nat), i < f.length → j < 8 →
      (checkCmpl f = true → checkCmpl (flipBit f i j) = false)
      ∧ (checkXor f = true → checkXor (flipBit f i j) = false))
  ∧ (∀ (f : List Byte) (j : Nat) (is : List Nat), j < 8 → is.Nodup → (∀ i ∈ is, i < f.length) → Even is.length →
      (checkXor f = true → checkXor (is.foldl (fun g i => flipBit g i j) f) = true)
      ∧ (checkCmpl f = true → checkCmpl (is.foldl (fun g i => flipBit g i j) f) = true))

/-- R126: with distinct acknowledgement bytes, one byte is ACK, one NACK and 254 are unexpected; and what each answer of
`Recv` means where an acknowledgement is awaited. -/
def Obligations.AckBytesClassify : Prop :=
  ∀ p : Params, p.ok = true →
    (∀ b, (decodeAck p b = .ack ↔ b = p.ackByte) ∧ (decodeAck p b = .nack ↔ b = p.nackByte)
      ∧ (decodeAck p b = .unexpected ↔ b ≠ p.ackByte ∧ b ≠ p.nackByte))
    ∧ ((List.range 256).filter fun n => decodeAck p (BitVec.ofNat 8 n) = .unexpected).length = 254
    ∧ ∀ s : State, s.params = p →
        expectAnswer (.byte p.ackByte) s = .done { s with call := .acked }
        ∧ expectAnswer (.byte p.nackByte) s = .fail .protoNack { s with call := .nacked }
        ∧ (∀ b, b ≠ p.ackByte → b ≠ p.nackByte →
            expectAnswer (.byte b) s = .fail .protoUnexpected { s with call := .unexpected })
        ∧ expectAnswer .timeout s = .fail .protoTimeout { s with call := .timedOut }
        ∧ expectAnswer .err s = .fail .transportError { s with call := .linkFailed }

/-- R90 to R101: every well-formed row of the opcode table is read back from its bytes, with every operand. -/
def Obligations.EncodedInstructionsDecode : Prop := ∀ i : Instr, Laws.RoundTrip.Statement i

/-- What the decoder reads in a format is well-formed, of that format, and the bytes it took are its encoding: no two
readings of the same bytes in one format, and no bit dropped. -/
def Obligations.DecodedBytesEncodeBack : Prop :=
  ∀ (p : Params) (f : Format) (bs rest : List Byte) (i : Instr), decode p f bs = .ok (i, rest) →
    formatOf i = f ∧ WellFormed p i = true ∧ encode p i ++ rest = bs

/-- R91, R103 and the opcode table: words written out from the spec's encodings decode to their rows. Two things are not
the spec's: the bytes are those of the default parameters, which R7 supplies from general knowledge but for `SYNC_BYTE`, so
this holds for the defaults alone; and which row a bare word is follows the model's order of the formats (DESIGN CHOICE,
log entry 13), since `0x00FF`, say, could be an F-ARGC frame too. -/
def Obligations.TableWordsDecode : Prop :=
  decodeTableWord 8 0x7F = some .sync ∧ decodeTableWord 16 0x00FF = some .getVersion
  ∧ decodeTableWord 16 0x02FD = some .getId ∧ decodeTableWord 16 0x43BC = some .erase
  ∧ decodeTableWord 16 0x31CE = some .writeMemory ∧ decodeTableWord 16 0xFF00 = some (.frameArgc 0xFF)
  ∧ decodeTableWord 40 0x0800010009 = some (.frameAddr 0x08000100)
  ∧ decodeTableWord 8 0x79 = some .responseAck ∧ decodeTableWord 32 0x79002279 = some (.responseVer [0x22])

/-! ## A step runs the selected instruction -/

/-- Between calls a step runs the command its line calls (R190), and at an argument frame that frame's row. -/
def Obligations.StepRunsTheSelectedInstruction : Prop :=
  ∀ s : State, s.params.ok = true → s.run = true → s.moves = [] →
    (∀ c, s.phase = [] → s.line = .call c → step s = exec c.instr s)
    ∧ (∀ f i rest, s.phase = .send f :: .ack :: rest → f.instr = some i → step s = exec i { s with phase := rest })

/-- A byte that has come in where an acknowledgement is awaited is decoded, and a step runs its row; a whole reply that
has come in where one is awaited is decoded as that reply (R99 to R101, R126). -/
def Obligations.StepRunsTheDecodedResponse : Prop :=
  ∀ (s : State) (q : List RxAnswer) (rest : List Item), s.params.ok = true → s.run = true → s.moves = [] →
    (∀ i, formatOf i = .rAck → WellFormed s.params i = true → s.phase = .ack :: rest →
      rest.head? ≠ some .count → rest.head? ≠ some .countOne →
      s.rx = (encode s.params i).map .byte ++ q → step s = exec i { s with phase := rest, rx := q })
    ∧ (∀ ps, verPayloadOk ps = true → s.phase = verReplyItems ++ rest →
      s.rx = (encode s.params (.responseVer ps)).map .byte ++ q →
      step s = exec (.responseVer ps) { s with phase := rest, rx := q })
    ∧ (∀ id, s.phase = idReplyItems ++ rest →
      s.rx = (encode s.params (.responseId id)).map .byte ++ q →
      step s = exec (.responseId id) { s with phase := rest, rx := q })

/-! ## The query commands -/

/-- R144, R192: SYNC, for every answer of the link. A refused Send fails before any receive, so whatever RX holds. That
`CALL` stays at `AwaitingAck` after a byte that is no ACK is the pseudocode of R144 read literally (log entry 16), and that
nothing of DEV is known after a failed call is the model's rendering (log entry 9). -/
def Obligations.SyncAttempt : Prop :=
  ∀ s : State,
    let h := s.line.handshake
    let sent : State := { s with
      line := .call (.sync h), phase := [], payload := [], remain := 0, call := .idle
      sendAns := s.sendAns.tail, trace := s.trace ++ [.tx [s.params.syncByte] (nextAnswer s.sendAns)] }
    (nextAnswer s.sendAns = .err →
      exec .sync s = .next (raise .transportError h.failStep { sent with call := .linkFailed, dev := [] }))
    ∧ ∀ (a : RxAnswer) (q : List RxAnswer), nextAnswer s.sendAns = .ok → s.rx = a :: q →
      let got : State := { sent with rx := q, trace := sent.trace ++ [.rx a] }
      exec .sync s = .next (match a with
        | .byte b =>
          if b = s.params.ackByte then { got with call := .acked, line := .ctl (.connected h) }
          else { got with call := .awaitingAck, line := .ctl (.retry h) }
        | .timeout => { got with call := .timedOut, line := .ctl (.retry h) }
        | .err => raise .transportError h.failStep { got with call := .linkFailed, dev := [] })

/-- R146: GET_VERSION against a whole reply: `BL_MAJOR` and `BL_MINOR` are the nibbles of the first payload byte, the
other payload bytes are discarded, and nothing else is written. -/
def Obligations.GetVersionReadsTheVersion : Prop :=
  ∀ (s : State) (n : Byte) (p0 : Byte) (ps : List Byte) (q : List RxAnswer), sendsOk 1 s → ps.length = n.toNat →
    s.rx = ackAns s.params :: .byte n :: .byte p0 :: ps.map .byte ++ ackAns s.params :: q →
    exec .getVersion s = .next { s with
      line := .ctl .versionCheck, phase := [], payload := [], remain := 0, call := .idle
      blMajor := (p0.extractLsb' 4 4).setWidth 8, blMinor := (p0.extractLsb' 0 4).setWidth 8, verValid := true
      sendAns := s.sendAns.tail, rx := q
      trace := s.trace ++ [Event.tx [s.params.opcGetVersion, ~~~s.params.opcGetVersion] .ok, gotAck s.params, .rx (.byte n), .rx (.byte p0)]
        ++ ps.map (fun b => Event.rx (.byte b)) ++ [gotAck s.params] }

/-- R150: GET_ID against a whole reply. -/
def Obligations.GetIdReadsTheChip : Prop :=
  ∀ (s : State) (hi lo : Byte) (q : List RxAnswer), sendsOk 1 s →
    s.rx = ackAns s.params :: .byte 1 :: .byte hi :: .byte lo :: ackAns s.params :: q →
    ∃ id : ChipId, id.toNat = hi.toNat * 256 + lo.toNat ∧
    exec .getId s = .next { s with
      line := .ctl .chipCheck, phase := [], payload := [], remain := 0, call := .idle
      chipId := id, idValid := true, sendAns := s.sendAns.tail, rx := q
      trace := s.trace ++ [.tx [s.params.opcGetId, ~~~s.params.opcGetId] .ok, gotAck s.params, .rx (.byte 1), .rx (.byte hi),
        .rx (.byte lo), gotAck s.params] }

/-- R150, R231: a count byte other than 1 in GET_ID's reply is `PROTO_MALFORMED`, and the rest of the reply stays in
RX. That `CALL` stays at `AwaitingAck` is log entry 16's reading, and that nothing of DEV is known then log entry 9's. -/
def Obligations.GetIdRefusesAnotherCount : Prop :=
  ∀ (s : State) (n : Byte) (q : List RxAnswer), sendsOk 1 s → n ≠ 1 →
    s.rx = ackAns s.params :: .byte n :: q →
    exec .getId s = .next (raise .protoMalformed .getId { s with
      line := .call .getId, phase := [], payload := [], remain := 0, call := .awaitingAck
      sendAns := s.sendAns.tail, rx := q, dev := []
      trace := s.trace ++ [sentOk s.params (.cmd s.params.opcGetId), gotAck s.params, .rx (.byte n)] })

/-- R143, R146: an answer that is no byte, at the count byte, in the payload, or one that is no ACK at the end, fails
GET_VERSION at its step, and the version registers keep what they had. -/
def Obligations.GetVersionFailsInItsReply : Prop :=
  ∀ (s : State) (n : Byte) (ps : List Byte) (a : RxAnswer) (q : List RxAnswer), sendsOk 1 s →
    (dataError a ≠ .none → s.rx = ackAns s.params :: a :: q →
      ∃ u, exec .getVersion s = .next (raise (dataError a) .getVersion u)
        ∧ u.verValid = s.verValid ∧ u.blMajor = s.blMajor ∧ u.blMinor = s.blMinor ∧ u.seq = s.seq ∧ u.rx = q)
    ∧ (dataError a ≠ .none → ps.length < n.toNat + 1 →
      s.rx = ackAns s.params :: .byte n :: ps.map .byte ++ a :: q →
      ∃ u, exec .getVersion s = .next (raise (dataError a) .getVersion u)
        ∧ u.verValid = s.verValid ∧ u.blMajor = s.blMajor ∧ u.blMinor = s.blMinor ∧ u.seq = s.seq ∧ u.rx = q)
    ∧ (ackError s.params a ≠ .none → ps.length = n.toNat + 1 →
      s.rx = ackAns s.params :: .byte n :: ps.map .byte ++ a :: q →
      ∃ u, exec .getVersion s = .next (raise (ackError s.params a) .getVersion u)
        ∧ u.verValid = s.verValid ∧ u.blMajor = s.blMajor ∧ u.blMinor = s.blMinor ∧ u.seq = s.seq ∧ u.rx = q)

/-! ## The commands that change the DEVICE -/

/-- R162: WRITE_UNPROTECT, acknowledged `WUP_ACKS` times. -/
def Obligations.WriteUnprotectCompletes : Prop :=
  ∀ (s : State) (q : List RxAnswer), s.params.ok = true → sendsOk 1 s →
    s.rx = List.replicate s.params.wupAcks (ackAns s.params) ++ q →
    exec .writeUnprotect s = .next { s with
      line := .ctl .resyncCheck, phase := [], payload := [], remain := 0, call := .idle
      sendAns := s.sendAns.tail, rx := q
      trace := s.trace ++ Event.tx [s.params.opcWriteUnprotect, ~~~s.params.opcWriteUnprotect] .ok
        :: List.replicate s.params.wupAcks (gotAck s.params) }

/-- R165: ERASE, acknowledged twice. That nothing of DEV is then known is the model's rendering (log
entry 9). -/
def Obligations.EraseCompletes : Prop :=
  ∀ (s : State) (q : List RxAnswer), sendsOk 2 s →
    s.rx = ackAns s.params :: ackAns s.params :: q →
    exec .erase s = .next { s with
      line := .ctl .erased, phase := [], payload := [], remain := 0, call := .idle, dev := []
      sendAns := s.sendAns.drop 2, rx := q
      trace := s.trace ++ [.tx [s.params.opcErase, ~~~s.params.opcErase] .ok, gotAck s.params,
        .tx [s.params.eraseArg, ~~~s.params.eraseArg] .ok, gotAck s.params] }

/-- R168: EXT_ERASE, acknowledged twice. That nothing of DEV is then known is the model's rendering (log
entry 9). -/
def Obligations.ExtEraseCompletes : Prop :=
  ∀ (s : State) (q : List RxAnswer), sendsOk 2 s →
    s.rx = ackAns s.params :: ackAns s.params :: q →
    exec .extErase s = .next { s with
      line := .ctl .erased, phase := [], payload := [], remain := 0, call := .idle, dev := []
      cksum := xorsum s.params.extEraseArg, sendAns := s.sendAns.drop 2, rx := q
      trace := s.trace ++ [.tx [s.params.opcExtErase, ~~~s.params.opcExtErase] .ok, gotAck s.params,
        .tx (s.params.extEraseArg ++ [xorsum s.params.extEraseArg]) .ok, gotAck s.params] }

/-- R172: WRITE_MEMORY of any block its data frame can carry, at any address, acknowledged three times: DEV is written
at the third ACK, byte `i` at `addr +_32 i`, and every byte of DEV outside the block is as before. The session's own call
takes `CUR_ADDR` and the buffer. -/
def Obligations.WriteMemoryCompletes : Prop :=
  ∀ (s : State) (a : Addr) (ds : List Byte) (q : List RxAnswer), sendsOk 3 s →
    1 ≤ ds.length → ds.length ≤ s.params.maxChunk → ds.length ≤ 256 →
    s.rx = ackAns s.params :: ackAns s.params :: ackAns s.params :: q →
    (∃ dev : Memory,
      callWriteMemory a ds s = .next { s with
        line := .ctl .advance, phase := [], payload := [], remain := 0, call := .idle, dev := dev
        cksum := xorsum (BitVec.ofNat 8 (ds.length - 1) :: ds), sendAns := s.sendAns.drop 3, rx := q
        trace := s.trace ++ [.tx [s.params.opcWriteMemory, ~~~s.params.opcWriteMemory] .ok, gotAck s.params,
          .tx (encodeAddr a) .ok, gotAck s.params, .tx (encodeData ds) .ok, gotAck s.params] }
      ∧ (∀ i (h : i < ds.length), Memory.read (a + BitVec.ofNat 32 i).toNat dev = some ds[i])
      ∧ (∀ x, (∀ i < ds.length, x ≠ (a + BitVec.ofNat 32 i).toNat) → Memory.read x dev = Memory.read x s.dev))
    ∧ (a = s.curAddr → ds = s.chunkBuf.take s.chunkLen → exec .writeMemory s = callWriteMemory a ds s)

/-- R172 and R96 bound the block, and say nothing of one outside the bounds, which no run has. That WRITE_MEMORY stops at
it with the fault badFrame, and sends nothing, is the model's choice (DEDUCED, log entry 14). -/
def Obligations.WriteMemoryStopsOnABadBlock : Prop :=
  ∀ s : State, (s.chunk = [] ∨ s.params.maxChunk < s.chunk.length ∨ 256 < s.chunk.length) →
    exec .writeMemory s = .fault .badFrame

/-- R176: GO to any address, acknowledged twice; the session's own call takes `GO_ADDR`. -/
def Obligations.GoCompletes : Prop :=
  ∀ (s : State) (a : Addr) (q : List RxAnswer), sendsOk 2 s →
    s.rx = ackAns s.params :: ackAns s.params :: q →
    callGo a s = .next { s with
      line := .ctl .executing, phase := [], payload := [], remain := 0, call := .idle
      cksum := xorsum (addrBytes a), sendAns := s.sendAns.drop 2, rx := q
      trace := s.trace ++ [.tx [s.params.opcGo, ~~~s.params.opcGo] .ok, gotAck s.params,
        .tx (encodeAddr a) .ok, gotAck s.params] }
    ∧ (a = s.params.goAddr → exec .go s = callGo a s)

/-- R142, R194: the first acknowledgement of every command but SYNC refused: the call raises at its own step, CALL holds
the outcome, nothing more is sent or read, and nothing else is written. That nothing of DEV is known after a failed call is
the model's rendering of U1 (log entry 9). -/
def Obligations.RefusedFirstAckRaises : Prop :=
  ∀ (s : State) (c : CallSite) (a : RxAnswer) (q : List RxAnswer), (∀ h, c ≠ .sync h) → sendsOk 1 s →
    s.params.ok = true → (c = .write → blockOk s.params s.chunk = true) →
    ackError s.params a ≠ .none → s.rx = a :: q →
    exec c.instr s = .next (raise (ackError s.params a) c.failStep { s with
      line := .call c, phase := [], payload := [], remain := 0, call := ackCall s.params a
      sendAns := s.sendAns.tail, rx := q, dev := []
      trace := s.trace ++ [.tx (encode s.params c.instr) .ok, .rx a] })

/-- R62, R143: a command whose frame the link refuses raises `TRANSPORT_ERROR` at its own step, and reads nothing more:
the first frame, the argument frame of ERASE, EXT_ERASE, WRITE_MEMORY and GO, and the data frame of WRITE_MEMORY. (SYNC is
the statement SyncAttempt's.) That nothing of DEV is known after a failed call is the model's rendering of U1 and U4 (log
entry 9). -/
def Obligations.RefusedSendRaises : Prop :=
  ∀ (s : State) (c : CallSite), (∀ h, c ≠ .sync h) → (c = .write → blockOk s.params s.chunk = true) →
    let failed : State := { s with
      line := .call c, phase := [], payload := [], remain := 0, call := .linkFailed, dev := [] }
    (nextAnswer s.sendAns = .err →
      exec c.instr s = .next (raise .transportError c.failStep { failed with
        sendAns := s.sendAns.tail, trace := s.trace ++ [.tx (encode s.params c.instr) .err] }))
    ∧ (∀ (f : Frame) (ans : List LinkAnswer) (q : List RxAnswer), argFrame c s = some f →
      s.sendAns = .ok :: .err :: ans → s.rx = ackAns s.params :: q →
      exec c.instr s = .next (raise .transportError c.failStep { failed with
        cksum := f.cksum s.cksum, sendAns := ans, rx := q
        trace := s.trace ++ [.tx (encode s.params c.instr) .ok, gotAck s.params, .tx (f.bytes s.params) .err] }))
    ∧ (∀ (ans : List LinkAnswer) (q : List RxAnswer), c = .write →
      s.sendAns = .ok :: .ok :: .err :: ans → s.rx = ackAns s.params :: ackAns s.params :: q →
      exec c.instr s = .next (raise .transportError c.failStep { failed with
        cksum := xorsum (dataPayload s.chunk), sendAns := ans, rx := q
        trace := s.trace ++ [.tx (encode s.params c.instr) .ok, gotAck s.params, .tx (encodeAddr s.curAddr) .ok,
          gotAck s.params, .tx (encodeData s.chunk) .err] }))

/-- R172, R209: a WRITE_MEMORY refused at its second or third acknowledgement raises at `PROGRAM` with `CUR_ADDR`,
`BYTES_WRITTEN` and `SEQ` as they were, and records no store. U1 leaves the DEVICE's memory after a failed command
unconstrained, and U2 and U4 only a part of it: that nothing of DEV is known then is the model's choice (log entry 9). -/
def Obligations.RefusedWriteLeavesTheBlock : Prop :=
  ∀ (s : State) (a : RxAnswer) (q : List RxAnswer), sendsOk 3 s → blockOk s.params s.chunk = true →
    ackError s.params a ≠ .none →
    (s.rx = ackAns s.params :: a :: q →
      ∃ u, exec .writeMemory s = .next (raise (ackError s.params a) .program u)
        ∧ u.dev = [] ∧ u.curAddr = s.curAddr ∧ u.bytesWritten = s.bytesWritten ∧ u.seq = s.seq ∧ u.rx = q
        ∧ newEvents s u = [sentOk s.params (.cmd s.params.opcWriteMemory), gotAck s.params,
            sentOk s.params (.addr s.curAddr), .rx a])
    ∧ (s.rx = ackAns s.params :: ackAns s.params :: a :: q →
      ∃ u, exec .writeMemory s = .next (raise (ackError s.params a) .program u)
        ∧ u.dev = [] ∧ u.curAddr = s.curAddr ∧ u.bytesWritten = s.bytesWritten ∧ u.seq = s.seq ∧ u.rx = q
        ∧ newEvents s u = [sentOk s.params (.cmd s.params.opcWriteMemory), gotAck s.params,
            sentOk s.params (.addr s.curAddr), gotAck s.params, sentOk s.params (.data s.chunk), .rx a])

/-! ## The argument frames and the responses -/

/-- R141: an argument frame accepted by the link and acknowledged completes its phase, and the call goes on with what is
left of it. `CKSUM` is run by payload frames only. -/
def Obligations.ArgumentFramesComplete : Prop :=
  ∀ (s : State) (f : Frame) (i : Instr) (q : List RxAnswer), f.instr = some i → WellFormed s.params i = true →
    sendsOk 1 s → s.rx = ackAns s.params :: q →
    exec i s = .next (settle (runItems s.phase { s with
      phase := [], call := .acked, cksum := f.cksum s.cksum, sendAns := s.sendAns.tail, rx := q
      trace := s.trace ++ [.tx (encode s.params i) .ok, gotAck s.params] }))

/-- The last phase of a call: where nothing but `CALL <- Idle` is left, an acknowledged argument frame returns the call,
and the session goes on after it. -/
def Obligations.LastArgumentFrameReturns : Prop :=
  ∀ (s : State) (c : CallSite) (f : Frame) (i : Instr) (q : List RxAnswer), f.instr = some i →
    WellFormed s.params i = true → s.line = .call c → s.phase = [.idle] →
    sendsOk 1 s → s.rx = ackAns s.params :: q →
    exec i s = .next { s with
      line := .ctl c.after, phase := [], payload := [], remain := 0, call := .idle
      cksum := f.cksum s.cksum, sendAns := s.sendAns.tail, rx := q
      trace := s.trace ++ [.tx (encode s.params i) .ok, gotAck s.params] }

/-- R142, R143, R194: an argument frame refused by its acknowledgement, or by the link, raises at the step of the line,
and the rest of the call is not run. That nothing of DEV is known after a failed call is the model's rendering of U1 (log
entry 9). -/
def Obligations.RefusedArgumentFramesRaise : Prop :=
  ∀ (s : State) (f : Frame) (i : Instr), f.instr = some i → WellFormed s.params i = true →
    (∀ (a : RxAnswer) (q : List RxAnswer), sendsOk 1 s → s.line.isSync = false → ackError s.params a ≠ .none →
      s.params.ok = true → s.rx = a :: q →
      exec i s = .next (raise (ackError s.params a) s.line.failStep { s with
        phase := [], call := ackCall s.params a, cksum := f.cksum s.cksum, sendAns := s.sendAns.tail, rx := q, dev := []
        trace := s.trace ++ [.tx (encode s.params i) .ok, .rx a] }))
    ∧ (nextAnswer s.sendAns = .err →
      exec i s = .next (raise .transportError s.line.failStep { s with
        phase := [], call := .linkFailed, cksum := f.cksum s.cksum, sendAns := s.sendAns.tail, dev := []
        trace := s.trace ++ [.tx (encode s.params i) .err] }))

/-- R91, R96 and R123 bound the operands, and say nothing of one outside the bounds, which no run has. That such an
argument frame stops with the fault badFrame is the model's choice (DEDUCED, log entry 14). -/
def Obligations.IllFormedFramesStop : Prop :=
  ∀ (s : State) (f : Frame) (i : Instr), f.instr = some i → WellFormed s.params i = false →
    exec i s = .fault .badFrame

/-- R105, R126, R142, R144: what each one-byte response does: an ACK lets the call go on; a NACK and an unexpected byte
are counted in a SYNC call and end any other with their error. That nothing of DEV is known after a failed call is the
model's rendering of U1 (log entry 9), and that `CALL` stays at `AwaitingAck` in SYNC log entry 16's reading. -/
def Obligations.AckResponsesDoWhatTheirClassSays : Prop :=
  ∀ s : State, s.params.ok = true →
    (exec .responseAck s = .next (settle (runItems s.phase { s with
      phase := [], call := .acked, trace := s.trace ++ [gotAck s.params] })))
    ∧ (s.line.isSync = false →
      exec .responseNack s = .next (raise .protoNack s.line.failStep { s with
        phase := [], call := .nacked, dev := [], trace := s.trace ++ [.rx (.byte s.params.nackByte)] }))
    ∧ (∀ b, s.line.isSync = false → b ≠ s.params.ackByte → b ≠ s.params.nackByte →
      exec (.responseUnexpected b) s = .next (raise .protoUnexpected s.line.failStep { s with
        phase := [], call := .unexpected, dev := [], trace := s.trace ++ [.rx (.byte b)] }))
    ∧ (∀ h, s.line = .call (.sync h) →
      exec .responseNack s = .next { s with
        line := .ctl (.retry h), phase := [], payload := [], remain := 0, call := .awaitingAck
        trace := s.trace ++ [.rx (.byte s.params.nackByte)] }
      ∧ ∀ b, b ≠ s.params.ackByte →
        exec (.responseUnexpected b) s = .next { s with
          line := .ctl (.retry h), phase := [], payload := [], remain := 0, call := .awaitingAck
          trace := s.trace ++ [.rx (.byte b)] })

/-- R100, R101: what a whole reply does: the version or the chip identifier is written and the call goes on. The last two
clauses are the model's choice (DEDUCED, log entry 14): a version payload of 0 or of more than 256 bytes, which no count
byte of R101 announces, stops with the fault badFrame. -/
def Obligations.RepliesWriteTheIdentity : Prop :=
  ∀ s : State, s.payload = [] →
    (∀ (p0 : Byte) (ps : List Byte), ps.length ≤ 255 →
      exec (.responseVer (p0 :: ps)) s = .next (settle (runItems s.phase { s with
        phase := [], payload := p0 :: ps, remain := 0, call := .acked
        blMajor := majorOf p0, blMinor := minorOf p0, verValid := true
        trace := s.trace ++ (encode s.params (.responseVer (p0 :: ps))).map fun b => Event.rx (.byte b) })))
    ∧ (∀ id : ChipId,
      exec (.responseId id) s = .next (settle (runItems s.phase { s with
        phase := [], payload := [idHi id, idLo id], remain := 0, call := .acked, chipId := id, idValid := true
        trace := s.trace ++ (encode s.params (.responseId id)).map fun b => Event.rx (.byte b) })))
    ∧ exec (.responseVer []) s = .fault .badFrame
    ∧ (∀ ps : List Byte, 256 < ps.length → exec (.responseVer ps) s = .fault .badFrame)

/-! ## The sequencer -/

/-- R192: CONNECT against any run of failed attempts: it connects exactly when there are fewer than
`MAX_SYNC_ATTEMPTS`; otherwise it raises `HANDSHAKE_TIMEOUT` after exactly that many frames, one wait fewer, and no
further frame. -/
def Obligations.ConnectIsBounded : Prop :=
  ∀ (s : State) (h : Handshake) (fails q : List RxAnswer), s.params.ok = true → s.run = true → s.moves = [] →
    s.line = .ctl (.connectStart h) → s.phase = [] → s.sendAns = [] → (∀ a ∈ fails, failsSync s.params a = true) →
    (fails.length < s.params.maxSyncAttempts → s.rx = fails ++ ackAns s.params :: q →
      ∃ t, runs (2 * fails.length + 3) s = .next t
        ∧ t.line = h.next ∧ t.seq = s.seq.max .connected ∧ t.syncFails = fails.length ∧ t.rx = q ∧ t.run = true
        ∧ t.trace = s.trace ++ fails.flatMap (failedAttempt s.params) ++ [sentOk s.params .sync, gotAck s.params])
    ∧ (fails.length = s.params.maxSyncAttempts → s.rx = fails ++ q →
      ∃ t, runs (2 * fails.length + 1) s = .next t
        ∧ t.err = true ∧ t.errCode = .handshakeTimeout ∧ t.failStep = h.failStep ∧ t.run = false
        ∧ t.syncFails = s.params.maxSyncAttempts ∧ t.seq = s.seq ∧ t.rx = q
        ∧ t.trace = s.trace ++ fails.dropLast.flatMap (failedAttempt s.params)
            ++ [sentOk s.params .sync, .rx (fails.getLastD .timeout)]
            ++ closing s.linkOpen ++ [.haltErr .handshakeTimeout h.failStep])

/-- R61, R191: S0. -/
def Obligations.OpenLineOpensOrRaises : Prop :=
  ∀ s : State, s.params.ok = true → s.run = true → s.moves = [] → s.phase = [] → s.line = .ctl .openLink →
    (nextAnswer s.openAns = .ok → step s = .next { s with
      linkOpen := true, line := .ctl (.connectStart .first), openAns := s.openAns.tail
      trace := s.trace ++ [.opened s.cfgPort s.cfgBaud .ok] })
    ∧ (nextAnswer s.openAns = .err → s.linkOpen = false → ∃ t, step s = .next t
      ∧ t.err = true ∧ t.errCode = .transportError ∧ t.failStep = .openLink ∧ t.run = false ∧ t.seq = s.seq
      ∧ newEvents s t = [.opened s.cfgPort s.cfgBaud .err, .haltErr .transportError .openLink])

/-- R196: the version check accepts exactly from `MIN_VERSION` on, and a rejected version stays readable. -/
def Obligations.VersionCheckAcceptsFromTheMinimum : Prop :=
  ∀ s : State, s.params.ok = true → s.run = true → s.moves = [] → s.phase = [] → s.line = .ctl .versionCheck →
    s.verValid = true →
    (s.params.minVersion ≤ s.blMajor.toNat * 256 + s.blMinor.toNat →
      step s = .next { s with seq := .versionKnown, line := .call .getId })
    ∧ (s.blMajor.toNat * 256 + s.blMinor.toNat < s.params.minVersion →
      step s = .next (raise .versionUnsupported .versionCheck s))

/-- R198: the chip check is membership, and a rejected identifier stays readable. -/
def Obligations.ChipCheckIsMembership : Prop :=
  ∀ s : State, s.params.ok = true → s.run = true → s.moves = [] → s.phase = [] → s.line = .ctl .chipCheck →
    s.idValid = true →
    (s.chipId ∈ s.params.supportedChipIds → step s = .next { s with seq := .identified, line := .ctl .skipCheck })
    ∧ (s.chipId ∉ s.params.supportedChipIds → step s = .next (raise .chipUnsupported .chipCheck s))

/-- R199, R200, R202, R206, R214: the branches of the session and the writes of `SEQ` between them. -/
def Obligations.BranchesOfTheSession : Prop :=
  ∀ s : State, s.params.ok = true → s.run = true → s.moves = [] → s.phase = [] →
    (s.line = .ctl .skipCheck →
      step s = .next { s with line := if s.cfgSkipProg then .ctl .goCheck else .call .writeUnprotect })
    ∧ (s.line = .ctl .resyncCheck →
      step s = .next { s with line := if s.params.wupResync then .ctl (.connectStart .again) else .ctl .unprotected })
    ∧ (s.line = .ctl .unprotected → step s = .next { s with seq := .unprotected, line := .ctl .eraseSelect })
    ∧ (s.line = .ctl .eraseSelect → s.verValid = true →
      step s = .next { s with
        line := if s.blMajor.toNat = s.params.extEraseMajor then .call .extErase else .call .erase })
    ∧ (s.line = .ctl .erased → step s = .next { s with seq := .erased, line := .ctl .programStart })
    ∧ (s.line = .ctl .programStart → s.totalBytes = 0 →
      step s = .next { s with
        bytesWritten := 0, curAddr := s.params.flashBase, seq := .programmed, line := .ctl .goCheck })
    ∧ (s.line = .ctl .programStart → s.totalBytes ≠ 0 →
      step s = .next { s with bytesWritten := 0, curAddr := s.params.flashBase, line := .ctl .read })
    ∧ (s.line = .ctl .goCheck →
      step s = .next { s with line := if s.cfgSendGo then .call .go else .ctl .finish })
    ∧ (s.line = .ctl .executing → step s = .next { s with seq := .executing, line := .ctl .finish })

/-- R66, R207, R208: a source read asks for `MAX_CHUNK` bytes; an empty answer ends the loop; a list too long, or past
the declared size by a sum that does not wrap, is refused before it is stored; any other is stored. -/
def Obligations.SourceReadStoresOrEnds : Prop :=
  ∀ (s : State) (bs : List Byte) (q : List (List Byte)), s.params.ok = true → s.run = true → s.moves = [] →
    s.phase = [] → s.line = .ctl .read → s.src = bs :: q →
    let got : State := { s with src := q, trace := s.trace ++ [.src s.params.maxChunk bs] }
    (bs = [] → step s = .next { got with chunkLen := 0, seq := .programmed, line := .ctl .goCheck })
    ∧ (s.params.maxChunk < bs.length ∨ s.totalBytes.toNat < s.bytesWritten.toNat + bs.length → bs ≠ [] →
        step s = .next (raise .srcContract .program got))
    ∧ (bs ≠ [] → bs.length ≤ s.params.maxChunk → s.bytesWritten.toNat + bs.length ≤ s.totalBytes.toNat →
        s.chunkBuf.length = s.params.maxChunk →
        ∃ t, step s = .next t ∧ t.chunk = bs ∧ t.chunkBuf.length = s.params.maxChunk
          ∧ t = { got with chunkBuf := t.chunkBuf, chunkLen := bs.length, line := .call .write })

/-- R210, R212: after an acknowledged block `CUR_ADDR` and `BYTES_WRITTEN` go on by its length, without wrapping for the
count, and the trace gains `Progress` and then the thresholds reached, in order. -/
def Obligations.AdvanceCountsAndReports : Prop :=
  ∀ s : State, s.params.ok = true → s.run = true → s.moves = [] → s.phase = [] → s.line = .ctl .advance →
    1 ≤ s.chunkLen → s.bytesWritten.toNat + s.chunkLen ≤ s.totalBytes.toNat →
    ∃ (t : State) (ks : List Nat), step s = .next t
      ∧ t = { s with
          curAddr := s.curAddr + BitVec.ofNat 32 s.chunkLen, bytesWritten := t.bytesWritten, nextPct := t.nextPct
          line := .ctl .read, trace := s.trace ++ .progress t.bytesWritten.toNat :: ks.map .pct }
      ∧ t.bytesWritten.toNat = s.bytesWritten.toNat + s.chunkLen
      ∧ (let pct := t.bytesWritten.toNat * 100 / t.totalBytes.toNat
        pct ≤ 100
        ∧ (∀ j (hj : j < ks.length), ks[j] = s.nextPct + j * s.params.pctStep)
        ∧ (∀ k ∈ ks, k ≤ 100 ∧ k ≤ pct)
        ∧ t.nextPct = s.nextPct + ks.length * s.params.pctStep
        ∧ (t.nextPct ≤ 100 → pct < t.nextPct))

/-! ## The whole machine -/

/-- R7, R11: no step changes a parameter (they stand in the state by log entry 1), and no step but a `reset` takes an event
back. -/
def Obligations.TraceOnlyGrows : Prop :=
  ∀ s t : State, step s = .next t →
    t.params = s.params ∧ ((∀ ms, s.moves ≠ .reset :: ms) → s.trace <+: t.trace)

/-- DEV keeps its canonical form under every step. -/
def Obligations.DeviceMemoryStaysCanonical : Prop :=
  ∀ s t : State, Memory.wf s.dev = true → step s = .next t → Memory.wf t.dev = true

/-- R31 to R34: the flags are kept consistent by every step. -/
def Obligations.FlagsStayConsistent : Prop :=
  ∀ s t : State, FlagsInv s → step s = .next t → FlagsInv t

/-- R50, R260, R49: the state after reset has the session invariant, for every parameter set that R8 admits, and so for
the defaults. -/
def Obligations.ResetHasTheSessionInvariant : Prop :=
  (∀ p : Params, p.ok = true → SessionInv (State.resetWith p)) ∧ SessionInv State.reset

/-- R49, R218: every step keeps the session invariant. -/
def Obligations.SessionInvariantIsKept : Prop :=
  ∀ s t : State, SessionInv s → step s = .next t → SessionInv t

/-- A session never meets a fault, and is without a step only where `reset` is given while it runs. -/
def Obligations.SessionsNeverFault : Prop :=
  ∀ s : State, SessionInv s →
    (∃ t, step s = .next t) ∨ (s.run = true ∧ (∃ ms, s.moves = .reset :: ms) ∧ step s = .refused .resetWhileRunning)

/-- R219 a: `SEQ` never decreases but by a `reset`. -/
def Obligations.SeqNeverDecreases : Prop :=
  ∀ s t : State, SessionInv s → (∀ ms, s.moves ≠ .reset :: ms) → step s = .next t → s.seq.code ≤ t.seq.code

/-- R32: nothing is sent or received while the link is not open. -/
def Obligations.TrafficOnlyWhileOpen : Prop :=
  ∀ s t : State, SessionInv s → (∀ ms, s.moves ≠ .reset :: ms) → step s = .next t →
    (∃ bs a, Event.tx bs a ∈ newEvents s t) ∨ (∃ a, Event.rx a ∈ newEvents s t) → s.linkOpen = true

/-- R49: no command before the handshake; no command that changes the DEVICE unless the identity is known and supported;
no WRITE_MEMORY but while `SEQ = Erased`. -/
def Obligations.CommandsAreGated : Prop :=
  ∀ s t : State, SessionInv s → (∀ ms, s.moves ≠ .reset :: ms) → step s = .next t →
    (∀ bs a, Event.tx bs a ∈ newEvents s t → bs ≠ [s.params.syncByte] → Seq.connected.code ≤ s.seq.code)
    ∧ (∀ bs a, Event.tx bs a ∈ newEvents s t → bs ≠ [s.params.syncByte] →
        bs ≠ encodeSingleByteCommand s.params.opcGetVersion → bs ≠ encodeSingleByteCommand s.params.opcGetId →
        Seq.identified.code ≤ s.seq.code ∧ s.verValid = true ∧ s.idValid = true
          ∧ s.chipId ∈ s.params.supportedChipIds)
    ∧ (∀ i u, s.run = true → s.fetch = some (i, u) →
        i ∈ [Instr.writeUnprotect, .erase, .extErase, .writeMemory, .go] →
        Seq.identified.code ≤ s.seq.code ∧ s.verValid = true ∧ s.idValid = true
          ∧ s.chipId ∈ s.params.supportedChipIds ∧ (i = .writeMemory → s.seq = .erased))

/-- R194, R236, R237: an abort keeps the session's registers and records no store, and its last events are `Close`, if the
link was open, and `Halt`. -/
def Obligations.AbortKeepsTheSession : Prop :=
  ∀ s t : State, SessionInv s → step s = .next t → s.err = false → t.err = true →
    t.seq = s.seq ∧ t.blMajor = s.blMajor ∧ t.blMinor = s.blMinor ∧ t.verValid = s.verValid
    ∧ t.chipId = s.chipId ∧ t.idValid = s.idValid ∧ t.bytesWritten = s.bytesWritten ∧ t.curAddr = s.curAddr
    ∧ t.nextPct = s.nextPct ∧ t.chunkBuf = s.chunkBuf ∧ t.chunkLen = s.chunkLen
    ∧ (∀ x, Memory.read x t.dev = none ∨ Memory.read x t.dev = Memory.read x s.dev)
    ∧ t.run = false ∧ t.linkOpen = false
    ∧ ∃ pre, newEvents s t = pre ++ closing s.linkOpen ++ [.haltErr t.errCode t.failStep]
        ∧ .close ∉ pre ∧ .haltDone ∉ pre ∧ ∀ c f, Event.haltErr c f ∉ pre

/-- R46, R68, R212: the thresholds a step reports rise strictly from `NEXT_PCT` before the step and stay below `NEXT_PCT`
after it, so none is ever reported twice; each is a multiple of `PCT_STEP` and at most 100. -/
def Obligations.ThresholdsFireOnce : Prop :=
  ∀ s t : State, SessionInv s → (∀ ms, s.moves ≠ .reset :: ms) → step s = .next t →
    s.nextPct ≤ t.nextPct
    ∧ ((newEvents s t).filterMap pctOf).Pairwise (· < ·)
    ∧ ∀ k, Event.pct k ∈ newEvents s t → s.nextPct ≤ k ∧ k < t.nextPct ∧ k ≤ 100 ∧ s.params.pctStep ∣ k

/-- R219 e, R287: every step of a running session whose primitive has its answer leaves less to do: every run halts. -/
def Obligations.EveryAnsweredStepMakesProgress : Prop :=
  ∀ s t : State, SessionInv s → s.run = true → s.moves = [] → answered s → step s = .next t →
    workLeft t < workLeft s

/-- R205, R207, R210, R219 d: the program loop against an obedient DEVICE and a source that keeps its duty, for every
chunking of every image that fits: it ends with `SEQ = Programmed`, `BYTES_WRITTEN = TOTAL_BYTES`, and image byte `k` at
`FLASH_BASE + k` of DEV. -/
def Obligations.ProgramLoopWritesTheImage : Prop :=
  ∀ (s : State) (blocks : List (List Byte)) (q : List RxAnswer) (q' : List (List Byte)),
    s.params.ok = true → s.run = true → s.moves = [] → s.phase = [] → s.line = .ctl .programStart →
    s.sendAns = [] → s.totalBytes ≠ 0 → s.chunkBuf.length = s.params.maxChunk →
    (∀ b ∈ blocks, b ≠ [] ∧ b.length ≤ s.params.maxChunk) → blocks.flatten.length = s.totalBytes.toNat →
    s.params.flashBase.toNat + s.totalBytes.toNat ≤ 2 ^ 32 →
    s.src = blocks ++ [] :: q' → s.rx = List.replicate (3 * blocks.length) (ackAns s.params) ++ q →
    ∃ t, runs (3 * blocks.length + 2) s = .next t
      ∧ t.line = .ctl .goCheck ∧ t.seq = .programmed ∧ t.bytesWritten = s.totalBytes ∧ t.run = true
      ∧ t.rx = q ∧ t.src = q'
      ∧ (∀ k (h : k < blocks.flatten.length),
          Memory.read (s.params.flashBase.toNat + k) t.dev = some (blocks.flatten[k]))

/-! ## Failures inside a call, and the configuration -/

/-- R143, R150: an answer that is no byte, at the count byte or in the payload, or one that is no ACK at the end, fails
GET_ID at its step, and the identity registers keep what they had. -/
def Obligations.GetIdFailsInItsReply : Prop :=
  ∀ (s : State) (a : RxAnswer) (q : List RxAnswer), sendsOk 1 s →
    let failsWith (e : ErrCode) : Prop :=
      ∃ u, exec .getId s = .next (raise e .getId u)
        ∧ u.idValid = s.idValid ∧ u.chipId = s.chipId ∧ u.seq = s.seq ∧ u.rx = q
    (dataError a ≠ .none → s.rx = ackAns s.params :: a :: q → failsWith (dataError a))
    ∧ (∀ ps : List Byte, dataError a ≠ .none → ps.length < 2 →
      s.rx = ackAns s.params :: .byte 1 :: ps.map .byte ++ a :: q → failsWith (dataError a))
    ∧ (∀ hi lo : Byte, ackError s.params a ≠ .none →
      s.rx = ackAns s.params :: .byte 1 :: .byte hi :: .byte lo :: a :: q → failsWith (ackError s.params a))

/-- R24, R25, R267: every step but a `reset` and an accepted `start` keeps the five configuration registers; the host's
inputs are changed by its own move alone, and that move changes nothing else, whenever it is made. -/
def Obligations.ConfigurationRegistersAreKept : Prop :=
  (∀ s t : State, step s = .next t → (∀ ms, s.moves ≠ .reset :: ms) →
    (s.idle = true → s.configAdmitted = true → ∀ ms, s.moves ≠ .start :: ms) →
    t.cfgPort = s.cfgPort ∧ t.cfgBaud = s.cfgBaud ∧ t.cfgSkipProg = s.cfgSkipProg ∧ t.cfgSendGo = s.cfgSendGo
      ∧ t.totalBytes = s.totalBytes)
  ∧ (∀ s t : State, step s = .next t → (∀ c ms, s.moves ≠ .config c :: ms) → t.hostCfg = s.hostCfg)
  ∧ (∀ (s : State) (c : HostCfg) (ms : List Move), s.params.ok = true → s.moves = .config c :: ms →
    step s = .next { s with moves := ms, hostCfg := c })

/-- R142, R162, R194: a later acknowledgement refused: WRITE_UNPROTECT's at any of its `WUP_ACKS`, and the second of ERASE,
EXT_ERASE, WRITE_MEMORY and GO. The call raises at its own step, and nothing more is sent or read. That nothing of DEV is
known after a failed call is the model's rendering of U1 (log entry 9). -/
def Obligations.RefusedLaterAckRaises : Prop :=
  ∀ (s : State) (a : RxAnswer) (q : List RxAnswer), s.params.ok = true → ackError s.params a ≠ .none →
    (∀ k, sendsOk 1 s → k < s.params.wupAcks → s.rx = List.replicate k (ackAns s.params) ++ a :: q →
      exec .writeUnprotect s = .next (raise (ackError s.params a) .writeUnprotect { s with
        line := .call .writeUnprotect, phase := [], payload := [], remain := 0, call := ackCall s.params a
        sendAns := s.sendAns.tail, rx := q, dev := []
        trace := s.trace ++ Event.tx (encode s.params .writeUnprotect) .ok
          :: List.replicate k (gotAck s.params) ++ [.rx a] }))
    ∧ (∀ (c : CallSite) (f : Frame), argFrame c s = some f → (c = .write → blockOk s.params s.chunk = true) →
      sendsOk 2 s → s.rx = ackAns s.params :: a :: q →
      exec c.instr s = .next (raise (ackError s.params a) c.failStep { s with
        line := .call c, phase := [], payload := [], remain := 0, call := ackCall s.params a
        cksum := f.cksum s.cksum, sendAns := s.sendAns.drop 2, rx := q, dev := []
        trace := s.trace ++ [.tx (encode s.params c.instr) .ok, gotAck s.params, .tx (f.bytes s.params) .ok, .rx a] }))
end

