-- ==== Sys2Proof/Laws/Memory.lean ====
section
/-! SUPPORT. DEV as a canonical list: a write is read back and leaves every other byte alone, and every memory
operation keeps the canonical form. -/

namespace Sys2Proof.Machine

theorem Memory.read_write_same (a : Nat) (b : Byte) (m : Memory) : (Memory.write a b m).read a = some b := by
  induction m with
  | nil => simp [Memory.write, Memory.read]
  | cons c m ih =>
    simp only [Memory.write]
    split
    · simp [Memory.read]
    · split
      · simp [Memory.read]
      · simp [Memory.read, *]

theorem Memory.read_write_other {a a' : Nat} (h : a' ≠ a) (b : Byte) (m : Memory) :
    (Memory.write a b m).read a' = m.read a' := by
  induction m with
  | nil => simp [Memory.write, Memory.read, h]
  | cons c m ih =>
    simp only [Memory.write]
    split
    · simp [Memory.read, h]
    · split
      · next _ he => simp [Memory.read, h, ← he]
      · simp [Memory.read, ih]

theorem Memory.wfAbove_mono {lo lo' : Nat} (h : lo' ≤ lo) {m : Memory} (hm : Memory.wfAbove lo m = true) :
    Memory.wfAbove lo' m = true := by
  cases m with
  | nil => rfl
  | cons c m =>
    simp only [Memory.wfAbove, Bool.and_eq_true, decide_eq_true_eq] at hm ⊢
    exact ⟨⟨h.trans hm.1.1, hm.1.2⟩, hm.2⟩

theorem Memory.wfAbove_write {a : Nat} (b : Byte) (ha : a < 2 ^ 32) {m : Memory} {lo : Nat} (hlo : lo ≤ a)
    (hm : Memory.wfAbove lo m = true) : Memory.wfAbove lo (Memory.write a b m) = true := by
  induction m generalizing lo with
  | nil => simpa [Memory.write, Memory.wfAbove, hlo] using ha
  | cons c m ih =>
    simp only [Memory.wfAbove, Bool.and_eq_true, decide_eq_true_eq] at hm
    obtain ⟨⟨h1, h2⟩, h3⟩ := hm
    simp only [Memory.write]
    split
    · simp only [Memory.wfAbove, Bool.and_eq_true, decide_eq_true_eq]
      exact ⟨⟨hlo, ha⟩, ⟨by omega, h2⟩, h3⟩
    · split
      · next _ he =>
        simp only [Memory.wfAbove, Bool.and_eq_true, decide_eq_true_eq]
        exact ⟨⟨hlo, ha⟩, he ▸ h3⟩
      · simp only [Memory.wfAbove, Bool.and_eq_true, decide_eq_true_eq]
        exact ⟨⟨h1, h2⟩, ih (by omega) h3⟩

theorem Memory.wf_write {a : Nat} (b : Byte) (ha : a < 2 ^ 32) {m : Memory} (hm : m.wf = true) :
    (Memory.write a b m).wf = true :=
  Memory.wfAbove_write b ha (Nat.zero_le a) hm

theorem Memory.wf_writeBlock (a : Addr) (ds : List Byte) {m : Memory} (hm : m.wf = true) :
    (Memory.writeBlock a ds m).wf = true := by
  induction ds generalizing a m with
  | nil => exact hm
  | cons d ds ih => exact ih (a + 1) (Memory.wf_write d a.isLt hm)

theorem Memory.wfAbove_filter (q : Host.Cell → Bool) {m : Memory} {lo : Nat} (hm : Memory.wfAbove lo m = true) :
    Memory.wfAbove lo (m.filter q) = true := by
  induction m generalizing lo with
  | nil => rfl
  | cons c m ih =>
    simp only [Memory.wfAbove, Bool.and_eq_true, decide_eq_true_eq] at hm
    obtain ⟨⟨h1, h2⟩, h3⟩ := hm
    rw [List.filter_cons]
    split
    · simp only [Memory.wfAbove, Bool.and_eq_true, decide_eq_true_eq]
      exact ⟨⟨h1, h2⟩, ih h3⟩
    · exact Memory.wfAbove_mono (by omega) (ih h3)

theorem Memory.wf_forget (a : Addr) (n : Nat) {m : Memory} (hm : m.wf = true) : (Memory.forget a n m).wf = true := by
  induction n generalizing a m with
  | zero => exact hm
  | succ n ih => exact ih (a + 1) (Memory.wfAbove_filter _ hm)

/-- Forgetting one byte: it is no longer known, and every other one is as before. -/
theorem Memory.read_filter (a x : Nat) (m : Memory) :
    Memory.read x (m.filter fun c => decide (c.1 ≠ a)) = if x = a then none else Memory.read x m := by
  induction m with
  | nil => simp [Memory.read]
  | cons c m ih =>
    rw [List.filter_cons]
    by_cases hc : c.1 = a
    · rw [if_neg (by simpa using hc), ih]
      split
      · rfl
      · next hx => simp [Memory.read, hc, hx]
    · rw [if_pos (by simpa using hc), Memory.read, ih, Memory.read]
      split
      · next hx => rw [if_neg (by rw [hx]; exact hc)]
      · rfl

theorem Memory.read_forget_other (a : Addr) (n : Nat) (m : Memory) {x : Nat}
    (h : ∀ i < n, x ≠ (a + BitVec.ofNat 32 i).toNat) : Memory.read x (Memory.forget a n m) = Memory.read x m := by
  induction n generalizing a m with
  | zero => rfl
  | succ n ih =>
    rw [Memory.forget, ih, Memory.read_filter, if_neg]
    · simpa using h 0 (by omega)
    · intro i hi
      have := h (i + 1) (by omega)
      rwa [BitVec.add_assoc, show (1 : Addr) + BitVec.ofNat 32 i = BitVec.ofNat 32 (i + 1) by
        rw [BitVec.add_comm]; simp [BitVec.ofNat_add]]

/-- What is forgotten stays so. -/
theorem Memory.read_forget (a : Addr) (n : Nat) (m : Memory) (x : Nat) :
    Memory.read x (Memory.forget a n m) = none ∨ Memory.read x (Memory.forget a n m) = Memory.read x m := by
  induction n generalizing a m with
  | zero => exact .inr rfl
  | succ n ih =>
    rcases ih (a + 1) (m.filter fun c => decide (c.1 ≠ a.toNat)) with h | h
    · exact .inl h
    · rw [Memory.read_filter] at h
      split at h
      · exact .inl h
      · exact .inr h

theorem Memory.read_forget_block (a : Addr) (n : Nat) (m : Memory) {i : Nat} (h : i < n) :
    Memory.read (a + BitVec.ofNat 32 i).toNat (Memory.forget a n m) = none := by
  induction n generalizing a m i with
  | zero => omega
  | succ n ih =>
    rw [Memory.forget]
    cases i with
    | zero =>
      rcases Memory.read_forget (a + 1) n (m.filter fun c => decide (c.1 ≠ a.toNat)) (a + BitVec.ofNat 32 0).toNat with h | h
      · exact h
      · rw [h, Memory.read_filter, if_pos (by simp)]
    | succ i =>
      have := ih (a + 1) (m.filter fun c => decide (c.1 ≠ a.toNat)) (i := i) (by omega)
      rwa [BitVec.add_assoc, show (1 : Addr) + BitVec.ofNat 32 i = BitVec.ofNat 32 (i + 1) by
        rw [BitVec.add_comm]; simp [BitVec.ofNat_add]] at this

theorem Memory.wf_reset (p : Params) : (State.resetWith p).dev.wf = true := rfl

end Sys2Proof.Machine
end

