-- ==== Sys2Proof/Laws/State.lean ====
section
/-! SUPPORT. What each named update of the state does to each field: one lemma per field per update, all by rfl. -/

namespace Sys2Proof.Machine

/-- A state after a whole payload `bs` has been taken from the head of RX by `RecvData`. -/
def State.tookPayload (s : State) (bs : List Byte) : State :=
  { s with
    call := .awaitingAck, remain := 0, payload := s.payload ++ bs, rx := s.rx.drop bs.length
    trace := s.trace ++ bs.map fun b => .rx (.byte b) }

/-! ### State.emit -/

@[simp] theorem State.emit_cfgPort (s : State) (e : Event) : (s.emit e).cfgPort = s.cfgPort := rfl
@[simp] theorem State.emit_cfgBaud (s : State) (e : Event) : (s.emit e).cfgBaud = s.cfgBaud := rfl
@[simp] theorem State.emit_cfgSkipProg (s : State) (e : Event) : (s.emit e).cfgSkipProg = s.cfgSkipProg := rfl
@[simp] theorem State.emit_cfgSendGo (s : State) (e : Event) : (s.emit e).cfgSendGo = s.cfgSendGo := rfl
@[simp] theorem State.emit_totalBytes (s : State) (e : Event) : (s.emit e).totalBytes = s.totalBytes := rfl
@[simp] theorem State.emit_seq (s : State) (e : Event) : (s.emit e).seq = s.seq := rfl
@[simp] theorem State.emit_run (s : State) (e : Event) : (s.emit e).run = s.run := rfl
@[simp] theorem State.emit_linkOpen (s : State) (e : Event) : (s.emit e).linkOpen = s.linkOpen := rfl
@[simp] theorem State.emit_done (s : State) (e : Event) : (s.emit e).done = s.done := rfl
@[simp] theorem State.emit_err (s : State) (e : Event) : (s.emit e).err = s.err := rfl
@[simp] theorem State.emit_errCode (s : State) (e : Event) : (s.emit e).errCode = s.errCode := rfl
@[simp] theorem State.emit_failStep (s : State) (e : Event) : (s.emit e).failStep = s.failStep := rfl
@[simp] theorem State.emit_call (s : State) (e : Event) : (s.emit e).call = s.call := rfl
@[simp] theorem State.emit_blMajor (s : State) (e : Event) : (s.emit e).blMajor = s.blMajor := rfl
@[simp] theorem State.emit_blMinor (s : State) (e : Event) : (s.emit e).blMinor = s.blMinor := rfl
@[simp] theorem State.emit_verValid (s : State) (e : Event) : (s.emit e).verValid = s.verValid := rfl
@[simp] theorem State.emit_chipId (s : State) (e : Event) : (s.emit e).chipId = s.chipId := rfl
@[simp] theorem State.emit_idValid (s : State) (e : Event) : (s.emit e).idValid = s.idValid := rfl
@[simp] theorem State.emit_bytesWritten (s : State) (e : Event) : (s.emit e).bytesWritten = s.bytesWritten := rfl
@[simp] theorem State.emit_curAddr (s : State) (e : Event) : (s.emit e).curAddr = s.curAddr := rfl
@[simp] theorem State.emit_syncFails (s : State) (e : Event) : (s.emit e).syncFails = s.syncFails := rfl
@[simp] theorem State.emit_nextPct (s : State) (e : Event) : (s.emit e).nextPct = s.nextPct := rfl
@[simp] theorem State.emit_cksum (s : State) (e : Event) : (s.emit e).cksum = s.cksum := rfl
@[simp] theorem State.emit_chunkBuf (s : State) (e : Event) : (s.emit e).chunkBuf = s.chunkBuf := rfl
@[simp] theorem State.emit_chunkLen (s : State) (e : Event) : (s.emit e).chunkLen = s.chunkLen := rfl
@[simp] theorem State.emit_params (s : State) (e : Event) : (s.emit e).params = s.params := rfl
@[simp] theorem State.emit_line (s : State) (e : Event) : (s.emit e).line = s.line := rfl
@[simp] theorem State.emit_phase (s : State) (e : Event) : (s.emit e).phase = s.phase := rfl
@[simp] theorem State.emit_payload (s : State) (e : Event) : (s.emit e).payload = s.payload := rfl
@[simp] theorem State.emit_remain (s : State) (e : Event) : (s.emit e).remain = s.remain := rfl
@[simp] theorem State.emit_hostCfg (s : State) (e : Event) : (s.emit e).hostCfg = s.hostCfg := rfl
@[simp] theorem State.emit_moves (s : State) (e : Event) : (s.emit e).moves = s.moves := rfl
@[simp] theorem State.emit_openAns (s : State) (e : Event) : (s.emit e).openAns = s.openAns := rfl
@[simp] theorem State.emit_sendAns (s : State) (e : Event) : (s.emit e).sendAns = s.sendAns := rfl
@[simp] theorem State.emit_rx (s : State) (e : Event) : (s.emit e).rx = s.rx := rfl
@[simp] theorem State.emit_src (s : State) (e : Event) : (s.emit e).src = s.src := rfl
@[simp] theorem State.emit_dev (s : State) (e : Event) : (s.emit e).dev = s.dev := rfl
@[simp] theorem State.emit_trace (s : State) (e : Event) : (s.emit e).trace = s.trace ++ [e] := rfl

/-! ### State.setCall -/

@[simp] theorem State.setCall_cfgPort (s : State) (c : Call) : (s.setCall c).cfgPort = s.cfgPort := rfl
@[simp] theorem State.setCall_cfgBaud (s : State) (c : Call) : (s.setCall c).cfgBaud = s.cfgBaud := rfl
@[simp] theorem State.setCall_cfgSkipProg (s : State) (c : Call) : (s.setCall c).cfgSkipProg = s.cfgSkipProg := rfl
@[simp] theorem State.setCall_cfgSendGo (s : State) (c : Call) : (s.setCall c).cfgSendGo = s.cfgSendGo := rfl
@[simp] theorem State.setCall_totalBytes (s : State) (c : Call) : (s.setCall c).totalBytes = s.totalBytes := rfl
@[simp] theorem State.setCall_seq (s : State) (c : Call) : (s.setCall c).seq = s.seq := rfl
@[simp] theorem State.setCall_run (s : State) (c : Call) : (s.setCall c).run = s.run := rfl
@[simp] theorem State.setCall_linkOpen (s : State) (c : Call) : (s.setCall c).linkOpen = s.linkOpen := rfl
@[simp] theorem State.setCall_done (s : State) (c : Call) : (s.setCall c).done = s.done := rfl
@[simp] theorem State.setCall_err (s : State) (c : Call) : (s.setCall c).err = s.err := rfl
@[simp] theorem State.setCall_errCode (s : State) (c : Call) : (s.setCall c).errCode = s.errCode := rfl
@[simp] theorem State.setCall_failStep (s : State) (c : Call) : (s.setCall c).failStep = s.failStep := rfl
@[simp] theorem State.setCall_call (s : State) (c : Call) : (s.setCall c).call = c := rfl
@[simp] theorem State.setCall_blMajor (s : State) (c : Call) : (s.setCall c).blMajor = s.blMajor := rfl
@[simp] theorem State.setCall_blMinor (s : State) (c : Call) : (s.setCall c).blMinor = s.blMinor := rfl
@[simp] theorem State.setCall_verValid (s : State) (c : Call) : (s.setCall c).verValid = s.verValid := rfl
@[simp] theorem State.setCall_chipId (s : State) (c : Call) : (s.setCall c).chipId = s.chipId := rfl
@[simp] theorem State.setCall_idValid (s : State) (c : Call) : (s.setCall c).idValid = s.idValid := rfl
@[simp] theorem State.setCall_bytesWritten (s : State) (c : Call) : (s.setCall c).bytesWritten = s.bytesWritten := rfl
@[simp] theorem State.setCall_curAddr (s : State) (c : Call) : (s.setCall c).curAddr = s.curAddr := rfl
@[simp] theorem State.setCall_syncFails (s : State) (c : Call) : (s.setCall c).syncFails = s.syncFails := rfl
@[simp] theorem State.setCall_nextPct (s : State) (c : Call) : (s.setCall c).nextPct = s.nextPct := rfl
@[simp] theorem State.setCall_cksum (s : State) (c : Call) : (s.setCall c).cksum = s.cksum := rfl
@[simp] theorem State.setCall_chunkBuf (s : State) (c : Call) : (s.setCall c).chunkBuf = s.chunkBuf := rfl
@[simp] theorem State.setCall_chunkLen (s : State) (c : Call) : (s.setCall c).chunkLen = s.chunkLen := rfl
@[simp] theorem State.setCall_params (s : State) (c : Call) : (s.setCall c).params = s.params := rfl
@[simp] theorem State.setCall_line (s : State) (c : Call) : (s.setCall c).line = s.line := rfl
@[simp] theorem State.setCall_phase (s : State) (c : Call) : (s.setCall c).phase = s.phase := rfl
@[simp] theorem State.setCall_payload (s : State) (c : Call) : (s.setCall c).payload = s.payload := rfl
@[simp] theorem State.setCall_remain (s : State) (c : Call) : (s.setCall c).remain = s.remain := rfl
@[simp] theorem State.setCall_hostCfg (s : State) (c : Call) : (s.setCall c).hostCfg = s.hostCfg := rfl
@[simp] theorem State.setCall_moves (s : State) (c : Call) : (s.setCall c).moves = s.moves := rfl
@[simp] theorem State.setCall_openAns (s : State) (c : Call) : (s.setCall c).openAns = s.openAns := rfl
@[simp] theorem State.setCall_sendAns (s : State) (c : Call) : (s.setCall c).sendAns = s.sendAns := rfl
@[simp] theorem State.setCall_rx (s : State) (c : Call) : (s.setCall c).rx = s.rx := rfl
@[simp] theorem State.setCall_src (s : State) (c : Call) : (s.setCall c).src = s.src := rfl
@[simp] theorem State.setCall_dev (s : State) (c : Call) : (s.setCall c).dev = s.dev := rfl
@[simp] theorem State.setCall_trace (s : State) (c : Call) : (s.setCall c).trace = s.trace := rfl

/-! ### State.goto -/

@[simp] theorem State.goto_cfgPort (s : State) (l : Line) : (s.goto l).cfgPort = s.cfgPort := rfl
@[simp] theorem State.goto_cfgBaud (s : State) (l : Line) : (s.goto l).cfgBaud = s.cfgBaud := rfl
@[simp] theorem State.goto_cfgSkipProg (s : State) (l : Line) : (s.goto l).cfgSkipProg = s.cfgSkipProg := rfl
@[simp] theorem State.goto_cfgSendGo (s : State) (l : Line) : (s.goto l).cfgSendGo = s.cfgSendGo := rfl
@[simp] theorem State.goto_totalBytes (s : State) (l : Line) : (s.goto l).totalBytes = s.totalBytes := rfl
@[simp] theorem State.goto_seq (s : State) (l : Line) : (s.goto l).seq = s.seq := rfl
@[simp] theorem State.goto_run (s : State) (l : Line) : (s.goto l).run = s.run := rfl
@[simp] theorem State.goto_linkOpen (s : State) (l : Line) : (s.goto l).linkOpen = s.linkOpen := rfl
@[simp] theorem State.goto_done (s : State) (l : Line) : (s.goto l).done = s.done := rfl
@[simp] theorem State.goto_err (s : State) (l : Line) : (s.goto l).err = s.err := rfl
@[simp] theorem State.goto_errCode (s : State) (l : Line) : (s.goto l).errCode = s.errCode := rfl
@[simp] theorem State.goto_failStep (s : State) (l : Line) : (s.goto l).failStep = s.failStep := rfl
@[simp] theorem State.goto_call (s : State) (l : Line) : (s.goto l).call = s.call := rfl
@[simp] theorem State.goto_blMajor (s : State) (l : Line) : (s.goto l).blMajor = s.blMajor := rfl
@[simp] theorem State.goto_blMinor (s : State) (l : Line) : (s.goto l).blMinor = s.blMinor := rfl
@[simp] theorem State.goto_verValid (s : State) (l : Line) : (s.goto l).verValid = s.verValid := rfl
@[simp] theorem State.goto_chipId (s : State) (l : Line) : (s.goto l).chipId = s.chipId := rfl
@[simp] theorem State.goto_idValid (s : State) (l : Line) : (s.goto l).idValid = s.idValid := rfl
@[simp] theorem State.goto_bytesWritten (s : State) (l : Line) : (s.goto l).bytesWritten = s.bytesWritten := rfl
@[simp] theorem State.goto_curAddr (s : State) (l : Line) : (s.goto l).curAddr = s.curAddr := rfl
@[simp] theorem State.goto_syncFails (s : State) (l : Line) : (s.goto l).syncFails = s.syncFails := rfl
@[simp] theorem State.goto_nextPct (s : State) (l : Line) : (s.goto l).nextPct = s.nextPct := rfl
@[simp] theorem State.goto_cksum (s : State) (l : Line) : (s.goto l).cksum = s.cksum := rfl
@[simp] theorem State.goto_chunkBuf (s : State) (l : Line) : (s.goto l).chunkBuf = s.chunkBuf := rfl
@[simp] theorem State.goto_chunkLen (s : State) (l : Line) : (s.goto l).chunkLen = s.chunkLen := rfl
@[simp] theorem State.goto_params (s : State) (l : Line) : (s.goto l).params = s.params := rfl
@[simp] theorem State.goto_line (s : State) (l : Line) : (s.goto l).line = l := rfl
@[simp] theorem State.goto_phase (s : State) (l : Line) : (s.goto l).phase = s.phase := rfl
@[simp] theorem State.goto_payload (s : State) (l : Line) : (s.goto l).payload = s.payload := rfl
@[simp] theorem State.goto_remain (s : State) (l : Line) : (s.goto l).remain = s.remain := rfl
@[simp] theorem State.goto_hostCfg (s : State) (l : Line) : (s.goto l).hostCfg = s.hostCfg := rfl
@[simp] theorem State.goto_moves (s : State) (l : Line) : (s.goto l).moves = s.moves := rfl
@[simp] theorem State.goto_openAns (s : State) (l : Line) : (s.goto l).openAns = s.openAns := rfl
@[simp] theorem State.goto_sendAns (s : State) (l : Line) : (s.goto l).sendAns = s.sendAns := rfl
@[simp] theorem State.goto_rx (s : State) (l : Line) : (s.goto l).rx = s.rx := rfl
@[simp] theorem State.goto_src (s : State) (l : Line) : (s.goto l).src = s.src := rfl
@[simp] theorem State.goto_dev (s : State) (l : Line) : (s.goto l).dev = s.dev := rfl
@[simp] theorem State.goto_trace (s : State) (l : Line) : (s.goto l).trace = s.trace := rfl

/-! ### State.setSeq -/

@[simp] theorem State.setSeq_cfgPort (s : State) (q : Seq) : (s.setSeq q).cfgPort = s.cfgPort := rfl
@[simp] theorem State.setSeq_cfgBaud (s : State) (q : Seq) : (s.setSeq q).cfgBaud = s.cfgBaud := rfl
@[simp] theorem State.setSeq_cfgSkipProg (s : State) (q : Seq) : (s.setSeq q).cfgSkipProg = s.cfgSkipProg := rfl
@[simp] theorem State.setSeq_cfgSendGo (s : State) (q : Seq) : (s.setSeq q).cfgSendGo = s.cfgSendGo := rfl
@[simp] theorem State.setSeq_totalBytes (s : State) (q : Seq) : (s.setSeq q).totalBytes = s.totalBytes := rfl
@[simp] theorem State.setSeq_seq (s : State) (q : Seq) : (s.setSeq q).seq = q := rfl
@[simp] theorem State.setSeq_run (s : State) (q : Seq) : (s.setSeq q).run = s.run := rfl
@[simp] theorem State.setSeq_linkOpen (s : State) (q : Seq) : (s.setSeq q).linkOpen = s.linkOpen := rfl
@[simp] theorem State.setSeq_done (s : State) (q : Seq) : (s.setSeq q).done = s.done := rfl
@[simp] theorem State.setSeq_err (s : State) (q : Seq) : (s.setSeq q).err = s.err := rfl
@[simp] theorem State.setSeq_errCode (s : State) (q : Seq) : (s.setSeq q).errCode = s.errCode := rfl
@[simp] theorem State.setSeq_failStep (s : State) (q : Seq) : (s.setSeq q).failStep = s.failStep := rfl
@[simp] theorem State.setSeq_call (s : State) (q : Seq) : (s.setSeq q).call = s.call := rfl
@[simp] theorem State.setSeq_blMajor (s : State) (q : Seq) : (s.setSeq q).blMajor = s.blMajor := rfl
@[simp] theorem State.setSeq_blMinor (s : State) (q : Seq) : (s.setSeq q).blMinor = s.blMinor := rfl
@[simp] theorem State.setSeq_verValid (s : State) (q : Seq) : (s.setSeq q).verValid = s.verValid := rfl
@[simp] theorem State.setSeq_chipId (s : State) (q : Seq) : (s.setSeq q).chipId = s.chipId := rfl
@[simp] theorem State.setSeq_idValid (s : State) (q : Seq) : (s.setSeq q).idValid = s.idValid := rfl
@[simp] theorem State.setSeq_bytesWritten (s : State) (q : Seq) : (s.setSeq q).bytesWritten = s.bytesWritten := rfl
@[simp] theorem State.setSeq_curAddr (s : State) (q : Seq) : (s.setSeq q).curAddr = s.curAddr := rfl
@[simp] theorem State.setSeq_syncFails (s : State) (q : Seq) : (s.setSeq q).syncFails = s.syncFails := rfl
@[simp] theorem State.setSeq_nextPct (s : State) (q : Seq) : (s.setSeq q).nextPct = s.nextPct := rfl
@[simp] theorem State.setSeq_cksum (s : State) (q : Seq) : (s.setSeq q).cksum = s.cksum := rfl
@[simp] theorem State.setSeq_chunkBuf (s : State) (q : Seq) : (s.setSeq q).chunkBuf = s.chunkBuf := rfl
@[simp] theorem State.setSeq_chunkLen (s : State) (q : Seq) : (s.setSeq q).chunkLen = s.chunkLen := rfl
@[simp] theorem State.setSeq_params (s : State) (q : Seq) : (s.setSeq q).params = s.params := rfl
@[simp] theorem State.setSeq_line (s : State) (q : Seq) : (s.setSeq q).line = s.line := rfl
@[simp] theorem State.setSeq_phase (s : State) (q : Seq) : (s.setSeq q).phase = s.phase := rfl
@[simp] theorem State.setSeq_payload (s : State) (q : Seq) : (s.setSeq q).payload = s.payload := rfl
@[simp] theorem State.setSeq_remain (s : State) (q : Seq) : (s.setSeq q).remain = s.remain := rfl
@[simp] theorem State.setSeq_hostCfg (s : State) (q : Seq) : (s.setSeq q).hostCfg = s.hostCfg := rfl
@[simp] theorem State.setSeq_moves (s : State) (q : Seq) : (s.setSeq q).moves = s.moves := rfl
@[simp] theorem State.setSeq_openAns (s : State) (q : Seq) : (s.setSeq q).openAns = s.openAns := rfl
@[simp] theorem State.setSeq_sendAns (s : State) (q : Seq) : (s.setSeq q).sendAns = s.sendAns := rfl
@[simp] theorem State.setSeq_rx (s : State) (q : Seq) : (s.setSeq q).rx = s.rx := rfl
@[simp] theorem State.setSeq_src (s : State) (q : Seq) : (s.setSeq q).src = s.src := rfl
@[simp] theorem State.setSeq_dev (s : State) (q : Seq) : (s.setSeq q).dev = s.dev := rfl
@[simp] theorem State.setSeq_trace (s : State) (q : Seq) : (s.setSeq q).trace = s.trace := rfl

/-! ### State.withPhase -/

@[simp] theorem State.withPhase_cfgPort (s : State) (its : List Item) : (s.withPhase its).cfgPort = s.cfgPort := rfl
@[simp] theorem State.withPhase_cfgBaud (s : State) (its : List Item) : (s.withPhase its).cfgBaud = s.cfgBaud := rfl
@[simp] theorem State.withPhase_cfgSkipProg (s : State) (its : List Item) : (s.withPhase its).cfgSkipProg = s.cfgSkipProg := rfl
@[simp] theorem State.withPhase_cfgSendGo (s : State) (its : List Item) : (s.withPhase its).cfgSendGo = s.cfgSendGo := rfl
@[simp] theorem State.withPhase_totalBytes (s : State) (its : List Item) : (s.withPhase its).totalBytes = s.totalBytes := rfl
@[simp] theorem State.withPhase_seq (s : State) (its : List Item) : (s.withPhase its).seq = s.seq := rfl
@[simp] theorem State.withPhase_run (s : State) (its : List Item) : (s.withPhase its).run = s.run := rfl
@[simp] theorem State.withPhase_linkOpen (s : State) (its : List Item) : (s.withPhase its).linkOpen = s.linkOpen := rfl
@[simp] theorem State.withPhase_done (s : State) (its : List Item) : (s.withPhase its).done = s.done := rfl
@[simp] theorem State.withPhase_err (s : State) (its : List Item) : (s.withPhase its).err = s.err := rfl
@[simp] theorem State.withPhase_errCode (s : State) (its : List Item) : (s.withPhase its).errCode = s.errCode := rfl
@[simp] theorem State.withPhase_failStep (s : State) (its : List Item) : (s.withPhase its).failStep = s.failStep := rfl
@[simp] theorem State.withPhase_call (s : State) (its : List Item) : (s.withPhase its).call = s.call := rfl
@[simp] theorem State.withPhase_blMajor (s : State) (its : List Item) : (s.withPhase its).blMajor = s.blMajor := rfl
@[simp] theorem State.withPhase_blMinor (s : State) (its : List Item) : (s.withPhase its).blMinor = s.blMinor := rfl
@[simp] theorem State.withPhase_verValid (s : State) (its : List Item) : (s.withPhase its).verValid = s.verValid := rfl
@[simp] theorem State.withPhase_chipId (s : State) (its : List Item) : (s.withPhase its).chipId = s.chipId := rfl
@[simp] theorem State.withPhase_idValid (s : State) (its : List Item) : (s.withPhase its).idValid = s.idValid := rfl
@[simp] theorem State.withPhase_bytesWritten (s : State) (its : List Item) : (s.withPhase its).bytesWritten = s.bytesWritten := rfl
@[simp] theorem State.withPhase_curAddr (s : State) (its : List Item) : (s.withPhase its).curAddr = s.curAddr := rfl
@[simp] theorem State.withPhase_syncFails (s : State) (its : List Item) : (s.withPhase its).syncFails = s.syncFails := rfl
@[simp] theorem State.withPhase_nextPct (s : State) (its : List Item) : (s.withPhase its).nextPct = s.nextPct := rfl
@[simp] theorem State.withPhase_cksum (s : State) (its : List Item) : (s.withPhase its).cksum = s.cksum := rfl
@[simp] theorem State.withPhase_chunkBuf (s : State) (its : List Item) : (s.withPhase its).chunkBuf = s.chunkBuf := rfl
@[simp] theorem State.withPhase_chunkLen (s : State) (its : List Item) : (s.withPhase its).chunkLen = s.chunkLen := rfl
@[simp] theorem State.withPhase_params (s : State) (its : List Item) : (s.withPhase its).params = s.params := rfl
@[simp] theorem State.withPhase_line (s : State) (its : List Item) : (s.withPhase its).line = s.line := rfl
@[simp] theorem State.withPhase_phase (s : State) (its : List Item) : (s.withPhase its).phase = its := rfl
@[simp] theorem State.withPhase_payload (s : State) (its : List Item) : (s.withPhase its).payload = s.payload := rfl
@[simp] theorem State.withPhase_remain (s : State) (its : List Item) : (s.withPhase its).remain = s.remain := rfl
@[simp] theorem State.withPhase_hostCfg (s : State) (its : List Item) : (s.withPhase its).hostCfg = s.hostCfg := rfl
@[simp] theorem State.withPhase_moves (s : State) (its : List Item) : (s.withPhase its).moves = s.moves := rfl
@[simp] theorem State.withPhase_openAns (s : State) (its : List Item) : (s.withPhase its).openAns = s.openAns := rfl
@[simp] theorem State.withPhase_sendAns (s : State) (its : List Item) : (s.withPhase its).sendAns = s.sendAns := rfl
@[simp] theorem State.withPhase_rx (s : State) (its : List Item) : (s.withPhase its).rx = s.rx := rfl
@[simp] theorem State.withPhase_src (s : State) (its : List Item) : (s.withPhase its).src = s.src := rfl
@[simp] theorem State.withPhase_dev (s : State) (its : List Item) : (s.withPhase its).dev = s.dev := rfl
@[simp] theorem State.withPhase_trace (s : State) (its : List Item) : (s.withPhase its).trace = s.trace := rfl

/-! ### State.withRemain -/

@[simp] theorem State.withRemain_cfgPort (s : State) (n : Nat) : (s.withRemain n).cfgPort = s.cfgPort := rfl
@[simp] theorem State.withRemain_cfgBaud (s : State) (n : Nat) : (s.withRemain n).cfgBaud = s.cfgBaud := rfl
@[simp] theorem State.withRemain_cfgSkipProg (s : State) (n : Nat) : (s.withRemain n).cfgSkipProg = s.cfgSkipProg := rfl
@[simp] theorem State.withRemain_cfgSendGo (s : State) (n : Nat) : (s.withRemain n).cfgSendGo = s.cfgSendGo := rfl
@[simp] theorem State.withRemain_totalBytes (s : State) (n : Nat) : (s.withRemain n).totalBytes = s.totalBytes := rfl
@[simp] theorem State.withRemain_seq (s : State) (n : Nat) : (s.withRemain n).seq = s.seq := rfl
@[simp] theorem State.withRemain_run (s : State) (n : Nat) : (s.withRemain n).run = s.run := rfl
@[simp] theorem State.withRemain_linkOpen (s : State) (n : Nat) : (s.withRemain n).linkOpen = s.linkOpen := rfl
@[simp] theorem State.withRemain_done (s : State) (n : Nat) : (s.withRemain n).done = s.done := rfl
@[simp] theorem State.withRemain_err (s : State) (n : Nat) : (s.withRemain n).err = s.err := rfl
@[simp] theorem State.withRemain_errCode (s : State) (n : Nat) : (s.withRemain n).errCode = s.errCode := rfl
@[simp] theorem State.withRemain_failStep (s : State) (n : Nat) : (s.withRemain n).failStep = s.failStep := rfl
@[simp] theorem State.withRemain_call (s : State) (n : Nat) : (s.withRemain n).call = s.call := rfl
@[simp] theorem State.withRemain_blMajor (s : State) (n : Nat) : (s.withRemain n).blMajor = s.blMajor := rfl
@[simp] theorem State.withRemain_blMinor (s : State) (n : Nat) : (s.withRemain n).blMinor = s.blMinor := rfl
@[simp] theorem State.withRemain_verValid (s : State) (n : Nat) : (s.withRemain n).verValid = s.verValid := rfl
@[simp] theorem State.withRemain_chipId (s : State) (n : Nat) : (s.withRemain n).chipId = s.chipId := rfl
@[simp] theorem State.withRemain_idValid (s : State) (n : Nat) : (s.withRemain n).idValid = s.idValid := rfl
@[simp] theorem State.withRemain_bytesWritten (s : State) (n : Nat) : (s.withRemain n).bytesWritten = s.bytesWritten := rfl
@[simp] theorem State.withRemain_curAddr (s : State) (n : Nat) : (s.withRemain n).curAddr = s.curAddr := rfl
@[simp] theorem State.withRemain_syncFails (s : State) (n : Nat) : (s.withRemain n).syncFails = s.syncFails := rfl
@[simp] theorem State.withRemain_nextPct (s : State) (n : Nat) : (s.withRemain n).nextPct = s.nextPct := rfl
@[simp] theorem State.withRemain_cksum (s : State) (n : Nat) : (s.withRemain n).cksum = s.cksum := rfl
@[simp] theorem State.withRemain_chunkBuf (s : State) (n : Nat) : (s.withRemain n).chunkBuf = s.chunkBuf := rfl
@[simp] theorem State.withRemain_chunkLen (s : State) (n : Nat) : (s.withRemain n).chunkLen = s.chunkLen := rfl
@[simp] theorem State.withRemain_params (s : State) (n : Nat) : (s.withRemain n).params = s.params := rfl
@[simp] theorem State.withRemain_line (s : State) (n : Nat) : (s.withRemain n).line = s.line := rfl
@[simp] theorem State.withRemain_phase (s : State) (n : Nat) : (s.withRemain n).phase = s.phase := rfl
@[simp] theorem State.withRemain_payload (s : State) (n : Nat) : (s.withRemain n).payload = s.payload := rfl
@[simp] theorem State.withRemain_remain (s : State) (n : Nat) : (s.withRemain n).remain = n := rfl
@[simp] theorem State.withRemain_hostCfg (s : State) (n : Nat) : (s.withRemain n).hostCfg = s.hostCfg := rfl
@[simp] theorem State.withRemain_moves (s : State) (n : Nat) : (s.withRemain n).moves = s.moves := rfl
@[simp] theorem State.withRemain_openAns (s : State) (n : Nat) : (s.withRemain n).openAns = s.openAns := rfl
@[simp] theorem State.withRemain_sendAns (s : State) (n : Nat) : (s.withRemain n).sendAns = s.sendAns := rfl
@[simp] theorem State.withRemain_rx (s : State) (n : Nat) : (s.withRemain n).rx = s.rx := rfl
@[simp] theorem State.withRemain_src (s : State) (n : Nat) : (s.withRemain n).src = s.src := rfl
@[simp] theorem State.withRemain_dev (s : State) (n : Nat) : (s.withRemain n).dev = s.dev := rfl
@[simp] theorem State.withRemain_trace (s : State) (n : Nat) : (s.withRemain n).trace = s.trace := rfl

/-! ### State.pushPayload -/

@[simp] theorem State.pushPayload_cfgPort (s : State) (b : Byte) : (s.pushPayload b).cfgPort = s.cfgPort := rfl
@[simp] theorem State.pushPayload_cfgBaud (s : State) (b : Byte) : (s.pushPayload b).cfgBaud = s.cfgBaud := rfl
@[simp] theorem State.pushPayload_cfgSkipProg (s : State) (b : Byte) : (s.pushPayload b).cfgSkipProg = s.cfgSkipProg := rfl
@[simp] theorem State.pushPayload_cfgSendGo (s : State) (b : Byte) : (s.pushPayload b).cfgSendGo = s.cfgSendGo := rfl
@[simp] theorem State.pushPayload_totalBytes (s : State) (b : Byte) : (s.pushPayload b).totalBytes = s.totalBytes := rfl
@[simp] theorem State.pushPayload_seq (s : State) (b : Byte) : (s.pushPayload b).seq = s.seq := rfl
@[simp] theorem State.pushPayload_run (s : State) (b : Byte) : (s.pushPayload b).run = s.run := rfl
@[simp] theorem State.pushPayload_linkOpen (s : State) (b : Byte) : (s.pushPayload b).linkOpen = s.linkOpen := rfl
@[simp] theorem State.pushPayload_done (s : State) (b : Byte) : (s.pushPayload b).done = s.done := rfl
@[simp] theorem State.pushPayload_err (s : State) (b : Byte) : (s.pushPayload b).err = s.err := rfl
@[simp] theorem State.pushPayload_errCode (s : State) (b : Byte) : (s.pushPayload b).errCode = s.errCode := rfl
@[simp] theorem State.pushPayload_failStep (s : State) (b : Byte) : (s.pushPayload b).failStep = s.failStep := rfl
@[simp] theorem State.pushPayload_call (s : State) (b : Byte) : (s.pushPayload b).call = s.call := rfl
@[simp] theorem State.pushPayload_blMajor (s : State) (b : Byte) : (s.pushPayload b).blMajor = s.blMajor := rfl
@[simp] theorem State.pushPayload_blMinor (s : State) (b : Byte) : (s.pushPayload b).blMinor = s.blMinor := rfl
@[simp] theorem State.pushPayload_verValid (s : State) (b : Byte) : (s.pushPayload b).verValid = s.verValid := rfl
@[simp] theorem State.pushPayload_chipId (s : State) (b : Byte) : (s.pushPayload b).chipId = s.chipId := rfl
@[simp] theorem State.pushPayload_idValid (s : State) (b : Byte) : (s.pushPayload b).idValid = s.idValid := rfl
@[simp] theorem State.pushPayload_bytesWritten (s : State) (b : Byte) : (s.pushPayload b).bytesWritten = s.bytesWritten := rfl
@[simp] theorem State.pushPayload_curAddr (s : State) (b : Byte) : (s.pushPayload b).curAddr = s.curAddr := rfl
@[simp] theorem State.pushPayload_syncFails (s : State) (b : Byte) : (s.pushPayload b).syncFails = s.syncFails := rfl
@[simp] theorem State.pushPayload_nextPct (s : State) (b : Byte) : (s.pushPayload b).nextPct = s.nextPct := rfl
@[simp] theorem State.pushPayload_cksum (s : State) (b : Byte) : (s.pushPayload b).cksum = s.cksum := rfl
@[simp] theorem State.pushPayload_chunkBuf (s : State) (b : Byte) : (s.pushPayload b).chunkBuf = s.chunkBuf := rfl
@[simp] theorem State.pushPayload_chunkLen (s : State) (b : Byte) : (s.pushPayload b).chunkLen = s.chunkLen := rfl
@[simp] theorem State.pushPayload_params (s : State) (b : Byte) : (s.pushPayload b).params = s.params := rfl
@[simp] theorem State.pushPayload_line (s : State) (b : Byte) : (s.pushPayload b).line = s.line := rfl
@[simp] theorem State.pushPayload_phase (s : State) (b : Byte) : (s.pushPayload b).phase = s.phase := rfl
@[simp] theorem State.pushPayload_payload (s : State) (b : Byte) : (s.pushPayload b).payload = s.payload ++ [b] := rfl
@[simp] theorem State.pushPayload_remain (s : State) (b : Byte) : (s.pushPayload b).remain = s.remain := rfl
@[simp] theorem State.pushPayload_hostCfg (s : State) (b : Byte) : (s.pushPayload b).hostCfg = s.hostCfg := rfl
@[simp] theorem State.pushPayload_moves (s : State) (b : Byte) : (s.pushPayload b).moves = s.moves := rfl
@[simp] theorem State.pushPayload_openAns (s : State) (b : Byte) : (s.pushPayload b).openAns = s.openAns := rfl
@[simp] theorem State.pushPayload_sendAns (s : State) (b : Byte) : (s.pushPayload b).sendAns = s.sendAns := rfl
@[simp] theorem State.pushPayload_rx (s : State) (b : Byte) : (s.pushPayload b).rx = s.rx := rfl
@[simp] theorem State.pushPayload_src (s : State) (b : Byte) : (s.pushPayload b).src = s.src := rfl
@[simp] theorem State.pushPayload_dev (s : State) (b : Byte) : (s.pushPayload b).dev = s.dev := rfl
@[simp] theorem State.pushPayload_trace (s : State) (b : Byte) : (s.pushPayload b).trace = s.trace := rfl

/-! ### State.withVersion -/

@[simp] theorem State.withVersion_cfgPort (s : State) (p0 : Byte) : (s.withVersion p0).cfgPort = s.cfgPort := rfl
@[simp] theorem State.withVersion_cfgBaud (s : State) (p0 : Byte) : (s.withVersion p0).cfgBaud = s.cfgBaud := rfl
@[simp] theorem State.withVersion_cfgSkipProg (s : State) (p0 : Byte) : (s.withVersion p0).cfgSkipProg = s.cfgSkipProg := rfl
@[simp] theorem State.withVersion_cfgSendGo (s : State) (p0 : Byte) : (s.withVersion p0).cfgSendGo = s.cfgSendGo := rfl
@[simp] theorem State.withVersion_totalBytes (s : State) (p0 : Byte) : (s.withVersion p0).totalBytes = s.totalBytes := rfl
@[simp] theorem State.withVersion_seq (s : State) (p0 : Byte) : (s.withVersion p0).seq = s.seq := rfl
@[simp] theorem State.withVersion_run (s : State) (p0 : Byte) : (s.withVersion p0).run = s.run := rfl
@[simp] theorem State.withVersion_linkOpen (s : State) (p0 : Byte) : (s.withVersion p0).linkOpen = s.linkOpen := rfl
@[simp] theorem State.withVersion_done (s : State) (p0 : Byte) : (s.withVersion p0).done = s.done := rfl
@[simp] theorem State.withVersion_err (s : State) (p0 : Byte) : (s.withVersion p0).err = s.err := rfl
@[simp] theorem State.withVersion_errCode (s : State) (p0 : Byte) : (s.withVersion p0).errCode = s.errCode := rfl
@[simp] theorem State.withVersion_failStep (s : State) (p0 : Byte) : (s.withVersion p0).failStep = s.failStep := rfl
@[simp] theorem State.withVersion_call (s : State) (p0 : Byte) : (s.withVersion p0).call = s.call := rfl
@[simp] theorem State.withVersion_blMajor (s : State) (p0 : Byte) : (s.withVersion p0).blMajor = majorOf p0 := rfl
@[simp] theorem State.withVersion_blMinor (s : State) (p0 : Byte) : (s.withVersion p0).blMinor = minorOf p0 := rfl
@[simp] theorem State.withVersion_verValid (s : State) (p0 : Byte) : (s.withVersion p0).verValid = true := rfl
@[simp] theorem State.withVersion_chipId (s : State) (p0 : Byte) : (s.withVersion p0).chipId = s.chipId := rfl
@[simp] theorem State.withVersion_idValid (s : State) (p0 : Byte) : (s.withVersion p0).idValid = s.idValid := rfl
@[simp] theorem State.withVersion_bytesWritten (s : State) (p0 : Byte) : (s.withVersion p0).bytesWritten = s.bytesWritten := rfl
@[simp] theorem State.withVersion_curAddr (s : State) (p0 : Byte) : (s.withVersion p0).curAddr = s.curAddr := rfl
@[simp] theorem State.withVersion_syncFails (s : State) (p0 : Byte) : (s.withVersion p0).syncFails = s.syncFails := rfl
@[simp] theorem State.withVersion_nextPct (s : State) (p0 : Byte) : (s.withVersion p0).nextPct = s.nextPct := rfl
@[simp] theorem State.withVersion_cksum (s : State) (p0 : Byte) : (s.withVersion p0).cksum = s.cksum := rfl
@[simp] theorem State.withVersion_chunkBuf (s : State) (p0 : Byte) : (s.withVersion p0).chunkBuf = s.chunkBuf := rfl
@[simp] theorem State.withVersion_chunkLen (s : State) (p0 : Byte) : (s.withVersion p0).chunkLen = s.chunkLen := rfl
@[simp] theorem State.withVersion_params (s : State) (p0 : Byte) : (s.withVersion p0).params = s.params := rfl
@[simp] theorem State.withVersion_line (s : State) (p0 : Byte) : (s.withVersion p0).line = s.line := rfl
@[simp] theorem State.withVersion_phase (s : State) (p0 : Byte) : (s.withVersion p0).phase = s.phase := rfl
@[simp] theorem State.withVersion_payload (s : State) (p0 : Byte) : (s.withVersion p0).payload = s.payload := rfl
@[simp] theorem State.withVersion_remain (s : State) (p0 : Byte) : (s.withVersion p0).remain = s.remain := rfl
@[simp] theorem State.withVersion_hostCfg (s : State) (p0 : Byte) : (s.withVersion p0).hostCfg = s.hostCfg := rfl
@[simp] theorem State.withVersion_moves (s : State) (p0 : Byte) : (s.withVersion p0).moves = s.moves := rfl
@[simp] theorem State.withVersion_openAns (s : State) (p0 : Byte) : (s.withVersion p0).openAns = s.openAns := rfl
@[simp] theorem State.withVersion_sendAns (s : State) (p0 : Byte) : (s.withVersion p0).sendAns = s.sendAns := rfl
@[simp] theorem State.withVersion_rx (s : State) (p0 : Byte) : (s.withVersion p0).rx = s.rx := rfl
@[simp] theorem State.withVersion_src (s : State) (p0 : Byte) : (s.withVersion p0).src = s.src := rfl
@[simp] theorem State.withVersion_dev (s : State) (p0 : Byte) : (s.withVersion p0).dev = s.dev := rfl
@[simp] theorem State.withVersion_trace (s : State) (p0 : Byte) : (s.withVersion p0).trace = s.trace := rfl

/-! ### State.withId -/

@[simp] theorem State.withId_cfgPort (s : State) (hi lo : Byte) : (s.withId hi lo).cfgPort = s.cfgPort := rfl
@[simp] theorem State.withId_cfgBaud (s : State) (hi lo : Byte) : (s.withId hi lo).cfgBaud = s.cfgBaud := rfl
@[simp] theorem State.withId_cfgSkipProg (s : State) (hi lo : Byte) : (s.withId hi lo).cfgSkipProg = s.cfgSkipProg := rfl
@[simp] theorem State.withId_cfgSendGo (s : State) (hi lo : Byte) : (s.withId hi lo).cfgSendGo = s.cfgSendGo := rfl
@[simp] theorem State.withId_totalBytes (s : State) (hi lo : Byte) : (s.withId hi lo).totalBytes = s.totalBytes := rfl
@[simp] theorem State.withId_seq (s : State) (hi lo : Byte) : (s.withId hi lo).seq = s.seq := rfl
@[simp] theorem State.withId_run (s : State) (hi lo : Byte) : (s.withId hi lo).run = s.run := rfl
@[simp] theorem State.withId_linkOpen (s : State) (hi lo : Byte) : (s.withId hi lo).linkOpen = s.linkOpen := rfl
@[simp] theorem State.withId_done (s : State) (hi lo : Byte) : (s.withId hi lo).done = s.done := rfl
@[simp] theorem State.withId_err (s : State) (hi lo : Byte) : (s.withId hi lo).err = s.err := rfl
@[simp] theorem State.withId_errCode (s : State) (hi lo : Byte) : (s.withId hi lo).errCode = s.errCode := rfl
@[simp] theorem State.withId_failStep (s : State) (hi lo : Byte) : (s.withId hi lo).failStep = s.failStep := rfl
@[simp] theorem State.withId_call (s : State) (hi lo : Byte) : (s.withId hi lo).call = s.call := rfl
@[simp] theorem State.withId_blMajor (s : State) (hi lo : Byte) : (s.withId hi lo).blMajor = s.blMajor := rfl
@[simp] theorem State.withId_blMinor (s : State) (hi lo : Byte) : (s.withId hi lo).blMinor = s.blMinor := rfl
@[simp] theorem State.withId_verValid (s : State) (hi lo : Byte) : (s.withId hi lo).verValid = s.verValid := rfl
@[simp] theorem State.withId_chipId (s : State) (hi lo : Byte) : (s.withId hi lo).chipId = chipIdOf hi lo := rfl
@[simp] theorem State.withId_idValid (s : State) (hi lo : Byte) : (s.withId hi lo).idValid = true := rfl
@[simp] theorem State.withId_bytesWritten (s : State) (hi lo : Byte) : (s.withId hi lo).bytesWritten = s.bytesWritten := rfl
@[simp] theorem State.withId_curAddr (s : State) (hi lo : Byte) : (s.withId hi lo).curAddr = s.curAddr := rfl
@[simp] theorem State.withId_syncFails (s : State) (hi lo : Byte) : (s.withId hi lo).syncFails = s.syncFails := rfl
@[simp] theorem State.withId_nextPct (s : State) (hi lo : Byte) : (s.withId hi lo).nextPct = s.nextPct := rfl
@[simp] theorem State.withId_cksum (s : State) (hi lo : Byte) : (s.withId hi lo).cksum = s.cksum := rfl
@[simp] theorem State.withId_chunkBuf (s : State) (hi lo : Byte) : (s.withId hi lo).chunkBuf = s.chunkBuf := rfl
@[simp] theorem State.withId_chunkLen (s : State) (hi lo : Byte) : (s.withId hi lo).chunkLen = s.chunkLen := rfl
@[simp] theorem State.withId_params (s : State) (hi lo : Byte) : (s.withId hi lo).params = s.params := rfl
@[simp] theorem State.withId_line (s : State) (hi lo : Byte) : (s.withId hi lo).line = s.line := rfl
@[simp] theorem State.withId_phase (s : State) (hi lo : Byte) : (s.withId hi lo).phase = s.phase := rfl
@[simp] theorem State.withId_payload (s : State) (hi lo : Byte) : (s.withId hi lo).payload = s.payload := rfl
@[simp] theorem State.withId_remain (s : State) (hi lo : Byte) : (s.withId hi lo).remain = s.remain := rfl
@[simp] theorem State.withId_hostCfg (s : State) (hi lo : Byte) : (s.withId hi lo).hostCfg = s.hostCfg := rfl
@[simp] theorem State.withId_moves (s : State) (hi lo : Byte) : (s.withId hi lo).moves = s.moves := rfl
@[simp] theorem State.withId_openAns (s : State) (hi lo : Byte) : (s.withId hi lo).openAns = s.openAns := rfl
@[simp] theorem State.withId_sendAns (s : State) (hi lo : Byte) : (s.withId hi lo).sendAns = s.sendAns := rfl
@[simp] theorem State.withId_rx (s : State) (hi lo : Byte) : (s.withId hi lo).rx = s.rx := rfl
@[simp] theorem State.withId_src (s : State) (hi lo : Byte) : (s.withId hi lo).src = s.src := rfl
@[simp] theorem State.withId_dev (s : State) (hi lo : Byte) : (s.withId hi lo).dev = s.dev := rfl
@[simp] theorem State.withId_trace (s : State) (hi lo : Byte) : (s.withId hi lo).trace = s.trace := rfl

/-! ### State.withDev -/

@[simp] theorem State.withDev_cfgPort (s : State) (m : Memory) : (s.withDev m).cfgPort = s.cfgPort := rfl
@[simp] theorem State.withDev_cfgBaud (s : State) (m : Memory) : (s.withDev m).cfgBaud = s.cfgBaud := rfl
@[simp] theorem State.withDev_cfgSkipProg (s : State) (m : Memory) : (s.withDev m).cfgSkipProg = s.cfgSkipProg := rfl
@[simp] theorem State.withDev_cfgSendGo (s : State) (m : Memory) : (s.withDev m).cfgSendGo = s.cfgSendGo := rfl
@[simp] theorem State.withDev_totalBytes (s : State) (m : Memory) : (s.withDev m).totalBytes = s.totalBytes := rfl
@[simp] theorem State.withDev_seq (s : State) (m : Memory) : (s.withDev m).seq = s.seq := rfl
@[simp] theorem State.withDev_run (s : State) (m : Memory) : (s.withDev m).run = s.run := rfl
@[simp] theorem State.withDev_linkOpen (s : State) (m : Memory) : (s.withDev m).linkOpen = s.linkOpen := rfl
@[simp] theorem State.withDev_done (s : State) (m : Memory) : (s.withDev m).done = s.done := rfl
@[simp] theorem State.withDev_err (s : State) (m : Memory) : (s.withDev m).err = s.err := rfl
@[simp] theorem State.withDev_errCode (s : State) (m : Memory) : (s.withDev m).errCode = s.errCode := rfl
@[simp] theorem State.withDev_failStep (s : State) (m : Memory) : (s.withDev m).failStep = s.failStep := rfl
@[simp] theorem State.withDev_call (s : State) (m : Memory) : (s.withDev m).call = s.call := rfl
@[simp] theorem State.withDev_blMajor (s : State) (m : Memory) : (s.withDev m).blMajor = s.blMajor := rfl
@[simp] theorem State.withDev_blMinor (s : State) (m : Memory) : (s.withDev m).blMinor = s.blMinor := rfl
@[simp] theorem State.withDev_verValid (s : State) (m : Memory) : (s.withDev m).verValid = s.verValid := rfl
@[simp] theorem State.withDev_chipId (s : State) (m : Memory) : (s.withDev m).chipId = s.chipId := rfl
@[simp] theorem State.withDev_idValid (s : State) (m : Memory) : (s.withDev m).idValid = s.idValid := rfl
@[simp] theorem State.withDev_bytesWritten (s : State) (m : Memory) : (s.withDev m).bytesWritten = s.bytesWritten := rfl
@[simp] theorem State.withDev_curAddr (s : State) (m : Memory) : (s.withDev m).curAddr = s.curAddr := rfl
@[simp] theorem State.withDev_syncFails (s : State) (m : Memory) : (s.withDev m).syncFails = s.syncFails := rfl
@[simp] theorem State.withDev_nextPct (s : State) (m : Memory) : (s.withDev m).nextPct = s.nextPct := rfl
@[simp] theorem State.withDev_cksum (s : State) (m : Memory) : (s.withDev m).cksum = s.cksum := rfl
@[simp] theorem State.withDev_chunkBuf (s : State) (m : Memory) : (s.withDev m).chunkBuf = s.chunkBuf := rfl
@[simp] theorem State.withDev_chunkLen (s : State) (m : Memory) : (s.withDev m).chunkLen = s.chunkLen := rfl
@[simp] theorem State.withDev_params (s : State) (m : Memory) : (s.withDev m).params = s.params := rfl
@[simp] theorem State.withDev_line (s : State) (m : Memory) : (s.withDev m).line = s.line := rfl
@[simp] theorem State.withDev_phase (s : State) (m : Memory) : (s.withDev m).phase = s.phase := rfl
@[simp] theorem State.withDev_payload (s : State) (m : Memory) : (s.withDev m).payload = s.payload := rfl
@[simp] theorem State.withDev_remain (s : State) (m : Memory) : (s.withDev m).remain = s.remain := rfl
@[simp] theorem State.withDev_hostCfg (s : State) (m : Memory) : (s.withDev m).hostCfg = s.hostCfg := rfl
@[simp] theorem State.withDev_moves (s : State) (m : Memory) : (s.withDev m).moves = s.moves := rfl
@[simp] theorem State.withDev_openAns (s : State) (m : Memory) : (s.withDev m).openAns = s.openAns := rfl
@[simp] theorem State.withDev_sendAns (s : State) (m : Memory) : (s.withDev m).sendAns = s.sendAns := rfl
@[simp] theorem State.withDev_rx (s : State) (m : Memory) : (s.withDev m).rx = s.rx := rfl
@[simp] theorem State.withDev_src (s : State) (m : Memory) : (s.withDev m).src = s.src := rfl
@[simp] theorem State.withDev_dev (s : State) (m : Memory) : (s.withDev m).dev = m := rfl
@[simp] theorem State.withDev_trace (s : State) (m : Memory) : (s.withDev m).trace = s.trace := rfl

/-! ### State.doubtAll -/

@[simp] theorem State.doubtAll_cfgPort (s : State) : (s.doubtAll).cfgPort = s.cfgPort := rfl
@[simp] theorem State.doubtAll_cfgBaud (s : State) : (s.doubtAll).cfgBaud = s.cfgBaud := rfl
@[simp] theorem State.doubtAll_cfgSkipProg (s : State) : (s.doubtAll).cfgSkipProg = s.cfgSkipProg := rfl
@[simp] theorem State.doubtAll_cfgSendGo (s : State) : (s.doubtAll).cfgSendGo = s.cfgSendGo := rfl
@[simp] theorem State.doubtAll_totalBytes (s : State) : (s.doubtAll).totalBytes = s.totalBytes := rfl
@[simp] theorem State.doubtAll_seq (s : State) : (s.doubtAll).seq = s.seq := rfl
@[simp] theorem State.doubtAll_run (s : State) : (s.doubtAll).run = s.run := rfl
@[simp] theorem State.doubtAll_linkOpen (s : State) : (s.doubtAll).linkOpen = s.linkOpen := rfl
@[simp] theorem State.doubtAll_done (s : State) : (s.doubtAll).done = s.done := rfl
@[simp] theorem State.doubtAll_err (s : State) : (s.doubtAll).err = s.err := rfl
@[simp] theorem State.doubtAll_errCode (s : State) : (s.doubtAll).errCode = s.errCode := rfl
@[simp] theorem State.doubtAll_failStep (s : State) : (s.doubtAll).failStep = s.failStep := rfl
@[simp] theorem State.doubtAll_call (s : State) : (s.doubtAll).call = s.call := rfl
@[simp] theorem State.doubtAll_blMajor (s : State) : (s.doubtAll).blMajor = s.blMajor := rfl
@[simp] theorem State.doubtAll_blMinor (s : State) : (s.doubtAll).blMinor = s.blMinor := rfl
@[simp] theorem State.doubtAll_verValid (s : State) : (s.doubtAll).verValid = s.verValid := rfl
@[simp] theorem State.doubtAll_chipId (s : State) : (s.doubtAll).chipId = s.chipId := rfl
@[simp] theorem State.doubtAll_idValid (s : State) : (s.doubtAll).idValid = s.idValid := rfl
@[simp] theorem State.doubtAll_bytesWritten (s : State) : (s.doubtAll).bytesWritten = s.bytesWritten := rfl
@[simp] theorem State.doubtAll_curAddr (s : State) : (s.doubtAll).curAddr = s.curAddr := rfl
@[simp] theorem State.doubtAll_syncFails (s : State) : (s.doubtAll).syncFails = s.syncFails := rfl
@[simp] theorem State.doubtAll_nextPct (s : State) : (s.doubtAll).nextPct = s.nextPct := rfl
@[simp] theorem State.doubtAll_cksum (s : State) : (s.doubtAll).cksum = s.cksum := rfl
@[simp] theorem State.doubtAll_chunkBuf (s : State) : (s.doubtAll).chunkBuf = s.chunkBuf := rfl
@[simp] theorem State.doubtAll_chunkLen (s : State) : (s.doubtAll).chunkLen = s.chunkLen := rfl
@[simp] theorem State.doubtAll_params (s : State) : (s.doubtAll).params = s.params := rfl
@[simp] theorem State.doubtAll_line (s : State) : (s.doubtAll).line = s.line := rfl
@[simp] theorem State.doubtAll_phase (s : State) : (s.doubtAll).phase = s.phase := rfl
@[simp] theorem State.doubtAll_payload (s : State) : (s.doubtAll).payload = s.payload := rfl
@[simp] theorem State.doubtAll_remain (s : State) : (s.doubtAll).remain = s.remain := rfl
@[simp] theorem State.doubtAll_hostCfg (s : State) : (s.doubtAll).hostCfg = s.hostCfg := rfl
@[simp] theorem State.doubtAll_moves (s : State) : (s.doubtAll).moves = s.moves := rfl
@[simp] theorem State.doubtAll_openAns (s : State) : (s.doubtAll).openAns = s.openAns := rfl
@[simp] theorem State.doubtAll_sendAns (s : State) : (s.doubtAll).sendAns = s.sendAns := rfl
@[simp] theorem State.doubtAll_rx (s : State) : (s.doubtAll).rx = s.rx := rfl
@[simp] theorem State.doubtAll_src (s : State) : (s.doubtAll).src = s.src := rfl
@[simp] theorem State.doubtAll_dev (s : State) : (s.doubtAll).dev = [] := rfl
@[simp] theorem State.doubtAll_trace (s : State) : (s.doubtAll).trace = s.trace := rfl

/-! ### State.doubtBlock -/

@[simp] theorem State.doubtBlock_cfgPort (s : State) (a : Addr) (n : Nat) : (s.doubtBlock a n).cfgPort = s.cfgPort := rfl
@[simp] theorem State.doubtBlock_cfgBaud (s : State) (a : Addr) (n : Nat) : (s.doubtBlock a n).cfgBaud = s.cfgBaud := rfl
@[simp] theorem State.doubtBlock_cfgSkipProg (s : State) (a : Addr) (n : Nat) : (s.doubtBlock a n).cfgSkipProg = s.cfgSkipProg := rfl
@[simp] theorem State.doubtBlock_cfgSendGo (s : State) (a : Addr) (n : Nat) : (s.doubtBlock a n).cfgSendGo = s.cfgSendGo := rfl
@[simp] theorem State.doubtBlock_totalBytes (s : State) (a : Addr) (n : Nat) : (s.doubtBlock a n).totalBytes = s.totalBytes := rfl
@[simp] theorem State.doubtBlock_seq (s : State) (a : Addr) (n : Nat) : (s.doubtBlock a n).seq = s.seq := rfl
@[simp] theorem State.doubtBlock_run (s : State) (a : Addr) (n : Nat) : (s.doubtBlock a n).run = s.run := rfl
@[simp] theorem State.doubtBlock_linkOpen (s : State) (a : Addr) (n : Nat) : (s.doubtBlock a n).linkOpen = s.linkOpen := rfl
@[simp] theorem State.doubtBlock_done (s : State) (a : Addr) (n : Nat) : (s.doubtBlock a n).done = s.done := rfl
@[simp] theorem State.doubtBlock_err (s : State) (a : Addr) (n : Nat) : (s.doubtBlock a n).err = s.err := rfl
@[simp] theorem State.doubtBlock_errCode (s : State) (a : Addr) (n : Nat) : (s.doubtBlock a n).errCode = s.errCode := rfl
@[simp] theorem State.doubtBlock_failStep (s : State) (a : Addr) (n : Nat) : (s.doubtBlock a n).failStep = s.failStep := rfl
@[simp] theorem State.doubtBlock_call (s : State) (a : Addr) (n : Nat) : (s.doubtBlock a n).call = s.call := rfl
@[simp] theorem State.doubtBlock_blMajor (s : State) (a : Addr) (n : Nat) : (s.doubtBlock a n).blMajor = s.blMajor := rfl
@[simp] theorem State.doubtBlock_blMinor (s : State) (a : Addr) (n : Nat) : (s.doubtBlock a n).blMinor = s.blMinor := rfl
@[simp] theorem State.doubtBlock_verValid (s : State) (a : Addr) (n : Nat) : (s.doubtBlock a n).verValid = s.verValid := rfl
@[simp] theorem State.doubtBlock_chipId (s : State) (a : Addr) (n : Nat) : (s.doubtBlock a n).chipId = s.chipId := rfl
@[simp] theorem State.doubtBlock_idValid (s : State) (a : Addr) (n : Nat) : (s.doubtBlock a n).idValid = s.idValid := rfl
@[simp] theorem State.doubtBlock_bytesWritten (s : State) (a : Addr) (n : Nat) : (s.doubtBlock a n).bytesWritten = s.bytesWritten := rfl
@[simp] theorem State.doubtBlock_curAddr (s : State) (a : Addr) (n : Nat) : (s.doubtBlock a n).curAddr = s.curAddr := rfl
@[simp] theorem State.doubtBlock_syncFails (s : State) (a : Addr) (n : Nat) : (s.doubtBlock a n).syncFails = s.syncFails := rfl
@[simp] theorem State.doubtBlock_nextPct (s : State) (a : Addr) (n : Nat) : (s.doubtBlock a n).nextPct = s.nextPct := rfl
@[simp] theorem State.doubtBlock_cksum (s : State) (a : Addr) (n : Nat) : (s.doubtBlock a n).cksum = s.cksum := rfl
@[simp] theorem State.doubtBlock_chunkBuf (s : State) (a : Addr) (n : Nat) : (s.doubtBlock a n).chunkBuf = s.chunkBuf := rfl
@[simp] theorem State.doubtBlock_chunkLen (s : State) (a : Addr) (n : Nat) : (s.doubtBlock a n).chunkLen = s.chunkLen := rfl
@[simp] theorem State.doubtBlock_params (s : State) (a : Addr) (n : Nat) : (s.doubtBlock a n).params = s.params := rfl
@[simp] theorem State.doubtBlock_line (s : State) (a : Addr) (n : Nat) : (s.doubtBlock a n).line = s.line := rfl
@[simp] theorem State.doubtBlock_phase (s : State) (a : Addr) (n : Nat) : (s.doubtBlock a n).phase = s.phase := rfl
@[simp] theorem State.doubtBlock_payload (s : State) (a : Addr) (n : Nat) : (s.doubtBlock a n).payload = s.payload := rfl
@[simp] theorem State.doubtBlock_remain (s : State) (a : Addr) (n : Nat) : (s.doubtBlock a n).remain = s.remain := rfl
@[simp] theorem State.doubtBlock_hostCfg (s : State) (a : Addr) (n : Nat) : (s.doubtBlock a n).hostCfg = s.hostCfg := rfl
@[simp] theorem State.doubtBlock_moves (s : State) (a : Addr) (n : Nat) : (s.doubtBlock a n).moves = s.moves := rfl
@[simp] theorem State.doubtBlock_openAns (s : State) (a : Addr) (n : Nat) : (s.doubtBlock a n).openAns = s.openAns := rfl
@[simp] theorem State.doubtBlock_sendAns (s : State) (a : Addr) (n : Nat) : (s.doubtBlock a n).sendAns = s.sendAns := rfl
@[simp] theorem State.doubtBlock_rx (s : State) (a : Addr) (n : Nat) : (s.doubtBlock a n).rx = s.rx := rfl
@[simp] theorem State.doubtBlock_src (s : State) (a : Addr) (n : Nat) : (s.doubtBlock a n).src = s.src := rfl
@[simp] theorem State.doubtBlock_dev (s : State) (a : Addr) (n : Nat) : (s.doubtBlock a n).dev = Memory.forget a n s.dev := rfl
@[simp] theorem State.doubtBlock_trace (s : State) (a : Addr) (n : Nat) : (s.doubtBlock a n).trace = s.trace := rfl

/-! ### State.withMoves -/

@[simp] theorem State.withMoves_cfgPort (s : State) (ms : List Move) : (s.withMoves ms).cfgPort = s.cfgPort := rfl
@[simp] theorem State.withMoves_cfgBaud (s : State) (ms : List Move) : (s.withMoves ms).cfgBaud = s.cfgBaud := rfl
@[simp] theorem State.withMoves_cfgSkipProg (s : State) (ms : List Move) : (s.withMoves ms).cfgSkipProg = s.cfgSkipProg := rfl
@[simp] theorem State.withMoves_cfgSendGo (s : State) (ms : List Move) : (s.withMoves ms).cfgSendGo = s.cfgSendGo := rfl
@[simp] theorem State.withMoves_totalBytes (s : State) (ms : List Move) : (s.withMoves ms).totalBytes = s.totalBytes := rfl
@[simp] theorem State.withMoves_seq (s : State) (ms : List Move) : (s.withMoves ms).seq = s.seq := rfl
@[simp] theorem State.withMoves_run (s : State) (ms : List Move) : (s.withMoves ms).run = s.run := rfl
@[simp] theorem State.withMoves_linkOpen (s : State) (ms : List Move) : (s.withMoves ms).linkOpen = s.linkOpen := rfl
@[simp] theorem State.withMoves_done (s : State) (ms : List Move) : (s.withMoves ms).done = s.done := rfl
@[simp] theorem State.withMoves_err (s : State) (ms : List Move) : (s.withMoves ms).err = s.err := rfl
@[simp] theorem State.withMoves_errCode (s : State) (ms : List Move) : (s.withMoves ms).errCode = s.errCode := rfl
@[simp] theorem State.withMoves_failStep (s : State) (ms : List Move) : (s.withMoves ms).failStep = s.failStep := rfl
@[simp] theorem State.withMoves_call (s : State) (ms : List Move) : (s.withMoves ms).call = s.call := rfl
@[simp] theorem State.withMoves_blMajor (s : State) (ms : List Move) : (s.withMoves ms).blMajor = s.blMajor := rfl
@[simp] theorem State.withMoves_blMinor (s : State) (ms : List Move) : (s.withMoves ms).blMinor = s.blMinor := rfl
@[simp] theorem State.withMoves_verValid (s : State) (ms : List Move) : (s.withMoves ms).verValid = s.verValid := rfl
@[simp] theorem State.withMoves_chipId (s : State) (ms : List Move) : (s.withMoves ms).chipId = s.chipId := rfl
@[simp] theorem State.withMoves_idValid (s : State) (ms : List Move) : (s.withMoves ms).idValid = s.idValid := rfl
@[simp] theorem State.withMoves_bytesWritten (s : State) (ms : List Move) : (s.withMoves ms).bytesWritten = s.bytesWritten := rfl
@[simp] theorem State.withMoves_curAddr (s : State) (ms : List Move) : (s.withMoves ms).curAddr = s.curAddr := rfl
@[simp] theorem State.withMoves_syncFails (s : State) (ms : List Move) : (s.withMoves ms).syncFails = s.syncFails := rfl
@[simp] theorem State.withMoves_nextPct (s : State) (ms : List Move) : (s.withMoves ms).nextPct = s.nextPct := rfl
@[simp] theorem State.withMoves_cksum (s : State) (ms : List Move) : (s.withMoves ms).cksum = s.cksum := rfl
@[simp] theorem State.withMoves_chunkBuf (s : State) (ms : List Move) : (s.withMoves ms).chunkBuf = s.chunkBuf := rfl
@[simp] theorem State.withMoves_chunkLen (s : State) (ms : List Move) : (s.withMoves ms).chunkLen = s.chunkLen := rfl
@[simp] theorem State.withMoves_params (s : State) (ms : List Move) : (s.withMoves ms).params = s.params := rfl
@[simp] theorem State.withMoves_line (s : State) (ms : List Move) : (s.withMoves ms).line = s.line := rfl
@[simp] theorem State.withMoves_phase (s : State) (ms : List Move) : (s.withMoves ms).phase = s.phase := rfl
@[simp] theorem State.withMoves_payload (s : State) (ms : List Move) : (s.withMoves ms).payload = s.payload := rfl
@[simp] theorem State.withMoves_remain (s : State) (ms : List Move) : (s.withMoves ms).remain = s.remain := rfl
@[simp] theorem State.withMoves_hostCfg (s : State) (ms : List Move) : (s.withMoves ms).hostCfg = s.hostCfg := rfl
@[simp] theorem State.withMoves_moves (s : State) (ms : List Move) : (s.withMoves ms).moves = ms := rfl
@[simp] theorem State.withMoves_openAns (s : State) (ms : List Move) : (s.withMoves ms).openAns = s.openAns := rfl
@[simp] theorem State.withMoves_sendAns (s : State) (ms : List Move) : (s.withMoves ms).sendAns = s.sendAns := rfl
@[simp] theorem State.withMoves_rx (s : State) (ms : List Move) : (s.withMoves ms).rx = s.rx := rfl
@[simp] theorem State.withMoves_src (s : State) (ms : List Move) : (s.withMoves ms).src = s.src := rfl
@[simp] theorem State.withMoves_dev (s : State) (ms : List Move) : (s.withMoves ms).dev = s.dev := rfl
@[simp] theorem State.withMoves_trace (s : State) (ms : List Move) : (s.withMoves ms).trace = s.trace := rfl

/-! ### State.taken -/

@[simp] theorem State.taken_cfgPort (s : State) (its : List Item) (q : List RxAnswer) : (s.taken its q).cfgPort = s.cfgPort := rfl
@[simp] theorem State.taken_cfgBaud (s : State) (its : List Item) (q : List RxAnswer) : (s.taken its q).cfgBaud = s.cfgBaud := rfl
@[simp] theorem State.taken_cfgSkipProg (s : State) (its : List Item) (q : List RxAnswer) : (s.taken its q).cfgSkipProg = s.cfgSkipProg := rfl
@[simp] theorem State.taken_cfgSendGo (s : State) (its : List Item) (q : List RxAnswer) : (s.taken its q).cfgSendGo = s.cfgSendGo := rfl
@[simp] theorem State.taken_totalBytes (s : State) (its : List Item) (q : List RxAnswer) : (s.taken its q).totalBytes = s.totalBytes := rfl
@[simp] theorem State.taken_seq (s : State) (its : List Item) (q : List RxAnswer) : (s.taken its q).seq = s.seq := rfl
@[simp] theorem State.taken_run (s : State) (its : List Item) (q : List RxAnswer) : (s.taken its q).run = s.run := rfl
@[simp] theorem State.taken_linkOpen (s : State) (its : List Item) (q : List RxAnswer) : (s.taken its q).linkOpen = s.linkOpen := rfl
@[simp] theorem State.taken_done (s : State) (its : List Item) (q : List RxAnswer) : (s.taken its q).done = s.done := rfl
@[simp] theorem State.taken_err (s : State) (its : List Item) (q : List RxAnswer) : (s.taken its q).err = s.err := rfl
@[simp] theorem State.taken_errCode (s : State) (its : List Item) (q : List RxAnswer) : (s.taken its q).errCode = s.errCode := rfl
@[simp] theorem State.taken_failStep (s : State) (its : List Item) (q : List RxAnswer) : (s.taken its q).failStep = s.failStep := rfl
@[simp] theorem State.taken_call (s : State) (its : List Item) (q : List RxAnswer) : (s.taken its q).call = s.call := rfl
@[simp] theorem State.taken_blMajor (s : State) (its : List Item) (q : List RxAnswer) : (s.taken its q).blMajor = s.blMajor := rfl
@[simp] theorem State.taken_blMinor (s : State) (its : List Item) (q : List RxAnswer) : (s.taken its q).blMinor = s.blMinor := rfl
@[simp] theorem State.taken_verValid (s : State) (its : List Item) (q : List RxAnswer) : (s.taken its q).verValid = s.verValid := rfl
@[simp] theorem State.taken_chipId (s : State) (its : List Item) (q : List RxAnswer) : (s.taken its q).chipId = s.chipId := rfl
@[simp] theorem State.taken_idValid (s : State) (its : List Item) (q : List RxAnswer) : (s.taken its q).idValid = s.idValid := rfl
@[simp] theorem State.taken_bytesWritten (s : State) (its : List Item) (q : List RxAnswer) : (s.taken its q).bytesWritten = s.bytesWritten := rfl
@[simp] theorem State.taken_curAddr (s : State) (its : List Item) (q : List RxAnswer) : (s.taken its q).curAddr = s.curAddr := rfl
@[simp] theorem State.taken_syncFails (s : State) (its : List Item) (q : List RxAnswer) : (s.taken its q).syncFails = s.syncFails := rfl
@[simp] theorem State.taken_nextPct (s : State) (its : List Item) (q : List RxAnswer) : (s.taken its q).nextPct = s.nextPct := rfl
@[simp] theorem State.taken_cksum (s : State) (its : List Item) (q : List RxAnswer) : (s.taken its q).cksum = s.cksum := rfl
@[simp] theorem State.taken_chunkBuf (s : State) (its : List Item) (q : List RxAnswer) : (s.taken its q).chunkBuf = s.chunkBuf := rfl
@[simp] theorem State.taken_chunkLen (s : State) (its : List Item) (q : List RxAnswer) : (s.taken its q).chunkLen = s.chunkLen := rfl
@[simp] theorem State.taken_params (s : State) (its : List Item) (q : List RxAnswer) : (s.taken its q).params = s.params := rfl
@[simp] theorem State.taken_line (s : State) (its : List Item) (q : List RxAnswer) : (s.taken its q).line = s.line := rfl
@[simp] theorem State.taken_phase (s : State) (its : List Item) (q : List RxAnswer) : (s.taken its q).phase = its := rfl
@[simp] theorem State.taken_payload (s : State) (its : List Item) (q : List RxAnswer) : (s.taken its q).payload = s.payload := rfl
@[simp] theorem State.taken_remain (s : State) (its : List Item) (q : List RxAnswer) : (s.taken its q).remain = s.remain := rfl
@[simp] theorem State.taken_hostCfg (s : State) (its : List Item) (q : List RxAnswer) : (s.taken its q).hostCfg = s.hostCfg := rfl
@[simp] theorem State.taken_moves (s : State) (its : List Item) (q : List RxAnswer) : (s.taken its q).moves = s.moves := rfl
@[simp] theorem State.taken_openAns (s : State) (its : List Item) (q : List RxAnswer) : (s.taken its q).openAns = s.openAns := rfl
@[simp] theorem State.taken_sendAns (s : State) (its : List Item) (q : List RxAnswer) : (s.taken its q).sendAns = s.sendAns := rfl
@[simp] theorem State.taken_rx (s : State) (its : List Item) (q : List RxAnswer) : (s.taken its q).rx = q := rfl
@[simp] theorem State.taken_src (s : State) (its : List Item) (q : List RxAnswer) : (s.taken its q).src = s.src := rfl
@[simp] theorem State.taken_dev (s : State) (its : List Item) (q : List RxAnswer) : (s.taken its q).dev = s.dev := rfl
@[simp] theorem State.taken_trace (s : State) (its : List Item) (q : List RxAnswer) : (s.taken its q).trace = s.trace := rfl

/-! ### State.withSyncFails -/

@[simp] theorem State.withSyncFails_cfgPort (s : State) (n : Nat) : (s.withSyncFails n).cfgPort = s.cfgPort := rfl
@[simp] theorem State.withSyncFails_cfgBaud (s : State) (n : Nat) : (s.withSyncFails n).cfgBaud = s.cfgBaud := rfl
@[simp] theorem State.withSyncFails_cfgSkipProg (s : State) (n : Nat) : (s.withSyncFails n).cfgSkipProg = s.cfgSkipProg := rfl
@[simp] theorem State.withSyncFails_cfgSendGo (s : State) (n : Nat) : (s.withSyncFails n).cfgSendGo = s.cfgSendGo := rfl
@[simp] theorem State.withSyncFails_totalBytes (s : State) (n : Nat) : (s.withSyncFails n).totalBytes = s.totalBytes := rfl
@[simp] theorem State.withSyncFails_seq (s : State) (n : Nat) : (s.withSyncFails n).seq = s.seq := rfl
@[simp] theorem State.withSyncFails_run (s : State) (n : Nat) : (s.withSyncFails n).run = s.run := rfl
@[simp] theorem State.withSyncFails_linkOpen (s : State) (n : Nat) : (s.withSyncFails n).linkOpen = s.linkOpen := rfl
@[simp] theorem State.withSyncFails_done (s : State) (n : Nat) : (s.withSyncFails n).done = s.done := rfl
@[simp] theorem State.withSyncFails_err (s : State) (n : Nat) : (s.withSyncFails n).err = s.err := rfl
@[simp] theorem State.withSyncFails_errCode (s : State) (n : Nat) : (s.withSyncFails n).errCode = s.errCode := rfl
@[simp] theorem State.withSyncFails_failStep (s : State) (n : Nat) : (s.withSyncFails n).failStep = s.failStep := rfl
@[simp] theorem State.withSyncFails_call (s : State) (n : Nat) : (s.withSyncFails n).call = s.call := rfl
@[simp] theorem State.withSyncFails_blMajor (s : State) (n : Nat) : (s.withSyncFails n).blMajor = s.blMajor := rfl
@[simp] theorem State.withSyncFails_blMinor (s : State) (n : Nat) : (s.withSyncFails n).blMinor = s.blMinor := rfl
@[simp] theorem State.withSyncFails_verValid (s : State) (n : Nat) : (s.withSyncFails n).verValid = s.verValid := rfl
@[simp] theorem State.withSyncFails_chipId (s : State) (n : Nat) : (s.withSyncFails n).chipId = s.chipId := rfl
@[simp] theorem State.withSyncFails_idValid (s : State) (n : Nat) : (s.withSyncFails n).idValid = s.idValid := rfl
@[simp] theorem State.withSyncFails_bytesWritten (s : State) (n : Nat) : (s.withSyncFails n).bytesWritten = s.bytesWritten := rfl
@[simp] theorem State.withSyncFails_curAddr (s : State) (n : Nat) : (s.withSyncFails n).curAddr = s.curAddr := rfl
@[simp] theorem State.withSyncFails_syncFails (s : State) (n : Nat) : (s.withSyncFails n).syncFails = n := rfl
@[simp] theorem State.withSyncFails_nextPct (s : State) (n : Nat) : (s.withSyncFails n).nextPct = s.nextPct := rfl
@[simp] theorem State.withSyncFails_cksum (s : State) (n : Nat) : (s.withSyncFails n).cksum = s.cksum := rfl
@[simp] theorem State.withSyncFails_chunkBuf (s : State) (n : Nat) : (s.withSyncFails n).chunkBuf = s.chunkBuf := rfl
@[simp] theorem State.withSyncFails_chunkLen (s : State) (n : Nat) : (s.withSyncFails n).chunkLen = s.chunkLen := rfl
@[simp] theorem State.withSyncFails_params (s : State) (n : Nat) : (s.withSyncFails n).params = s.params := rfl
@[simp] theorem State.withSyncFails_line (s : State) (n : Nat) : (s.withSyncFails n).line = s.line := rfl
@[simp] theorem State.withSyncFails_phase (s : State) (n : Nat) : (s.withSyncFails n).phase = s.phase := rfl
@[simp] theorem State.withSyncFails_payload (s : State) (n : Nat) : (s.withSyncFails n).payload = s.payload := rfl
@[simp] theorem State.withSyncFails_remain (s : State) (n : Nat) : (s.withSyncFails n).remain = s.remain := rfl
@[simp] theorem State.withSyncFails_hostCfg (s : State) (n : Nat) : (s.withSyncFails n).hostCfg = s.hostCfg := rfl
@[simp] theorem State.withSyncFails_moves (s : State) (n : Nat) : (s.withSyncFails n).moves = s.moves := rfl
@[simp] theorem State.withSyncFails_openAns (s : State) (n : Nat) : (s.withSyncFails n).openAns = s.openAns := rfl
@[simp] theorem State.withSyncFails_sendAns (s : State) (n : Nat) : (s.withSyncFails n).sendAns = s.sendAns := rfl
@[simp] theorem State.withSyncFails_rx (s : State) (n : Nat) : (s.withSyncFails n).rx = s.rx := rfl
@[simp] theorem State.withSyncFails_src (s : State) (n : Nat) : (s.withSyncFails n).src = s.src := rfl
@[simp] theorem State.withSyncFails_dev (s : State) (n : Nat) : (s.withSyncFails n).dev = s.dev := rfl
@[simp] theorem State.withSyncFails_trace (s : State) (n : Nat) : (s.withSyncFails n).trace = s.trace := rfl

/-! ### State.withChunkLen -/

@[simp] theorem State.withChunkLen_cfgPort (s : State) (n : Nat) : (s.withChunkLen n).cfgPort = s.cfgPort := rfl
@[simp] theorem State.withChunkLen_cfgBaud (s : State) (n : Nat) : (s.withChunkLen n).cfgBaud = s.cfgBaud := rfl
@[simp] theorem State.withChunkLen_cfgSkipProg (s : State) (n : Nat) : (s.withChunkLen n).cfgSkipProg = s.cfgSkipProg := rfl
@[simp] theorem State.withChunkLen_cfgSendGo (s : State) (n : Nat) : (s.withChunkLen n).cfgSendGo = s.cfgSendGo := rfl
@[simp] theorem State.withChunkLen_totalBytes (s : State) (n : Nat) : (s.withChunkLen n).totalBytes = s.totalBytes := rfl
@[simp] theorem State.withChunkLen_seq (s : State) (n : Nat) : (s.withChunkLen n).seq = s.seq := rfl
@[simp] theorem State.withChunkLen_run (s : State) (n : Nat) : (s.withChunkLen n).run = s.run := rfl
@[simp] theorem State.withChunkLen_linkOpen (s : State) (n : Nat) : (s.withChunkLen n).linkOpen = s.linkOpen := rfl
@[simp] theorem State.withChunkLen_done (s : State) (n : Nat) : (s.withChunkLen n).done = s.done := rfl
@[simp] theorem State.withChunkLen_err (s : State) (n : Nat) : (s.withChunkLen n).err = s.err := rfl
@[simp] theorem State.withChunkLen_errCode (s : State) (n : Nat) : (s.withChunkLen n).errCode = s.errCode := rfl
@[simp] theorem State.withChunkLen_failStep (s : State) (n : Nat) : (s.withChunkLen n).failStep = s.failStep := rfl
@[simp] theorem State.withChunkLen_call (s : State) (n : Nat) : (s.withChunkLen n).call = s.call := rfl
@[simp] theorem State.withChunkLen_blMajor (s : State) (n : Nat) : (s.withChunkLen n).blMajor = s.blMajor := rfl
@[simp] theorem State.withChunkLen_blMinor (s : State) (n : Nat) : (s.withChunkLen n).blMinor = s.blMinor := rfl
@[simp] theorem State.withChunkLen_verValid (s : State) (n : Nat) : (s.withChunkLen n).verValid = s.verValid := rfl
@[simp] theorem State.withChunkLen_chipId (s : State) (n : Nat) : (s.withChunkLen n).chipId = s.chipId := rfl
@[simp] theorem State.withChunkLen_idValid (s : State) (n : Nat) : (s.withChunkLen n).idValid = s.idValid := rfl
@[simp] theorem State.withChunkLen_bytesWritten (s : State) (n : Nat) : (s.withChunkLen n).bytesWritten = s.bytesWritten := rfl
@[simp] theorem State.withChunkLen_curAddr (s : State) (n : Nat) : (s.withChunkLen n).curAddr = s.curAddr := rfl
@[simp] theorem State.withChunkLen_syncFails (s : State) (n : Nat) : (s.withChunkLen n).syncFails = s.syncFails := rfl
@[simp] theorem State.withChunkLen_nextPct (s : State) (n : Nat) : (s.withChunkLen n).nextPct = s.nextPct := rfl
@[simp] theorem State.withChunkLen_cksum (s : State) (n : Nat) : (s.withChunkLen n).cksum = s.cksum := rfl
@[simp] theorem State.withChunkLen_chunkBuf (s : State) (n : Nat) : (s.withChunkLen n).chunkBuf = s.chunkBuf := rfl
@[simp] theorem State.withChunkLen_chunkLen (s : State) (n : Nat) : (s.withChunkLen n).chunkLen = n := rfl
@[simp] theorem State.withChunkLen_params (s : State) (n : Nat) : (s.withChunkLen n).params = s.params := rfl
@[simp] theorem State.withChunkLen_line (s : State) (n : Nat) : (s.withChunkLen n).line = s.line := rfl
@[simp] theorem State.withChunkLen_phase (s : State) (n : Nat) : (s.withChunkLen n).phase = s.phase := rfl
@[simp] theorem State.withChunkLen_payload (s : State) (n : Nat) : (s.withChunkLen n).payload = s.payload := rfl
@[simp] theorem State.withChunkLen_remain (s : State) (n : Nat) : (s.withChunkLen n).remain = s.remain := rfl
@[simp] theorem State.withChunkLen_hostCfg (s : State) (n : Nat) : (s.withChunkLen n).hostCfg = s.hostCfg := rfl
@[simp] theorem State.withChunkLen_moves (s : State) (n : Nat) : (s.withChunkLen n).moves = s.moves := rfl
@[simp] theorem State.withChunkLen_openAns (s : State) (n : Nat) : (s.withChunkLen n).openAns = s.openAns := rfl
@[simp] theorem State.withChunkLen_sendAns (s : State) (n : Nat) : (s.withChunkLen n).sendAns = s.sendAns := rfl
@[simp] theorem State.withChunkLen_rx (s : State) (n : Nat) : (s.withChunkLen n).rx = s.rx := rfl
@[simp] theorem State.withChunkLen_src (s : State) (n : Nat) : (s.withChunkLen n).src = s.src := rfl
@[simp] theorem State.withChunkLen_dev (s : State) (n : Nat) : (s.withChunkLen n).dev = s.dev := rfl
@[simp] theorem State.withChunkLen_trace (s : State) (n : Nat) : (s.withChunkLen n).trace = s.trace := rfl

/-! ### State.opened -/

@[simp] theorem State.opened_cfgPort (s : State) : (s.opened).cfgPort = s.cfgPort := rfl
@[simp] theorem State.opened_cfgBaud (s : State) : (s.opened).cfgBaud = s.cfgBaud := rfl
@[simp] theorem State.opened_cfgSkipProg (s : State) : (s.opened).cfgSkipProg = s.cfgSkipProg := rfl
@[simp] theorem State.opened_cfgSendGo (s : State) : (s.opened).cfgSendGo = s.cfgSendGo := rfl
@[simp] theorem State.opened_totalBytes (s : State) : (s.opened).totalBytes = s.totalBytes := rfl
@[simp] theorem State.opened_seq (s : State) : (s.opened).seq = s.seq := rfl
@[simp] theorem State.opened_run (s : State) : (s.opened).run = s.run := rfl
@[simp] theorem State.opened_linkOpen (s : State) : (s.opened).linkOpen = s.linkOpen := rfl
@[simp] theorem State.opened_done (s : State) : (s.opened).done = s.done := rfl
@[simp] theorem State.opened_err (s : State) : (s.opened).err = s.err := rfl
@[simp] theorem State.opened_errCode (s : State) : (s.opened).errCode = s.errCode := rfl
@[simp] theorem State.opened_failStep (s : State) : (s.opened).failStep = s.failStep := rfl
@[simp] theorem State.opened_call (s : State) : (s.opened).call = s.call := rfl
@[simp] theorem State.opened_blMajor (s : State) : (s.opened).blMajor = s.blMajor := rfl
@[simp] theorem State.opened_blMinor (s : State) : (s.opened).blMinor = s.blMinor := rfl
@[simp] theorem State.opened_verValid (s : State) : (s.opened).verValid = s.verValid := rfl
@[simp] theorem State.opened_chipId (s : State) : (s.opened).chipId = s.chipId := rfl
@[simp] theorem State.opened_idValid (s : State) : (s.opened).idValid = s.idValid := rfl
@[simp] theorem State.opened_bytesWritten (s : State) : (s.opened).bytesWritten = s.bytesWritten := rfl
@[simp] theorem State.opened_curAddr (s : State) : (s.opened).curAddr = s.curAddr := rfl
@[simp] theorem State.opened_syncFails (s : State) : (s.opened).syncFails = s.syncFails := rfl
@[simp] theorem State.opened_nextPct (s : State) : (s.opened).nextPct = s.nextPct := rfl
@[simp] theorem State.opened_cksum (s : State) : (s.opened).cksum = s.cksum := rfl
@[simp] theorem State.opened_chunkBuf (s : State) : (s.opened).chunkBuf = s.chunkBuf := rfl
@[simp] theorem State.opened_chunkLen (s : State) : (s.opened).chunkLen = s.chunkLen := rfl
@[simp] theorem State.opened_params (s : State) : (s.opened).params = s.params := rfl
@[simp] theorem State.opened_line (s : State) : (s.opened).line = s.line := rfl
@[simp] theorem State.opened_phase (s : State) : (s.opened).phase = s.phase := rfl
@[simp] theorem State.opened_payload (s : State) : (s.opened).payload = s.payload := rfl
@[simp] theorem State.opened_remain (s : State) : (s.opened).remain = s.remain := rfl
@[simp] theorem State.opened_hostCfg (s : State) : (s.opened).hostCfg = s.hostCfg := rfl
@[simp] theorem State.opened_moves (s : State) : (s.opened).moves = s.moves := rfl
@[simp] theorem State.opened_openAns (s : State) : (s.opened).openAns = s.openAns.tail := rfl
@[simp] theorem State.opened_sendAns (s : State) : (s.opened).sendAns = s.sendAns := rfl
@[simp] theorem State.opened_rx (s : State) : (s.opened).rx = s.rx := rfl
@[simp] theorem State.opened_src (s : State) : (s.opened).src = s.src := rfl
@[simp] theorem State.opened_dev (s : State) : (s.opened).dev = s.dev := rfl
@[simp] theorem State.opened_trace (s : State) : (s.opened).trace = s.trace ++ [.opened s.cfgPort s.cfgBaud (nextAnswer s.openAns)] := rfl

/-! ### State.fed -/

@[simp] theorem State.fed_cfgPort (s : State) (bs : List Byte) : (s.fed bs).cfgPort = s.cfgPort := rfl
@[simp] theorem State.fed_cfgBaud (s : State) (bs : List Byte) : (s.fed bs).cfgBaud = s.cfgBaud := rfl
@[simp] theorem State.fed_cfgSkipProg (s : State) (bs : List Byte) : (s.fed bs).cfgSkipProg = s.cfgSkipProg := rfl
@[simp] theorem State.fed_cfgSendGo (s : State) (bs : List Byte) : (s.fed bs).cfgSendGo = s.cfgSendGo := rfl
@[simp] theorem State.fed_totalBytes (s : State) (bs : List Byte) : (s.fed bs).totalBytes = s.totalBytes := rfl
@[simp] theorem State.fed_seq (s : State) (bs : List Byte) : (s.fed bs).seq = s.seq := rfl
@[simp] theorem State.fed_run (s : State) (bs : List Byte) : (s.fed bs).run = s.run := rfl
@[simp] theorem State.fed_linkOpen (s : State) (bs : List Byte) : (s.fed bs).linkOpen = s.linkOpen := rfl
@[simp] theorem State.fed_done (s : State) (bs : List Byte) : (s.fed bs).done = s.done := rfl
@[simp] theorem State.fed_err (s : State) (bs : List Byte) : (s.fed bs).err = s.err := rfl
@[simp] theorem State.fed_errCode (s : State) (bs : List Byte) : (s.fed bs).errCode = s.errCode := rfl
@[simp] theorem State.fed_failStep (s : State) (bs : List Byte) : (s.fed bs).failStep = s.failStep := rfl
@[simp] theorem State.fed_call (s : State) (bs : List Byte) : (s.fed bs).call = s.call := rfl
@[simp] theorem State.fed_blMajor (s : State) (bs : List Byte) : (s.fed bs).blMajor = s.blMajor := rfl
@[simp] theorem State.fed_blMinor (s : State) (bs : List Byte) : (s.fed bs).blMinor = s.blMinor := rfl
@[simp] theorem State.fed_verValid (s : State) (bs : List Byte) : (s.fed bs).verValid = s.verValid := rfl
@[simp] theorem State.fed_chipId (s : State) (bs : List Byte) : (s.fed bs).chipId = s.chipId := rfl
@[simp] theorem State.fed_idValid (s : State) (bs : List Byte) : (s.fed bs).idValid = s.idValid := rfl
@[simp] theorem State.fed_bytesWritten (s : State) (bs : List Byte) : (s.fed bs).bytesWritten = s.bytesWritten := rfl
@[simp] theorem State.fed_curAddr (s : State) (bs : List Byte) : (s.fed bs).curAddr = s.curAddr := rfl
@[simp] theorem State.fed_syncFails (s : State) (bs : List Byte) : (s.fed bs).syncFails = s.syncFails := rfl
@[simp] theorem State.fed_nextPct (s : State) (bs : List Byte) : (s.fed bs).nextPct = s.nextPct := rfl
@[simp] theorem State.fed_cksum (s : State) (bs : List Byte) : (s.fed bs).cksum = s.cksum := rfl
@[simp] theorem State.fed_chunkBuf (s : State) (bs : List Byte) : (s.fed bs).chunkBuf = s.chunkBuf := rfl
@[simp] theorem State.fed_chunkLen (s : State) (bs : List Byte) : (s.fed bs).chunkLen = s.chunkLen := rfl
@[simp] theorem State.fed_params (s : State) (bs : List Byte) : (s.fed bs).params = s.params := rfl
@[simp] theorem State.fed_line (s : State) (bs : List Byte) : (s.fed bs).line = s.line := rfl
@[simp] theorem State.fed_phase (s : State) (bs : List Byte) : (s.fed bs).phase = s.phase := rfl
@[simp] theorem State.fed_payload (s : State) (bs : List Byte) : (s.fed bs).payload = s.payload := rfl
@[simp] theorem State.fed_remain (s : State) (bs : List Byte) : (s.fed bs).remain = s.remain := rfl
@[simp] theorem State.fed_hostCfg (s : State) (bs : List Byte) : (s.fed bs).hostCfg = s.hostCfg := rfl
@[simp] theorem State.fed_moves (s : State) (bs : List Byte) : (s.fed bs).moves = s.moves := rfl
@[simp] theorem State.fed_openAns (s : State) (bs : List Byte) : (s.fed bs).openAns = s.openAns := rfl
@[simp] theorem State.fed_sendAns (s : State) (bs : List Byte) : (s.fed bs).sendAns = s.sendAns := rfl
@[simp] theorem State.fed_rx (s : State) (bs : List Byte) : (s.fed bs).rx = s.rx := rfl
@[simp] theorem State.fed_src (s : State) (bs : List Byte) : (s.fed bs).src = s.src.tail := rfl
@[simp] theorem State.fed_dev (s : State) (bs : List Byte) : (s.fed bs).dev = s.dev := rfl
@[simp] theorem State.fed_trace (s : State) (bs : List Byte) : (s.fed bs).trace = s.trace ++ [.src s.params.maxChunk bs] := rfl

/-! ### State.rewound -/

@[simp] theorem State.rewound_cfgPort (s : State) : (s.rewound).cfgPort = s.cfgPort := rfl
@[simp] theorem State.rewound_cfgBaud (s : State) : (s.rewound).cfgBaud = s.cfgBaud := rfl
@[simp] theorem State.rewound_cfgSkipProg (s : State) : (s.rewound).cfgSkipProg = s.cfgSkipProg := rfl
@[simp] theorem State.rewound_cfgSendGo (s : State) : (s.rewound).cfgSendGo = s.cfgSendGo := rfl
@[simp] theorem State.rewound_totalBytes (s : State) : (s.rewound).totalBytes = s.totalBytes := rfl
@[simp] theorem State.rewound_seq (s : State) : (s.rewound).seq = s.seq := rfl
@[simp] theorem State.rewound_run (s : State) : (s.rewound).run = s.run := rfl
@[simp] theorem State.rewound_linkOpen (s : State) : (s.rewound).linkOpen = s.linkOpen := rfl
@[simp] theorem State.rewound_done (s : State) : (s.rewound).done = s.done := rfl
@[simp] theorem State.rewound_err (s : State) : (s.rewound).err = s.err := rfl
@[simp] theorem State.rewound_errCode (s : State) : (s.rewound).errCode = s.errCode := rfl
@[simp] theorem State.rewound_failStep (s : State) : (s.rewound).failStep = s.failStep := rfl
@[simp] theorem State.rewound_call (s : State) : (s.rewound).call = s.call := rfl
@[simp] theorem State.rewound_blMajor (s : State) : (s.rewound).blMajor = s.blMajor := rfl
@[simp] theorem State.rewound_blMinor (s : State) : (s.rewound).blMinor = s.blMinor := rfl
@[simp] theorem State.rewound_verValid (s : State) : (s.rewound).verValid = s.verValid := rfl
@[simp] theorem State.rewound_chipId (s : State) : (s.rewound).chipId = s.chipId := rfl
@[simp] theorem State.rewound_idValid (s : State) : (s.rewound).idValid = s.idValid := rfl
@[simp] theorem State.rewound_bytesWritten (s : State) : (s.rewound).bytesWritten = 0 := rfl
@[simp] theorem State.rewound_curAddr (s : State) : (s.rewound).curAddr = s.params.flashBase := rfl
@[simp] theorem State.rewound_syncFails (s : State) : (s.rewound).syncFails = s.syncFails := rfl
@[simp] theorem State.rewound_nextPct (s : State) : (s.rewound).nextPct = s.nextPct := rfl
@[simp] theorem State.rewound_cksum (s : State) : (s.rewound).cksum = s.cksum := rfl
@[simp] theorem State.rewound_chunkBuf (s : State) : (s.rewound).chunkBuf = s.chunkBuf := rfl
@[simp] theorem State.rewound_chunkLen (s : State) : (s.rewound).chunkLen = s.chunkLen := rfl
@[simp] theorem State.rewound_params (s : State) : (s.rewound).params = s.params := rfl
@[simp] theorem State.rewound_line (s : State) : (s.rewound).line = s.line := rfl
@[simp] theorem State.rewound_phase (s : State) : (s.rewound).phase = s.phase := rfl
@[simp] theorem State.rewound_payload (s : State) : (s.rewound).payload = s.payload := rfl
@[simp] theorem State.rewound_remain (s : State) : (s.rewound).remain = s.remain := rfl
@[simp] theorem State.rewound_hostCfg (s : State) : (s.rewound).hostCfg = s.hostCfg := rfl
@[simp] theorem State.rewound_moves (s : State) : (s.rewound).moves = s.moves := rfl
@[simp] theorem State.rewound_openAns (s : State) : (s.rewound).openAns = s.openAns := rfl
@[simp] theorem State.rewound_sendAns (s : State) : (s.rewound).sendAns = s.sendAns := rfl
@[simp] theorem State.rewound_rx (s : State) : (s.rewound).rx = s.rx := rfl
@[simp] theorem State.rewound_src (s : State) : (s.rewound).src = s.src := rfl
@[simp] theorem State.rewound_dev (s : State) : (s.rewound).dev = s.dev := rfl
@[simp] theorem State.rewound_trace (s : State) : (s.rewound).trace = s.trace := rfl

/-! ### State.advanced -/

@[simp] theorem State.advanced_cfgPort (s : State) : (s.advanced).cfgPort = s.cfgPort := rfl
@[simp] theorem State.advanced_cfgBaud (s : State) : (s.advanced).cfgBaud = s.cfgBaud := rfl
@[simp] theorem State.advanced_cfgSkipProg (s : State) : (s.advanced).cfgSkipProg = s.cfgSkipProg := rfl
@[simp] theorem State.advanced_cfgSendGo (s : State) : (s.advanced).cfgSendGo = s.cfgSendGo := rfl
@[simp] theorem State.advanced_totalBytes (s : State) : (s.advanced).totalBytes = s.totalBytes := rfl
@[simp] theorem State.advanced_seq (s : State) : (s.advanced).seq = s.seq := rfl
@[simp] theorem State.advanced_run (s : State) : (s.advanced).run = s.run := rfl
@[simp] theorem State.advanced_linkOpen (s : State) : (s.advanced).linkOpen = s.linkOpen := rfl
@[simp] theorem State.advanced_done (s : State) : (s.advanced).done = s.done := rfl
@[simp] theorem State.advanced_err (s : State) : (s.advanced).err = s.err := rfl
@[simp] theorem State.advanced_errCode (s : State) : (s.advanced).errCode = s.errCode := rfl
@[simp] theorem State.advanced_failStep (s : State) : (s.advanced).failStep = s.failStep := rfl
@[simp] theorem State.advanced_call (s : State) : (s.advanced).call = s.call := rfl
@[simp] theorem State.advanced_blMajor (s : State) : (s.advanced).blMajor = s.blMajor := rfl
@[simp] theorem State.advanced_blMinor (s : State) : (s.advanced).blMinor = s.blMinor := rfl
@[simp] theorem State.advanced_verValid (s : State) : (s.advanced).verValid = s.verValid := rfl
@[simp] theorem State.advanced_chipId (s : State) : (s.advanced).chipId = s.chipId := rfl
@[simp] theorem State.advanced_idValid (s : State) : (s.advanced).idValid = s.idValid := rfl
@[simp] theorem State.advanced_bytesWritten (s : State) : (s.advanced).bytesWritten = s.bytesWritten + BitVec.ofNat 32 s.chunkLen := rfl
@[simp] theorem State.advanced_curAddr (s : State) : (s.advanced).curAddr = s.curAddr + BitVec.ofNat 32 s.chunkLen := rfl
@[simp] theorem State.advanced_syncFails (s : State) : (s.advanced).syncFails = s.syncFails := rfl
@[simp] theorem State.advanced_nextPct (s : State) : (s.advanced).nextPct = s.nextPct := rfl
@[simp] theorem State.advanced_cksum (s : State) : (s.advanced).cksum = s.cksum := rfl
@[simp] theorem State.advanced_chunkBuf (s : State) : (s.advanced).chunkBuf = s.chunkBuf := rfl
@[simp] theorem State.advanced_chunkLen (s : State) : (s.advanced).chunkLen = s.chunkLen := rfl
@[simp] theorem State.advanced_params (s : State) : (s.advanced).params = s.params := rfl
@[simp] theorem State.advanced_line (s : State) : (s.advanced).line = s.line := rfl
@[simp] theorem State.advanced_phase (s : State) : (s.advanced).phase = s.phase := rfl
@[simp] theorem State.advanced_payload (s : State) : (s.advanced).payload = s.payload := rfl
@[simp] theorem State.advanced_remain (s : State) : (s.advanced).remain = s.remain := rfl
@[simp] theorem State.advanced_hostCfg (s : State) : (s.advanced).hostCfg = s.hostCfg := rfl
@[simp] theorem State.advanced_moves (s : State) : (s.advanced).moves = s.moves := rfl
@[simp] theorem State.advanced_openAns (s : State) : (s.advanced).openAns = s.openAns := rfl
@[simp] theorem State.advanced_sendAns (s : State) : (s.advanced).sendAns = s.sendAns := rfl
@[simp] theorem State.advanced_rx (s : State) : (s.advanced).rx = s.rx := rfl
@[simp] theorem State.advanced_src (s : State) : (s.advanced).src = s.src := rfl
@[simp] theorem State.advanced_dev (s : State) : (s.advanced).dev = s.dev := rfl
@[simp] theorem State.advanced_trace (s : State) : (s.advanced).trace = s.trace := rfl

/-! ### State.sampled -/

@[simp] theorem State.sampled_cfgPort (s : State) : (s.sampled).cfgPort = s.hostCfg.port := rfl
@[simp] theorem State.sampled_cfgBaud (s : State) : (s.sampled).cfgBaud = s.hostCfg.baud.getD s.params.baudDefault := rfl
@[simp] theorem State.sampled_cfgSkipProg (s : State) : (s.sampled).cfgSkipProg = s.hostCfg.skipProg := rfl
@[simp] theorem State.sampled_cfgSendGo (s : State) : (s.sampled).cfgSendGo = s.hostCfg.sendGo := rfl
@[simp] theorem State.sampled_totalBytes (s : State) : (s.sampled).totalBytes = s.hostCfg.totalBytes := rfl
@[simp] theorem State.sampled_seq (s : State) : (s.sampled).seq = s.seq := rfl
@[simp] theorem State.sampled_run (s : State) : (s.sampled).run = s.run := rfl
@[simp] theorem State.sampled_linkOpen (s : State) : (s.sampled).linkOpen = s.linkOpen := rfl
@[simp] theorem State.sampled_done (s : State) : (s.sampled).done = s.done := rfl
@[simp] theorem State.sampled_err (s : State) : (s.sampled).err = s.err := rfl
@[simp] theorem State.sampled_errCode (s : State) : (s.sampled).errCode = s.errCode := rfl
@[simp] theorem State.sampled_failStep (s : State) : (s.sampled).failStep = s.failStep := rfl
@[simp] theorem State.sampled_call (s : State) : (s.sampled).call = s.call := rfl
@[simp] theorem State.sampled_blMajor (s : State) : (s.sampled).blMajor = s.blMajor := rfl
@[simp] theorem State.sampled_blMinor (s : State) : (s.sampled).blMinor = s.blMinor := rfl
@[simp] theorem State.sampled_verValid (s : State) : (s.sampled).verValid = s.verValid := rfl
@[simp] theorem State.sampled_chipId (s : State) : (s.sampled).chipId = s.chipId := rfl
@[simp] theorem State.sampled_idValid (s : State) : (s.sampled).idValid = s.idValid := rfl
@[simp] theorem State.sampled_bytesWritten (s : State) : (s.sampled).bytesWritten = s.bytesWritten := rfl
@[simp] theorem State.sampled_curAddr (s : State) : (s.sampled).curAddr = s.curAddr := rfl
@[simp] theorem State.sampled_syncFails (s : State) : (s.sampled).syncFails = s.syncFails := rfl
@[simp] theorem State.sampled_nextPct (s : State) : (s.sampled).nextPct = s.nextPct := rfl
@[simp] theorem State.sampled_cksum (s : State) : (s.sampled).cksum = s.cksum := rfl
@[simp] theorem State.sampled_chunkBuf (s : State) : (s.sampled).chunkBuf = s.chunkBuf := rfl
@[simp] theorem State.sampled_chunkLen (s : State) : (s.sampled).chunkLen = s.chunkLen := rfl
@[simp] theorem State.sampled_params (s : State) : (s.sampled).params = s.params := rfl
@[simp] theorem State.sampled_line (s : State) : (s.sampled).line = s.line := rfl
@[simp] theorem State.sampled_phase (s : State) : (s.sampled).phase = s.phase := rfl
@[simp] theorem State.sampled_payload (s : State) : (s.sampled).payload = s.payload := rfl
@[simp] theorem State.sampled_remain (s : State) : (s.sampled).remain = s.remain := rfl
@[simp] theorem State.sampled_hostCfg (s : State) : (s.sampled).hostCfg = s.hostCfg := rfl
@[simp] theorem State.sampled_moves (s : State) : (s.sampled).moves = s.moves := rfl
@[simp] theorem State.sampled_openAns (s : State) : (s.sampled).openAns = s.openAns := rfl
@[simp] theorem State.sampled_sendAns (s : State) : (s.sampled).sendAns = s.sendAns := rfl
@[simp] theorem State.sampled_rx (s : State) : (s.sampled).rx = s.rx := rfl
@[simp] theorem State.sampled_src (s : State) : (s.sampled).src = s.src := rfl
@[simp] theorem State.sampled_dev (s : State) : (s.sampled).dev = s.dev := rfl
@[simp] theorem State.sampled_trace (s : State) : (s.sampled).trace = s.trace := rfl

/-! ### State.endCall -/

@[simp] theorem State.endCall_cfgPort (s : State) : (s.endCall).cfgPort = s.cfgPort := rfl
@[simp] theorem State.endCall_cfgBaud (s : State) : (s.endCall).cfgBaud = s.cfgBaud := rfl
@[simp] theorem State.endCall_cfgSkipProg (s : State) : (s.endCall).cfgSkipProg = s.cfgSkipProg := rfl
@[simp] theorem State.endCall_cfgSendGo (s : State) : (s.endCall).cfgSendGo = s.cfgSendGo := rfl
@[simp] theorem State.endCall_totalBytes (s : State) : (s.endCall).totalBytes = s.totalBytes := rfl
@[simp] theorem State.endCall_seq (s : State) : (s.endCall).seq = s.seq := rfl
@[simp] theorem State.endCall_run (s : State) : (s.endCall).run = s.run := rfl
@[simp] theorem State.endCall_linkOpen (s : State) : (s.endCall).linkOpen = s.linkOpen := rfl
@[simp] theorem State.endCall_done (s : State) : (s.endCall).done = s.done := rfl
@[simp] theorem State.endCall_err (s : State) : (s.endCall).err = s.err := rfl
@[simp] theorem State.endCall_errCode (s : State) : (s.endCall).errCode = s.errCode := rfl
@[simp] theorem State.endCall_failStep (s : State) : (s.endCall).failStep = s.failStep := rfl
@[simp] theorem State.endCall_call (s : State) : (s.endCall).call = s.call := rfl
@[simp] theorem State.endCall_blMajor (s : State) : (s.endCall).blMajor = s.blMajor := rfl
@[simp] theorem State.endCall_blMinor (s : State) : (s.endCall).blMinor = s.blMinor := rfl
@[simp] theorem State.endCall_verValid (s : State) : (s.endCall).verValid = s.verValid := rfl
@[simp] theorem State.endCall_chipId (s : State) : (s.endCall).chipId = s.chipId := rfl
@[simp] theorem State.endCall_idValid (s : State) : (s.endCall).idValid = s.idValid := rfl
@[simp] theorem State.endCall_bytesWritten (s : State) : (s.endCall).bytesWritten = s.bytesWritten := rfl
@[simp] theorem State.endCall_curAddr (s : State) : (s.endCall).curAddr = s.curAddr := rfl
@[simp] theorem State.endCall_syncFails (s : State) : (s.endCall).syncFails = s.syncFails := rfl
@[simp] theorem State.endCall_nextPct (s : State) : (s.endCall).nextPct = s.nextPct := rfl
@[simp] theorem State.endCall_cksum (s : State) : (s.endCall).cksum = s.cksum := rfl
@[simp] theorem State.endCall_chunkBuf (s : State) : (s.endCall).chunkBuf = s.chunkBuf := rfl
@[simp] theorem State.endCall_chunkLen (s : State) : (s.endCall).chunkLen = s.chunkLen := rfl
@[simp] theorem State.endCall_params (s : State) : (s.endCall).params = s.params := rfl
@[simp] theorem State.endCall_line (s : State) : (s.endCall).line = s.line := rfl
@[simp] theorem State.endCall_phase (s : State) : (s.endCall).phase = [] := rfl
@[simp] theorem State.endCall_payload (s : State) : (s.endCall).payload = [] := rfl
@[simp] theorem State.endCall_remain (s : State) : (s.endCall).remain = 0 := rfl
@[simp] theorem State.endCall_hostCfg (s : State) : (s.endCall).hostCfg = s.hostCfg := rfl
@[simp] theorem State.endCall_moves (s : State) : (s.endCall).moves = s.moves := rfl
@[simp] theorem State.endCall_openAns (s : State) : (s.endCall).openAns = s.openAns := rfl
@[simp] theorem State.endCall_sendAns (s : State) : (s.endCall).sendAns = s.sendAns := rfl
@[simp] theorem State.endCall_rx (s : State) : (s.endCall).rx = s.rx := rfl
@[simp] theorem State.endCall_src (s : State) : (s.endCall).src = s.src := rfl
@[simp] theorem State.endCall_dev (s : State) : (s.endCall).dev = s.dev := rfl
@[simp] theorem State.endCall_trace (s : State) : (s.endCall).trace = s.trace := rfl

/-! ### State.beginCall -/

@[simp] theorem State.beginCall_cfgPort (s : State) (c : CallSite) : (s.beginCall c).cfgPort = s.cfgPort := rfl
@[simp] theorem State.beginCall_cfgBaud (s : State) (c : CallSite) : (s.beginCall c).cfgBaud = s.cfgBaud := rfl
@[simp] theorem State.beginCall_cfgSkipProg (s : State) (c : CallSite) : (s.beginCall c).cfgSkipProg = s.cfgSkipProg := rfl
@[simp] theorem State.beginCall_cfgSendGo (s : State) (c : CallSite) : (s.beginCall c).cfgSendGo = s.cfgSendGo := rfl
@[simp] theorem State.beginCall_totalBytes (s : State) (c : CallSite) : (s.beginCall c).totalBytes = s.totalBytes := rfl
@[simp] theorem State.beginCall_seq (s : State) (c : CallSite) : (s.beginCall c).seq = s.seq := rfl
@[simp] theorem State.beginCall_run (s : State) (c : CallSite) : (s.beginCall c).run = s.run := rfl
@[simp] theorem State.beginCall_linkOpen (s : State) (c : CallSite) : (s.beginCall c).linkOpen = s.linkOpen := rfl
@[simp] theorem State.beginCall_done (s : State) (c : CallSite) : (s.beginCall c).done = s.done := rfl
@[simp] theorem State.beginCall_err (s : State) (c : CallSite) : (s.beginCall c).err = s.err := rfl
@[simp] theorem State.beginCall_errCode (s : State) (c : CallSite) : (s.beginCall c).errCode = s.errCode := rfl
@[simp] theorem State.beginCall_failStep (s : State) (c : CallSite) : (s.beginCall c).failStep = s.failStep := rfl
@[simp] theorem State.beginCall_call (s : State) (c : CallSite) : (s.beginCall c).call = .idle := rfl
@[simp] theorem State.beginCall_blMajor (s : State) (c : CallSite) : (s.beginCall c).blMajor = s.blMajor := rfl
@[simp] theorem State.beginCall_blMinor (s : State) (c : CallSite) : (s.beginCall c).blMinor = s.blMinor := rfl
@[simp] theorem State.beginCall_verValid (s : State) (c : CallSite) : (s.beginCall c).verValid = s.verValid := rfl
@[simp] theorem State.beginCall_chipId (s : State) (c : CallSite) : (s.beginCall c).chipId = s.chipId := rfl
@[simp] theorem State.beginCall_idValid (s : State) (c : CallSite) : (s.beginCall c).idValid = s.idValid := rfl
@[simp] theorem State.beginCall_bytesWritten (s : State) (c : CallSite) : (s.beginCall c).bytesWritten = s.bytesWritten := rfl
@[simp] theorem State.beginCall_curAddr (s : State) (c : CallSite) : (s.beginCall c).curAddr = s.curAddr := rfl
@[simp] theorem State.beginCall_syncFails (s : State) (c : CallSite) : (s.beginCall c).syncFails = s.syncFails := rfl
@[simp] theorem State.beginCall_nextPct (s : State) (c : CallSite) : (s.beginCall c).nextPct = s.nextPct := rfl
@[simp] theorem State.beginCall_cksum (s : State) (c : CallSite) : (s.beginCall c).cksum = s.cksum := rfl
@[simp] theorem State.beginCall_chunkBuf (s : State) (c : CallSite) : (s.beginCall c).chunkBuf = s.chunkBuf := rfl
@[simp] theorem State.beginCall_chunkLen (s : State) (c : CallSite) : (s.beginCall c).chunkLen = s.chunkLen := rfl
@[simp] theorem State.beginCall_params (s : State) (c : CallSite) : (s.beginCall c).params = s.params := rfl
@[simp] theorem State.beginCall_line (s : State) (c : CallSite) : (s.beginCall c).line = .call c := rfl
@[simp] theorem State.beginCall_phase (s : State) (c : CallSite) : (s.beginCall c).phase = [] := rfl
@[simp] theorem State.beginCall_payload (s : State) (c : CallSite) : (s.beginCall c).payload = [] := rfl
@[simp] theorem State.beginCall_remain (s : State) (c : CallSite) : (s.beginCall c).remain = 0 := rfl
@[simp] theorem State.beginCall_hostCfg (s : State) (c : CallSite) : (s.beginCall c).hostCfg = s.hostCfg := rfl
@[simp] theorem State.beginCall_moves (s : State) (c : CallSite) : (s.beginCall c).moves = s.moves := rfl
@[simp] theorem State.beginCall_openAns (s : State) (c : CallSite) : (s.beginCall c).openAns = s.openAns := rfl
@[simp] theorem State.beginCall_sendAns (s : State) (c : CallSite) : (s.beginCall c).sendAns = s.sendAns := rfl
@[simp] theorem State.beginCall_rx (s : State) (c : CallSite) : (s.beginCall c).rx = s.rx := rfl
@[simp] theorem State.beginCall_src (s : State) (c : CallSite) : (s.beginCall c).src = s.src := rfl
@[simp] theorem State.beginCall_dev (s : State) (c : CallSite) : (s.beginCall c).dev = s.dev := rfl
@[simp] theorem State.beginCall_trace (s : State) (c : CallSite) : (s.beginCall c).trace = s.trace := rfl

/-! ### State.sent -/

@[simp] theorem State.sent_cfgPort (s : State) (f : Frame) : (s.sent f).cfgPort = s.cfgPort := rfl
@[simp] theorem State.sent_cfgBaud (s : State) (f : Frame) : (s.sent f).cfgBaud = s.cfgBaud := rfl
@[simp] theorem State.sent_cfgSkipProg (s : State) (f : Frame) : (s.sent f).cfgSkipProg = s.cfgSkipProg := rfl
@[simp] theorem State.sent_cfgSendGo (s : State) (f : Frame) : (s.sent f).cfgSendGo = s.cfgSendGo := rfl
@[simp] theorem State.sent_totalBytes (s : State) (f : Frame) : (s.sent f).totalBytes = s.totalBytes := rfl
@[simp] theorem State.sent_seq (s : State) (f : Frame) : (s.sent f).seq = s.seq := rfl
@[simp] theorem State.sent_run (s : State) (f : Frame) : (s.sent f).run = s.run := rfl
@[simp] theorem State.sent_linkOpen (s : State) (f : Frame) : (s.sent f).linkOpen = s.linkOpen := rfl
@[simp] theorem State.sent_done (s : State) (f : Frame) : (s.sent f).done = s.done := rfl
@[simp] theorem State.sent_err (s : State) (f : Frame) : (s.sent f).err = s.err := rfl
@[simp] theorem State.sent_errCode (s : State) (f : Frame) : (s.sent f).errCode = s.errCode := rfl
@[simp] theorem State.sent_failStep (s : State) (f : Frame) : (s.sent f).failStep = s.failStep := rfl
@[simp] theorem State.sent_call (s : State) (f : Frame) : (s.sent f).call = s.call := rfl
@[simp] theorem State.sent_blMajor (s : State) (f : Frame) : (s.sent f).blMajor = s.blMajor := rfl
@[simp] theorem State.sent_blMinor (s : State) (f : Frame) : (s.sent f).blMinor = s.blMinor := rfl
@[simp] theorem State.sent_verValid (s : State) (f : Frame) : (s.sent f).verValid = s.verValid := rfl
@[simp] theorem State.sent_chipId (s : State) (f : Frame) : (s.sent f).chipId = s.chipId := rfl
@[simp] theorem State.sent_idValid (s : State) (f : Frame) : (s.sent f).idValid = s.idValid := rfl
@[simp] theorem State.sent_bytesWritten (s : State) (f : Frame) : (s.sent f).bytesWritten = s.bytesWritten := rfl
@[simp] theorem State.sent_curAddr (s : State) (f : Frame) : (s.sent f).curAddr = s.curAddr := rfl
@[simp] theorem State.sent_syncFails (s : State) (f : Frame) : (s.sent f).syncFails = s.syncFails := rfl
@[simp] theorem State.sent_nextPct (s : State) (f : Frame) : (s.sent f).nextPct = s.nextPct := rfl
@[simp] theorem State.sent_cksum (s : State) (f : Frame) : (s.sent f).cksum = f.cksum s.cksum := rfl
@[simp] theorem State.sent_chunkBuf (s : State) (f : Frame) : (s.sent f).chunkBuf = s.chunkBuf := rfl
@[simp] theorem State.sent_chunkLen (s : State) (f : Frame) : (s.sent f).chunkLen = s.chunkLen := rfl
@[simp] theorem State.sent_params (s : State) (f : Frame) : (s.sent f).params = s.params := rfl
@[simp] theorem State.sent_line (s : State) (f : Frame) : (s.sent f).line = s.line := rfl
@[simp] theorem State.sent_phase (s : State) (f : Frame) : (s.sent f).phase = s.phase := rfl
@[simp] theorem State.sent_payload (s : State) (f : Frame) : (s.sent f).payload = s.payload := rfl
@[simp] theorem State.sent_remain (s : State) (f : Frame) : (s.sent f).remain = s.remain := rfl
@[simp] theorem State.sent_hostCfg (s : State) (f : Frame) : (s.sent f).hostCfg = s.hostCfg := rfl
@[simp] theorem State.sent_moves (s : State) (f : Frame) : (s.sent f).moves = s.moves := rfl
@[simp] theorem State.sent_openAns (s : State) (f : Frame) : (s.sent f).openAns = s.openAns := rfl
@[simp] theorem State.sent_sendAns (s : State) (f : Frame) : (s.sent f).sendAns = s.sendAns.tail := rfl
@[simp] theorem State.sent_rx (s : State) (f : Frame) : (s.sent f).rx = s.rx := rfl
@[simp] theorem State.sent_src (s : State) (f : Frame) : (s.sent f).src = s.src := rfl
@[simp] theorem State.sent_dev (s : State) (f : Frame) : (s.sent f).dev = s.dev := rfl
@[simp] theorem State.sent_trace (s : State) (f : Frame) : (s.sent f).trace = s.trace ++ [.tx (f.bytes s.params) (nextAnswer s.sendAns)] := rfl

/-! ### State.received -/

@[simp] theorem State.received_cfgPort (s : State) (a : RxAnswer) : (s.received a).cfgPort = s.cfgPort := rfl
@[simp] theorem State.received_cfgBaud (s : State) (a : RxAnswer) : (s.received a).cfgBaud = s.cfgBaud := rfl
@[simp] theorem State.received_cfgSkipProg (s : State) (a : RxAnswer) : (s.received a).cfgSkipProg = s.cfgSkipProg := rfl
@[simp] theorem State.received_cfgSendGo (s : State) (a : RxAnswer) : (s.received a).cfgSendGo = s.cfgSendGo := rfl
@[simp] theorem State.received_totalBytes (s : State) (a : RxAnswer) : (s.received a).totalBytes = s.totalBytes := rfl
@[simp] theorem State.received_seq (s : State) (a : RxAnswer) : (s.received a).seq = s.seq := rfl
@[simp] theorem State.received_run (s : State) (a : RxAnswer) : (s.received a).run = s.run := rfl
@[simp] theorem State.received_linkOpen (s : State) (a : RxAnswer) : (s.received a).linkOpen = s.linkOpen := rfl
@[simp] theorem State.received_done (s : State) (a : RxAnswer) : (s.received a).done = s.done := rfl
@[simp] theorem State.received_err (s : State) (a : RxAnswer) : (s.received a).err = s.err := rfl
@[simp] theorem State.received_errCode (s : State) (a : RxAnswer) : (s.received a).errCode = s.errCode := rfl
@[simp] theorem State.received_failStep (s : State) (a : RxAnswer) : (s.received a).failStep = s.failStep := rfl
@[simp] theorem State.received_call (s : State) (a : RxAnswer) : (s.received a).call = .awaitingAck := rfl
@[simp] theorem State.received_blMajor (s : State) (a : RxAnswer) : (s.received a).blMajor = s.blMajor := rfl
@[simp] theorem State.received_blMinor (s : State) (a : RxAnswer) : (s.received a).blMinor = s.blMinor := rfl
@[simp] theorem State.received_verValid (s : State) (a : RxAnswer) : (s.received a).verValid = s.verValid := rfl
@[simp] theorem State.received_chipId (s : State) (a : RxAnswer) : (s.received a).chipId = s.chipId := rfl
@[simp] theorem State.received_idValid (s : State) (a : RxAnswer) : (s.received a).idValid = s.idValid := rfl
@[simp] theorem State.received_bytesWritten (s : State) (a : RxAnswer) : (s.received a).bytesWritten = s.bytesWritten := rfl
@[simp] theorem State.received_curAddr (s : State) (a : RxAnswer) : (s.received a).curAddr = s.curAddr := rfl
@[simp] theorem State.received_syncFails (s : State) (a : RxAnswer) : (s.received a).syncFails = s.syncFails := rfl
@[simp] theorem State.received_nextPct (s : State) (a : RxAnswer) : (s.received a).nextPct = s.nextPct := rfl
@[simp] theorem State.received_cksum (s : State) (a : RxAnswer) : (s.received a).cksum = s.cksum := rfl
@[simp] theorem State.received_chunkBuf (s : State) (a : RxAnswer) : (s.received a).chunkBuf = s.chunkBuf := rfl
@[simp] theorem State.received_chunkLen (s : State) (a : RxAnswer) : (s.received a).chunkLen = s.chunkLen := rfl
@[simp] theorem State.received_params (s : State) (a : RxAnswer) : (s.received a).params = s.params := rfl
@[simp] theorem State.received_line (s : State) (a : RxAnswer) : (s.received a).line = s.line := rfl
@[simp] theorem State.received_phase (s : State) (a : RxAnswer) : (s.received a).phase = s.phase := rfl
@[simp] theorem State.received_payload (s : State) (a : RxAnswer) : (s.received a).payload = s.payload := rfl
@[simp] theorem State.received_remain (s : State) (a : RxAnswer) : (s.received a).remain = s.remain := rfl
@[simp] theorem State.received_hostCfg (s : State) (a : RxAnswer) : (s.received a).hostCfg = s.hostCfg := rfl
@[simp] theorem State.received_moves (s : State) (a : RxAnswer) : (s.received a).moves = s.moves := rfl
@[simp] theorem State.received_openAns (s : State) (a : RxAnswer) : (s.received a).openAns = s.openAns := rfl
@[simp] theorem State.received_sendAns (s : State) (a : RxAnswer) : (s.received a).sendAns = s.sendAns := rfl
@[simp] theorem State.received_rx (s : State) (a : RxAnswer) : (s.received a).rx = s.rx.tail := rfl
@[simp] theorem State.received_src (s : State) (a : RxAnswer) : (s.received a).src = s.src := rfl
@[simp] theorem State.received_dev (s : State) (a : RxAnswer) : (s.received a).dev = s.dev := rfl
@[simp] theorem State.received_trace (s : State) (a : RxAnswer) : (s.received a).trace = s.trace ++ [.rx a] := rfl

/-! ### State.answeredBy -/

@[simp] theorem State.answeredBy_cfgPort (s : State) (bs : List Byte) : (s.answeredBy bs).cfgPort = s.cfgPort := rfl
@[simp] theorem State.answeredBy_cfgBaud (s : State) (bs : List Byte) : (s.answeredBy bs).cfgBaud = s.cfgBaud := rfl
@[simp] theorem State.answeredBy_cfgSkipProg (s : State) (bs : List Byte) : (s.answeredBy bs).cfgSkipProg = s.cfgSkipProg := rfl
@[simp] theorem State.answeredBy_cfgSendGo (s : State) (bs : List Byte) : (s.answeredBy bs).cfgSendGo = s.cfgSendGo := rfl
@[simp] theorem State.answeredBy_totalBytes (s : State) (bs : List Byte) : (s.answeredBy bs).totalBytes = s.totalBytes := rfl
@[simp] theorem State.answeredBy_seq (s : State) (bs : List Byte) : (s.answeredBy bs).seq = s.seq := rfl
@[simp] theorem State.answeredBy_run (s : State) (bs : List Byte) : (s.answeredBy bs).run = s.run := rfl
@[simp] theorem State.answeredBy_linkOpen (s : State) (bs : List Byte) : (s.answeredBy bs).linkOpen = s.linkOpen := rfl
@[simp] theorem State.answeredBy_done (s : State) (bs : List Byte) : (s.answeredBy bs).done = s.done := rfl
@[simp] theorem State.answeredBy_err (s : State) (bs : List Byte) : (s.answeredBy bs).err = s.err := rfl
@[simp] theorem State.answeredBy_errCode (s : State) (bs : List Byte) : (s.answeredBy bs).errCode = s.errCode := rfl
@[simp] theorem State.answeredBy_failStep (s : State) (bs : List Byte) : (s.answeredBy bs).failStep = s.failStep := rfl
@[simp] theorem State.answeredBy_call (s : State) (bs : List Byte) : (s.answeredBy bs).call = s.call := rfl
@[simp] theorem State.answeredBy_blMajor (s : State) (bs : List Byte) : (s.answeredBy bs).blMajor = s.blMajor := rfl
@[simp] theorem State.answeredBy_blMinor (s : State) (bs : List Byte) : (s.answeredBy bs).blMinor = s.blMinor := rfl
@[simp] theorem State.answeredBy_verValid (s : State) (bs : List Byte) : (s.answeredBy bs).verValid = s.verValid := rfl
@[simp] theorem State.answeredBy_chipId (s : State) (bs : List Byte) : (s.answeredBy bs).chipId = s.chipId := rfl
@[simp] theorem State.answeredBy_idValid (s : State) (bs : List Byte) : (s.answeredBy bs).idValid = s.idValid := rfl
@[simp] theorem State.answeredBy_bytesWritten (s : State) (bs : List Byte) : (s.answeredBy bs).bytesWritten = s.bytesWritten := rfl
@[simp] theorem State.answeredBy_curAddr (s : State) (bs : List Byte) : (s.answeredBy bs).curAddr = s.curAddr := rfl
@[simp] theorem State.answeredBy_syncFails (s : State) (bs : List Byte) : (s.answeredBy bs).syncFails = s.syncFails := rfl
@[simp] theorem State.answeredBy_nextPct (s : State) (bs : List Byte) : (s.answeredBy bs).nextPct = s.nextPct := rfl
@[simp] theorem State.answeredBy_cksum (s : State) (bs : List Byte) : (s.answeredBy bs).cksum = s.cksum := rfl
@[simp] theorem State.answeredBy_chunkBuf (s : State) (bs : List Byte) : (s.answeredBy bs).chunkBuf = s.chunkBuf := rfl
@[simp] theorem State.answeredBy_chunkLen (s : State) (bs : List Byte) : (s.answeredBy bs).chunkLen = s.chunkLen := rfl
@[simp] theorem State.answeredBy_params (s : State) (bs : List Byte) : (s.answeredBy bs).params = s.params := rfl
@[simp] theorem State.answeredBy_line (s : State) (bs : List Byte) : (s.answeredBy bs).line = s.line := rfl
@[simp] theorem State.answeredBy_phase (s : State) (bs : List Byte) : (s.answeredBy bs).phase = s.phase := rfl
@[simp] theorem State.answeredBy_payload (s : State) (bs : List Byte) : (s.answeredBy bs).payload = s.payload := rfl
@[simp] theorem State.answeredBy_remain (s : State) (bs : List Byte) : (s.answeredBy bs).remain = s.remain := rfl
@[simp] theorem State.answeredBy_hostCfg (s : State) (bs : List Byte) : (s.answeredBy bs).hostCfg = s.hostCfg := rfl
@[simp] theorem State.answeredBy_moves (s : State) (bs : List Byte) : (s.answeredBy bs).moves = s.moves := rfl
@[simp] theorem State.answeredBy_openAns (s : State) (bs : List Byte) : (s.answeredBy bs).openAns = s.openAns := rfl
@[simp] theorem State.answeredBy_sendAns (s : State) (bs : List Byte) : (s.answeredBy bs).sendAns = s.sendAns := rfl
@[simp] theorem State.answeredBy_rx (s : State) (bs : List Byte) : (s.answeredBy bs).rx = bs.map .byte ++ s.rx := rfl
@[simp] theorem State.answeredBy_src (s : State) (bs : List Byte) : (s.answeredBy bs).src = s.src := rfl
@[simp] theorem State.answeredBy_dev (s : State) (bs : List Byte) : (s.answeredBy bs).dev = s.dev := rfl
@[simp] theorem State.answeredBy_trace (s : State) (bs : List Byte) : (s.answeredBy bs).trace = s.trace := rfl

/-! ### State.storeChunk -/

@[simp] theorem State.storeChunk_cfgPort (s : State) (bs : List Byte) : (s.storeChunk bs).cfgPort = s.cfgPort := rfl
@[simp] theorem State.storeChunk_cfgBaud (s : State) (bs : List Byte) : (s.storeChunk bs).cfgBaud = s.cfgBaud := rfl
@[simp] theorem State.storeChunk_cfgSkipProg (s : State) (bs : List Byte) : (s.storeChunk bs).cfgSkipProg = s.cfgSkipProg := rfl
@[simp] theorem State.storeChunk_cfgSendGo (s : State) (bs : List Byte) : (s.storeChunk bs).cfgSendGo = s.cfgSendGo := rfl
@[simp] theorem State.storeChunk_totalBytes (s : State) (bs : List Byte) : (s.storeChunk bs).totalBytes = s.totalBytes := rfl
@[simp] theorem State.storeChunk_seq (s : State) (bs : List Byte) : (s.storeChunk bs).seq = s.seq := rfl
@[simp] theorem State.storeChunk_run (s : State) (bs : List Byte) : (s.storeChunk bs).run = s.run := rfl
@[simp] theorem State.storeChunk_linkOpen (s : State) (bs : List Byte) : (s.storeChunk bs).linkOpen = s.linkOpen := rfl
@[simp] theorem State.storeChunk_done (s : State) (bs : List Byte) : (s.storeChunk bs).done = s.done := rfl
@[simp] theorem State.storeChunk_err (s : State) (bs : List Byte) : (s.storeChunk bs).err = s.err := rfl
@[simp] theorem State.storeChunk_errCode (s : State) (bs : List Byte) : (s.storeChunk bs).errCode = s.errCode := rfl
@[simp] theorem State.storeChunk_failStep (s : State) (bs : List Byte) : (s.storeChunk bs).failStep = s.failStep := rfl
@[simp] theorem State.storeChunk_call (s : State) (bs : List Byte) : (s.storeChunk bs).call = s.call := rfl
@[simp] theorem State.storeChunk_blMajor (s : State) (bs : List Byte) : (s.storeChunk bs).blMajor = s.blMajor := rfl
@[simp] theorem State.storeChunk_blMinor (s : State) (bs : List Byte) : (s.storeChunk bs).blMinor = s.blMinor := rfl
@[simp] theorem State.storeChunk_verValid (s : State) (bs : List Byte) : (s.storeChunk bs).verValid = s.verValid := rfl
@[simp] theorem State.storeChunk_chipId (s : State) (bs : List Byte) : (s.storeChunk bs).chipId = s.chipId := rfl
@[simp] theorem State.storeChunk_idValid (s : State) (bs : List Byte) : (s.storeChunk bs).idValid = s.idValid := rfl
@[simp] theorem State.storeChunk_bytesWritten (s : State) (bs : List Byte) : (s.storeChunk bs).bytesWritten = s.bytesWritten := rfl
@[simp] theorem State.storeChunk_curAddr (s : State) (bs : List Byte) : (s.storeChunk bs).curAddr = s.curAddr := rfl
@[simp] theorem State.storeChunk_syncFails (s : State) (bs : List Byte) : (s.storeChunk bs).syncFails = s.syncFails := rfl
@[simp] theorem State.storeChunk_nextPct (s : State) (bs : List Byte) : (s.storeChunk bs).nextPct = s.nextPct := rfl
@[simp] theorem State.storeChunk_cksum (s : State) (bs : List Byte) : (s.storeChunk bs).cksum = s.cksum := rfl
@[simp] theorem State.storeChunk_chunkBuf (s : State) (bs : List Byte) : (s.storeChunk bs).chunkBuf = bs ++ s.chunkBuf.drop bs.length := rfl
@[simp] theorem State.storeChunk_chunkLen (s : State) (bs : List Byte) : (s.storeChunk bs).chunkLen = bs.length := rfl
@[simp] theorem State.storeChunk_params (s : State) (bs : List Byte) : (s.storeChunk bs).params = s.params := rfl
@[simp] theorem State.storeChunk_line (s : State) (bs : List Byte) : (s.storeChunk bs).line = s.line := rfl
@[simp] theorem State.storeChunk_phase (s : State) (bs : List Byte) : (s.storeChunk bs).phase = s.phase := rfl
@[simp] theorem State.storeChunk_payload (s : State) (bs : List Byte) : (s.storeChunk bs).payload = s.payload := rfl
@[simp] theorem State.storeChunk_remain (s : State) (bs : List Byte) : (s.storeChunk bs).remain = s.remain := rfl
@[simp] theorem State.storeChunk_hostCfg (s : State) (bs : List Byte) : (s.storeChunk bs).hostCfg = s.hostCfg := rfl
@[simp] theorem State.storeChunk_moves (s : State) (bs : List Byte) : (s.storeChunk bs).moves = s.moves := rfl
@[simp] theorem State.storeChunk_openAns (s : State) (bs : List Byte) : (s.storeChunk bs).openAns = s.openAns := rfl
@[simp] theorem State.storeChunk_sendAns (s : State) (bs : List Byte) : (s.storeChunk bs).sendAns = s.sendAns := rfl
@[simp] theorem State.storeChunk_rx (s : State) (bs : List Byte) : (s.storeChunk bs).rx = s.rx := rfl
@[simp] theorem State.storeChunk_src (s : State) (bs : List Byte) : (s.storeChunk bs).src = s.src := rfl
@[simp] theorem State.storeChunk_dev (s : State) (bs : List Byte) : (s.storeChunk bs).dev = s.dev := rfl
@[simp] theorem State.storeChunk_trace (s : State) (bs : List Byte) : (s.storeChunk bs).trace = s.trace := rfl

/-! ### State.tookPayload -/

@[simp] theorem State.tookPayload_cfgPort (s : State) (bs : List Byte) : (s.tookPayload bs).cfgPort = s.cfgPort := rfl
@[simp] theorem State.tookPayload_cfgBaud (s : State) (bs : List Byte) : (s.tookPayload bs).cfgBaud = s.cfgBaud := rfl
@[simp] theorem State.tookPayload_cfgSkipProg (s : State) (bs : List Byte) : (s.tookPayload bs).cfgSkipProg = s.cfgSkipProg := rfl
@[simp] theorem State.tookPayload_cfgSendGo (s : State) (bs : List Byte) : (s.tookPayload bs).cfgSendGo = s.cfgSendGo := rfl
@[simp] theorem State.tookPayload_totalBytes (s : State) (bs : List Byte) : (s.tookPayload bs).totalBytes = s.totalBytes := rfl
@[simp] theorem State.tookPayload_seq (s : State) (bs : List Byte) : (s.tookPayload bs).seq = s.seq := rfl
@[simp] theorem State.tookPayload_run (s : State) (bs : List Byte) : (s.tookPayload bs).run = s.run := rfl
@[simp] theorem State.tookPayload_linkOpen (s : State) (bs : List Byte) : (s.tookPayload bs).linkOpen = s.linkOpen := rfl
@[simp] theorem State.tookPayload_done (s : State) (bs : List Byte) : (s.tookPayload bs).done = s.done := rfl
@[simp] theorem State.tookPayload_err (s : State) (bs : List Byte) : (s.tookPayload bs).err = s.err := rfl
@[simp] theorem State.tookPayload_errCode (s : State) (bs : List Byte) : (s.tookPayload bs).errCode = s.errCode := rfl
@[simp] theorem State.tookPayload_failStep (s : State) (bs : List Byte) : (s.tookPayload bs).failStep = s.failStep := rfl
@[simp] theorem State.tookPayload_call (s : State) (bs : List Byte) : (s.tookPayload bs).call = .awaitingAck := rfl
@[simp] theorem State.tookPayload_blMajor (s : State) (bs : List Byte) : (s.tookPayload bs).blMajor = s.blMajor := rfl
@[simp] theorem State.tookPayload_blMinor (s : State) (bs : List Byte) : (s.tookPayload bs).blMinor = s.blMinor := rfl
@[simp] theorem State.tookPayload_verValid (s : State) (bs : List Byte) : (s.tookPayload bs).verValid = s.verValid := rfl
@[simp] theorem State.tookPayload_chipId (s : State) (bs : List Byte) : (s.tookPayload bs).chipId = s.chipId := rfl
@[simp] theorem State.tookPayload_idValid (s : State) (bs : List Byte) : (s.tookPayload bs).idValid = s.idValid := rfl
@[simp] theorem State.tookPayload_bytesWritten (s : State) (bs : List Byte) : (s.tookPayload bs).bytesWritten = s.bytesWritten := rfl
@[simp] theorem State.tookPayload_curAddr (s : State) (bs : List Byte) : (s.tookPayload bs).curAddr = s.curAddr := rfl
@[simp] theorem State.tookPayload_syncFails (s : State) (bs : List Byte) : (s.tookPayload bs).syncFails = s.syncFails := rfl
@[simp] theorem State.tookPayload_nextPct (s : State) (bs : List Byte) : (s.tookPayload bs).nextPct = s.nextPct := rfl
@[simp] theorem State.tookPayload_cksum (s : State) (bs : List Byte) : (s.tookPayload bs).cksum = s.cksum := rfl
@[simp] theorem State.tookPayload_chunkBuf (s : State) (bs : List Byte) : (s.tookPayload bs).chunkBuf = s.chunkBuf := rfl
@[simp] theorem State.tookPayload_chunkLen (s : State) (bs : List Byte) : (s.tookPayload bs).chunkLen = s.chunkLen := rfl
@[simp] theorem State.tookPayload_params (s : State) (bs : List Byte) : (s.tookPayload bs).params = s.params := rfl
@[simp] theorem State.tookPayload_line (s : State) (bs : List Byte) : (s.tookPayload bs).line = s.line := rfl
@[simp] theorem State.tookPayload_phase (s : State) (bs : List Byte) : (s.tookPayload bs).phase = s.phase := rfl
@[simp] theorem State.tookPayload_payload (s : State) (bs : List Byte) : (s.tookPayload bs).payload = s.payload ++ bs := rfl
@[simp] theorem State.tookPayload_remain (s : State) (bs : List Byte) : (s.tookPayload bs).remain = 0 := rfl
@[simp] theorem State.tookPayload_hostCfg (s : State) (bs : List Byte) : (s.tookPayload bs).hostCfg = s.hostCfg := rfl
@[simp] theorem State.tookPayload_moves (s : State) (bs : List Byte) : (s.tookPayload bs).moves = s.moves := rfl
@[simp] theorem State.tookPayload_openAns (s : State) (bs : List Byte) : (s.tookPayload bs).openAns = s.openAns := rfl
@[simp] theorem State.tookPayload_sendAns (s : State) (bs : List Byte) : (s.tookPayload bs).sendAns = s.sendAns := rfl
@[simp] theorem State.tookPayload_rx (s : State) (bs : List Byte) : (s.tookPayload bs).rx = s.rx.drop bs.length := rfl
@[simp] theorem State.tookPayload_src (s : State) (bs : List Byte) : (s.tookPayload bs).src = s.src := rfl
@[simp] theorem State.tookPayload_dev (s : State) (bs : List Byte) : (s.tookPayload bs).dev = s.dev := rfl
@[simp] theorem State.tookPayload_trace (s : State) (bs : List Byte) : (s.tookPayload bs).trace = s.trace ++ bs.map fun b => .rx (.byte b) := rfl

@[simp] theorem State.withPhase_withPhase (s : State) (xs ys : List Item) :
    (s.withPhase xs).withPhase ys = s.withPhase ys := rfl

/-! ### raise (R236) -/

/-- `raise`, field by field (R236). -/
theorem raise_eq (code : ErrCode) (step : FailStep) (s : State) :
    raise code step s =
      { s with
        errCode := code, failStep := step, linkOpen := false, err := true, run := false
        phase := [], payload := [], remain := 0
        trace := s.trace ++ closing s.linkOpen ++ [.haltErr code step] } := by
  cases s with
  | mk => unfold raise recordError closeLink State.emit; dsimp only; split <;> simp_all [closing]

@[simp] theorem raise_cfgPort (code : ErrCode) (step : FailStep) (s : State) :
    (raise code step s).cfgPort = s.cfgPort := by rw [raise_eq]
@[simp] theorem raise_cfgBaud (code : ErrCode) (step : FailStep) (s : State) :
    (raise code step s).cfgBaud = s.cfgBaud := by rw [raise_eq]
@[simp] theorem raise_cfgSkipProg (code : ErrCode) (step : FailStep) (s : State) :
    (raise code step s).cfgSkipProg = s.cfgSkipProg := by rw [raise_eq]
@[simp] theorem raise_cfgSendGo (code : ErrCode) (step : FailStep) (s : State) :
    (raise code step s).cfgSendGo = s.cfgSendGo := by rw [raise_eq]
@[simp] theorem raise_totalBytes (code : ErrCode) (step : FailStep) (s : State) :
    (raise code step s).totalBytes = s.totalBytes := by rw [raise_eq]
@[simp] theorem raise_seq (code : ErrCode) (step : FailStep) (s : State) :
    (raise code step s).seq = s.seq := by rw [raise_eq]
@[simp] theorem raise_run (code : ErrCode) (step : FailStep) (s : State) :
    (raise code step s).run = false := by rw [raise_eq]
@[simp] theorem raise_linkOpen (code : ErrCode) (step : FailStep) (s : State) :
    (raise code step s).linkOpen = false := by rw [raise_eq]
@[simp] theorem raise_done (code : ErrCode) (step : FailStep) (s : State) :
    (raise code step s).done = s.done := by rw [raise_eq]
@[simp] theorem raise_err (code : ErrCode) (step : FailStep) (s : State) :
    (raise code step s).err = true := by rw [raise_eq]
@[simp] theorem raise_errCode (code : ErrCode) (step : FailStep) (s : State) :
    (raise code step s).errCode = code := by rw [raise_eq]
@[simp] theorem raise_failStep (code : ErrCode) (step : FailStep) (s : State) :
    (raise code step s).failStep = step := by rw [raise_eq]
@[simp] theorem raise_call (code : ErrCode) (step : FailStep) (s : State) :
    (raise code step s).call = s.call := by rw [raise_eq]
@[simp] theorem raise_blMajor (code : ErrCode) (step : FailStep) (s : State) :
    (raise code step s).blMajor = s.blMajor := by rw [raise_eq]
@[simp] theorem raise_blMinor (code : ErrCode) (step : FailStep) (s : State) :
    (raise code step s).blMinor = s.blMinor := by rw [raise_eq]
@[simp] theorem raise_verValid (code : ErrCode) (step : FailStep) (s : State) :
    (raise code step s).verValid = s.verValid := by rw [raise_eq]
@[simp] theorem raise_chipId (code : ErrCode) (step : FailStep) (s : State) :
    (raise code step s).chipId = s.chipId := by rw [raise_eq]
@[simp] theorem raise_idValid (code : ErrCode) (step : FailStep) (s : State) :
    (raise code step s).idValid = s.idValid := by rw [raise_eq]
@[simp] theorem raise_bytesWritten (code : ErrCode) (step : FailStep) (s : State) :
    (raise code step s).bytesWritten = s.bytesWritten := by rw [raise_eq]
@[simp] theorem raise_curAddr (code : ErrCode) (step : FailStep) (s : State) :
    (raise code step s).curAddr = s.curAddr := by rw [raise_eq]
@[simp] theorem raise_syncFails (code : ErrCode) (step : FailStep) (s : State) :
    (raise code step s).syncFails = s.syncFails := by rw [raise_eq]
@[simp] theorem raise_nextPct (code : ErrCode) (step : FailStep) (s : State) :
    (raise code step s).nextPct = s.nextPct := by rw [raise_eq]
@[simp] theorem raise_cksum (code : ErrCode) (step : FailStep) (s : State) :
    (raise code step s).cksum = s.cksum := by rw [raise_eq]
@[simp] theorem raise_chunkBuf (code : ErrCode) (step : FailStep) (s : State) :
    (raise code step s).chunkBuf = s.chunkBuf := by rw [raise_eq]
@[simp] theorem raise_chunkLen (code : ErrCode) (step : FailStep) (s : State) :
    (raise code step s).chunkLen = s.chunkLen := by rw [raise_eq]
@[simp] theorem raise_params (code : ErrCode) (step : FailStep) (s : State) :
    (raise code step s).params = s.params := by rw [raise_eq]
@[simp] theorem raise_line (code : ErrCode) (step : FailStep) (s : State) :
    (raise code step s).line = s.line := by rw [raise_eq]
@[simp] theorem raise_phase (code : ErrCode) (step : FailStep) (s : State) :
    (raise code step s).phase = [] := by rw [raise_eq]
@[simp] theorem raise_payload (code : ErrCode) (step : FailStep) (s : State) :
    (raise code step s).payload = [] := by rw [raise_eq]
@[simp] theorem raise_remain (code : ErrCode) (step : FailStep) (s : State) :
    (raise code step s).remain = 0 := by rw [raise_eq]
@[simp] theorem raise_hostCfg (code : ErrCode) (step : FailStep) (s : State) :
    (raise code step s).hostCfg = s.hostCfg := by rw [raise_eq]
@[simp] theorem raise_moves (code : ErrCode) (step : FailStep) (s : State) :
    (raise code step s).moves = s.moves := by rw [raise_eq]
@[simp] theorem raise_openAns (code : ErrCode) (step : FailStep) (s : State) :
    (raise code step s).openAns = s.openAns := by rw [raise_eq]
@[simp] theorem raise_sendAns (code : ErrCode) (step : FailStep) (s : State) :
    (raise code step s).sendAns = s.sendAns := by rw [raise_eq]
@[simp] theorem raise_rx (code : ErrCode) (step : FailStep) (s : State) :
    (raise code step s).rx = s.rx := by rw [raise_eq]
@[simp] theorem raise_src (code : ErrCode) (step : FailStep) (s : State) :
    (raise code step s).src = s.src := by rw [raise_eq]
@[simp] theorem raise_dev (code : ErrCode) (step : FailStep) (s : State) :
    (raise code step s).dev = s.dev := by rw [raise_eq]
@[simp] theorem raise_trace (code : ErrCode) (step : FailStep) (s : State) :
    (raise code step s).trace = s.trace ++ closing s.linkOpen ++ [.haltErr code step] := by rw [raise_eq]

end Sys2Proof.Machine
end

