-- ==== Sys2Proof/Laws/Ops.lean ====
section
/-! SUPPORT. What each shared operation can do, said once. -/

namespace Sys2Proof.Machine

/-! ## The checksum unit -/

theorem cmpl_eq_not (b : Byte) : cmpl b = ~~~b := BitVec.xor_allOnes

theorem xorsumFrom_eq (a : Byte) (bs : List Byte) : xorsumFrom a bs = a ^^^ xorsum bs := by
  unfold xorsum
  induction bs generalizing a with
  | nil => simp [xorsumFrom]
  | cons b bs ih => simp only [xorsumFrom]; rw [ih, ih (0x00 ^^^ b)]; simp [BitVec.xor_assoc]

theorem xorsum_cons (b : Byte) (bs : List Byte) : xorsum (b :: bs) = b ^^^ xorsum bs := by
  rw [xorsum, xorsumFrom, xorsumFrom_eq]; simp

/-! ## The fatal abort -/

@[simp] theorem mem_closing {b : Bool} {e : Event} : e ∈ closing b ↔ b = true ∧ e = .close := by
  cases b <;> simp [closing]

/-! ## The primitives -/

theorem nextAnswer_cases (l : List LinkAnswer) : nextAnswer l = .ok ∨ nextAnswer l = .err := by
  cases nextAnswer l <;> simp

theorem trySend_ok {f : Frame} {s : State} (h : nextAnswer s.sendAns = .ok) : trySend f s = .done (s.sent f) := by
  simp [trySend, h]

theorem trySend_err {f : Frame} {s : State} (h : nextAnswer s.sendAns = .err) :
    trySend f s = .fail .transportError ((s.sent f).setCall .linkFailed) := by
  simp [trySend, h]

theorem recv_nil {s : State} (h : s.rx = []) (k : RxAnswer → State → Run) :
    recv s k = .wait (s.setCall .awaitingAck) := by
  simp [recv, h]

theorem recv_cons {s : State} {a : RxAnswer} {q : List RxAnswer} (h : s.rx = a :: q) (k : RxAnswer → State → Run) :
    recv s k = k a (s.received a) := by
  simp [recv, h]

@[simp] theorem decodeAck_ack (p : Params) : decodeAck p p.ackByte = .ack := by simp [decodeAck]

theorem decodeAck_nack {p : Params} (h : p.ackByte ≠ p.nackByte) : decodeAck p p.nackByte = .nack := by
  simp [decodeAck, Ne.symm h]

theorem decodeAck_eq_ack {p : Params} {b : Byte} : decodeAck p b = .ack ↔ b = p.ackByte := by
  unfold decodeAck
  split
  · simp [*]
  · split <;> simp_all

/-- An ACK is taken alike by ExpectAck and by SYNC. -/
theorem awaitAck_ack {s : State} {q : List RxAnswer} (h : s.rx = .byte s.params.ackByte :: q) :
    awaitAck s = .done ((s.received (.byte s.params.ackByte)).setCall .acked) := by
  unfold awaitAck
  rw [recv_cons h]
  unfold ackAnswer
  split <;> simp [syncAnswer, expectAnswer]

theorem recvData_byte {s : State} {b : Byte} {q : List RxAnswer} (h : s.rx = .byte b :: q)
    (k : Byte → State → Run) : recvData s k = k b (s.received (.byte b)) := by
  unfold recvData
  rw [recv_cons h]

/-- A payload that has come in whole is taken whole. -/
theorem recvMany_bytes (bs : List Byte) (hne : bs ≠ []) : ∀ (s : State) (q : List RxAnswer), s.rx = bs.map .byte ++ q →
    recvMany bs.length s = .done (s.tookPayload bs) := by
  induction bs with
  | nil => exact absurd rfl hne
  | cons b bs ih =>
    intro s q h
    have h' : (s.withRemain (bs.length + 1)).rx = .byte b :: (bs.map .byte ++ q) := by simpa using h
    simp only [List.length_cons, recvMany]
    rw [recvData_byte h']
    by_cases hbs : bs = []
    · subst hbs
      simp [recvMany, State.tookPayload, State.received, State.withRemain, State.pushPayload, List.drop_one]
    · rw [ih hbs _ q (by simp [h])]
      simp [State.tookPayload, State.received, State.withRemain, State.pushPayload, h]

/-! ## The call engine -/

theorem runItems_nil (s : State) : runItems [] s = .done s := rfl

theorem runItems_cons_done {it : Item} {rest : List Item} {s s' : State} (h : runItem it s = .done s') :
    runItems (it :: rest) s = runItems rest s' := by
  simp [runItems, h]

theorem runItems_cons_fail {it : Item} {rest : List Item} {s s' : State} {e : ErrCode} (h : runItem it s = .fail e s') :
    runItems (it :: rest) s = .fail e s' := by
  simp [runItems, h]

theorem runItems_cons_retry {it : Item} {rest : List Item} {s s' : State} (h : runItem it s = .retry s') :
    runItems (it :: rest) s = .retry s' := by
  simp [runItems, h]

theorem runItems_cons_wait {it : Item} {rest : List Item} {s s' : State} (h : runItem it s = .wait s') :
    runItems (it :: rest) s = .wait (s'.withPhase (it :: rest)) := by
  simp [runItems, h]

/-- A call's items in two parts: the second runs where the first has returned success. -/
theorem runItems_append (xs ys : List Item) (s : State) :
    runItems (xs ++ ys) s =
      match runItems xs s with
      | .done s' => runItems ys s'
      | .fail e s' => .fail e s'
      | .retry s' => .retry s'
      | .wait s' => .wait (s'.withPhase (s'.phase ++ ys)) := by
  induction xs generalizing s with
  | nil => rfl
  | cons it xs ih =>
    simp only [List.cons_append, runItems]
    cases runItem it s <;> simp [ih]

/-- A frame accepted by the link and acknowledged: one phase of a call (R141). -/
theorem runItems_phase {f : Frame} {rest : List Item} {s : State} {q : List RxAnswer}
    (hs : nextAnswer s.sendAns = .ok) (hr : s.rx = .byte s.params.ackByte :: q) :
    runItems (.send f :: .ack :: rest) s =
      runItems rest (((s.sent f).received (.byte s.params.ackByte)).setCall .acked) := by
  rw [runItems_cons_done (show runItem (.send f) s = .done (s.sent f) from trySend_ok hs)]
  exact runItems_cons_done (show runItem .ack (s.sent f) = _ from awaitAck_ack (s := s.sent f) hr)

/-- A frame accepted by the link and answered: the answer decides (R141). -/
theorem runItems_sendAck {f : Frame} {rest : List Item} {s : State} {a : RxAnswer} {q : List RxAnswer}
    (hs : nextAnswer s.sendAns = .ok) (hr : s.rx = a :: q) :
    runItems (.send f :: .ack :: rest) s =
      match ackAnswer a ((s.sent f).received a) with
      | .done t => runItems rest t
      | .fail e t => .fail e t
      | .retry t => .retry t
      | .wait t => .wait (t.withPhase (.ack :: rest)) := by
  rw [runItems_cons_done (show runItem (.send f) s = .done (s.sent f) from trySend_ok hs)]
  simp only [runItems, runItem, awaitAck]
  rw [recv_cons (s := s.sent f) (a := a) (q := q) hr]
  all_goals rfl

/-- A frame the link refuses ends the call. -/
theorem runItems_send_err {f : Frame} {rest : List Item} {s : State} (hs : nextAnswer s.sendAns = .err) :
    runItems (.send f :: rest) s = .fail .transportError ((s.sent f).setCall .linkFailed) :=
  runItems_cons_fail (trySend_err hs)

theorem runItems_ack {rest : List Item} {s : State} {q : List RxAnswer} (h : s.rx = .byte s.params.ackByte :: q) :
    runItems (.ack :: rest) s = runItems rest ((s.received (.byte s.params.ackByte)).setCall .acked) :=
  runItems_cons_done (show runItem .ack s = _ from awaitAck_ack h)

theorem runItems_count {rest : List Item} {s : State} {b : Byte} {q : List RxAnswer} (h : s.rx = .byte b :: q) :
    runItems (.count :: rest) s = runItems rest ((s.received (.byte b)).withRemain (b.toNat + 1)) :=
  runItems_cons_done (show runItem .count s = _ from recvData_byte h _)

theorem runItems_countOne {rest : List Item} {s : State} {q : List RxAnswer} (h : s.rx = .byte 1 :: q) :
    runItems (.countOne :: rest) s = runItems rest ((s.received (.byte 1)).withRemain 2) :=
  runItems_cons_done (show runItem .countOne s = _ from (recvData_byte h _).trans (if_pos rfl))

/-- GET_ID's count byte must be 1 (R150). -/
theorem runItems_countOne_other {rest : List Item} {s : State} {b : Byte} {q : List RxAnswer} (hb : b ≠ 1)
    (h : s.rx = .byte b :: q) :
    runItems (.countOne :: rest) s = .fail .protoMalformed (s.received (.byte b)) :=
  runItems_cons_fail (show runItem .countOne s = _ from (recvData_byte h _).trans (if_neg hb))

theorem runItems_data {rest : List Item} {s : State} {bs : List Byte} {q : List RxAnswer} (hne : bs ≠ [])
    (hn : s.remain = bs.length) (h : s.rx = bs.map .byte ++ q) :
    runItems (.data :: rest) s = runItems rest (s.tookPayload bs) :=
  runItems_cons_done (show runItem .data s = _ by rw [runItem, hn]; exact recvMany_bytes bs hne s q h)

/-! ## What a call leaves alone -/

/-- Everything no item of a call touches: the configuration, the sequencer, the status, the counts and the progress,
the outside but for the link and DEV; and the trace only grows. -/
structure CallFrame (s t : State) : Prop where
  cfgPort : t.cfgPort = s.cfgPort
  cfgBaud : t.cfgBaud = s.cfgBaud
  cfgSkipProg : t.cfgSkipProg = s.cfgSkipProg
  cfgSendGo : t.cfgSendGo = s.cfgSendGo
  totalBytes : t.totalBytes = s.totalBytes
  seq : t.seq = s.seq
  run : t.run = s.run
  linkOpen : t.linkOpen = s.linkOpen
  done : t.done = s.done
  err : t.err = s.err
  errCode : t.errCode = s.errCode
  failStep : t.failStep = s.failStep
  bytesWritten : t.bytesWritten = s.bytesWritten
  curAddr : t.curAddr = s.curAddr
  syncFails : t.syncFails = s.syncFails
  nextPct : t.nextPct = s.nextPct
  chunkBuf : t.chunkBuf = s.chunkBuf
  chunkLen : t.chunkLen = s.chunkLen
  params : t.params = s.params
  line : t.line = s.line
  hostCfg : t.hostCfg = s.hostCfg
  moves : t.moves = s.moves
  openAns : t.openAns = s.openAns
  src : t.src = s.src
  trace : s.trace <+: t.trace

theorem CallFrame.refl (s : State) : CallFrame s s := by
  constructor <;> simp

theorem CallFrame.trans {s t u : State} (h : CallFrame s t) (h' : CallFrame t u) : CallFrame s u := by
  constructor
  case trace => exact h.trace.trans h'.trace
  all_goals (cases h; cases h'; simp_all)

theorem callFrame_setCall (s : State) (c : Call) : CallFrame s (s.setCall c) := by
  constructor <;> simp

theorem callFrame_sent (s : State) (f : Frame) : CallFrame s (s.sent f) := by
  constructor <;> simp

theorem callFrame_received (s : State) (a : RxAnswer) : CallFrame s (s.received a) := by
  constructor <;> simp

theorem trySend_frame (f : Frame) (s : State) : CallFrame s (trySend f s).state := by
  unfold trySend
  split
  · exact callFrame_sent s f
  · exact (callFrame_sent s f).trans (callFrame_setCall _ _)

theorem recv_frame (s : State) (k : RxAnswer → State → Run) (hk : ∀ a t, CallFrame t (k a t).state) :
    CallFrame s (recv s k).state := by
  unfold recv
  split
  · exact callFrame_setCall s _
  · exact (callFrame_received s _).trans (hk _ _)

theorem expectAnswer_frame (a : RxAnswer) (s : State) : CallFrame s (expectAnswer a s).state := by
  unfold expectAnswer
  repeat' split
  all_goals exact callFrame_setCall s _

theorem syncAnswer_frame (a : RxAnswer) (s : State) : CallFrame s (syncAnswer a s).state := by
  unfold syncAnswer
  repeat' split
  all_goals first | exact CallFrame.refl s | exact callFrame_setCall s _

theorem awaitAck_frame (s : State) : CallFrame s (awaitAck s).state := by
  unfold awaitAck
  refine recv_frame s _ fun a t => ?_
  unfold ackAnswer
  split
  · exact syncAnswer_frame a t
  · exact expectAnswer_frame a t

theorem recvData_frame (s : State) (k : Byte → State → Run) (hk : ∀ b t, CallFrame t (k b t).state) :
    CallFrame s (recvData s k).state := by
  unfold recvData
  refine recv_frame s _ fun a t => ?_
  split
  · exact hk _ t
  all_goals exact callFrame_setCall t _

theorem recvMany_frame (n : Nat) (s : State) : CallFrame s (recvMany n s).state := by
  induction n generalizing s with
  | zero => simp only [recvMany, Run.state]; constructor <;> simp
  | succ n ih =>
    simp only [recvMany]
    refine CallFrame.trans (t := s.withRemain (n + 1)) (by constructor <;> simp) ?_
    refine recvData_frame _ _ fun b t => CallFrame.trans ?_ (ih _)
    constructor <;> simp

theorem runItem_frame (it : Item) (s : State) : CallFrame s (runItem it s).state := by
  cases it with
  | send f => exact trySend_frame f s
  | ack => exact awaitAck_frame s
  | count => exact recvData_frame s _ fun b t => by constructor <;> simp [Run.state]
  | countOne =>
    refine recvData_frame s _ fun b t => ?_
    split <;> constructor <;> simp [Run.state]
  | data => exact recvMany_frame _ s
  | setVersion =>
    simp only [runItem]
    split <;> constructor <;> simp [Run.state]
  | setId =>
    simp only [runItem]
    split <;> constructor <;> simp [Run.state]
  | memWrite a ds => simp only [runItem, Run.state]; constructor <;> simp
  | idle => exact callFrame_setCall s _

theorem runItems_frame (its : List Item) (s : State) : CallFrame s (runItems its s).state := by
  induction its generalizing s with
  | nil => exact CallFrame.refl s
  | cons it its ih =>
    have h := runItem_frame it s
    simp only [runItems]
    cases hr : runItem it s with
    | done t => rw [hr] at h; exact CallFrame.trans h (ih t)
    | fail e t => rw [hr] at h; exact h
    | retry t => rw [hr] at h; exact h
    | wait t =>
      rw [hr] at h
      exact CallFrame.trans h (by simp only [Run.state]; constructor <;> simp)

/-! ## DEV and the identity under a call -/

/-- A receive leaves DEV alone if what is done with the answer does. -/
theorem recv_dev (s : State) (k : RxAnswer → State → Run) (hk : ∀ a t, (k a t).state.dev = t.dev) :
    (recv s k).state.dev = s.dev := by
  unfold recv
  split
  · rfl
  · exact hk _ _

theorem expectAnswer_dev (a : RxAnswer) (s : State) : (expectAnswer a s).state.dev = s.dev := by
  unfold expectAnswer
  repeat' split
  all_goals rfl

theorem syncAnswer_dev (a : RxAnswer) (s : State) : (syncAnswer a s).state.dev = s.dev := by
  unfold syncAnswer
  repeat' split
  all_goals rfl

theorem awaitAck_dev (s : State) : (awaitAck s).state.dev = s.dev := by
  unfold awaitAck
  refine recv_dev s _ fun a t => ?_
  unfold ackAnswer
  split
  · exact syncAnswer_dev a t
  · exact expectAnswer_dev a t

theorem recvData_dev (s : State) (k : Byte → State → Run) (hk : ∀ b t, (k b t).state.dev = t.dev) :
    (recvData s k).state.dev = s.dev := by
  unfold recvData
  refine recv_dev s _ fun a t => ?_
  split
  · exact hk _ t
  all_goals rfl

theorem recvMany_dev (n : Nat) (s : State) : (recvMany n s).state.dev = s.dev := by
  induction n generalizing s with
  | zero => rfl
  | succ n ih =>
    simp only [recvMany]
    exact recvData_dev _ _ fun b t => ih _

/-- Every item keeps DEV canonical. -/
theorem runItem_dev_wf (it : Item) {s : State} (h : s.dev.wf = true) : (runItem it s).state.dev.wf = true := by
  cases it with
  | send f => simp only [runItem, trySend]; split <;> exact h
  | ack => rw [show (runItem .ack s).state.dev = s.dev from awaitAck_dev s]; exact h
  | count => rw [show (runItem .count s).state.dev = s.dev from recvData_dev s _ fun b t => rfl]; exact h
  | countOne =>
    rw [show (runItem .countOne s).state.dev = s.dev from recvData_dev s _ fun b t => by split <;> rfl]
    exact h
  | data => rw [show (runItem .data s).state.dev = s.dev from recvMany_dev _ s]; exact h
  | setVersion => simp only [runItem]; split <;> exact h
  | setId => simp only [runItem]; split <;> exact h
  | memWrite a ds => exact Memory.wf_writeBlock a ds h
  | idle => exact h

theorem runItems_dev_wf (its : List Item) {s : State} (h : s.dev.wf = true) : (runItems its s).state.dev.wf = true := by
  induction its generalizing s with
  | nil => exact h
  | cons it its ih =>
    have hi := runItem_dev_wf it h
    simp only [runItems]
    cases hr : runItem it s <;> rw [hr] at hi <;> first | exact ih hi | exact hi

/-- DEV after a call: what the call left of it, and nothing where it has failed (U1). -/
theorem settle_dev (r : Run) : (settle r).dev = r.state.dev ∨ (settle r).dev = [] := by
  cases r <;> simp [settle, Run.state, raise_dev]

end Sys2Proof.Machine
end

