-- ==== Sys2Proof/Laws/Calls.lean ====
section
/-! SUPPORT. What a call can do, said once: where it waits, how it fails, what it leaves alone, the events it adds, the
payload it takes, and how much of it is left. -/

namespace Sys2Proof.Machine
open Sys2Proof.Safety

/-! ## What the sequencer makes of a call -/

/-- A call that fails raises at its line's step, and leaves nothing known of DEV (R194, U1). -/
theorem settle_fail (e : ErrCode) (s : State) : settle (.fail e s) = raise e s.line.failStep s.doubtAll := rfl

/-- A property of the state after a call, in the four ways a call can stand. -/
theorem settle_cases (r : Run) (P : State → Prop) (done : ∀ s, r = .done s → P (s.endCall.goto s.line.after))
    (fail : ∀ e s, r = .fail e s → P (raise e s.line.failStep s.doubtAll))
    (retry : ∀ s, r = .retry s → P (s.endCall.goto s.line.retried)) (wait : ∀ s, r = .wait s → P s) : P (settle r) := by
  cases r with
  | done s => exact done s rfl
  | fail e s => exact fail e s rfl
  | retry s => exact retry s rfl
  | wait s => exact wait s rfl

/-! ## The answers of the link -/

theorem nextAnswer_of_sendsOk {n : Nat} {s : State} (h : sendsOk (n + 1) s) : nextAnswer s.sendAns = .ok := by
  cases hq : s.sendAns with
  | nil => rfl
  | cons a q => exact h a (by simp [hq])

theorem sendsOk_tail {n : Nat} {s t : State} (h : sendsOk (n + 1) s) (ht : t.sendAns = s.sendAns.tail) :
    sendsOk n t := by
  intro a ha
  rw [ht] at ha
  refine h a ?_
  cases hq : s.sendAns with
  | nil => simp [hq] at ha
  | cons b q => simp [hq] at ha ⊢; exact .inr ha

/-- An answer that is no ACK ends the call with its error (R142). -/
theorem ackAnswer_error {s : State} {a : RxAnswer} (hl : s.line.isSync = false) (h : ackError s.params a ≠ .none) :
    ackAnswer a s = .fail (ackError s.params a) (s.setCall (ackCall s.params a)) := by
  simp only [ackAnswer, hl]
  cases a with
  | byte b =>
    have h1 : b ≠ s.params.ackByte := fun h1 => h (if_pos h1)
    by_cases h2 : b = s.params.nackByte <;> simp_all [expectAnswer, decodeAck, ackError, ackCall]
  | timeout => rfl
  | err => rfl

/-- A refused acknowledgement ends the call (R142). -/
theorem runItems_ack_error {rest : List Item} {s : State} {a : RxAnswer} {q : List RxAnswer}
    (hl : s.line.isSync = false) (he : ackError s.params a ≠ .none) (hr : s.rx = a :: q) :
    runItems (.ack :: rest) s = .fail (ackError s.params a) ((s.received a).setCall (ackCall s.params a)) :=
  runItems_cons_fail (show runItem .ack s = _ from
    (recv_cons hr ackAnswer).trans (ackAnswer_error (s := s.received a) hl he))

/-- A phase that the link accepts and whose acknowledgement is refused ends the call (R141, R142). -/
theorem runItems_phase_error {f : Frame} {rest : List Item} {s : State} {a : RxAnswer} {q : List RxAnswer}
    (hl : s.line.isSync = false) (he : ackError s.params a ≠ .none) (hs : nextAnswer s.sendAns = .ok)
    (hr : s.rx = a :: q) :
    runItems (.send f :: .ack :: rest) s =
      .fail (ackError s.params a) (((s.sent f).received a).setCall (ackCall s.params a)) := by
  rw [runItems_cons_done (show runItem (.send f) s = .done (s.sent f) from trySend_ok hs)]
  exact runItems_ack_error (s := s.sent f) hl he hr

/-- `k` acknowledgements in a row are received (R162). -/
theorem runItems_acks (k : Nat) {rest : List Item} {s : State} {q : List RxAnswer}
    (h : s.rx = List.replicate k (ackAns s.params) ++ q) :
    ∃ c, runItems (List.replicate k .ack ++ rest) s = runItems rest { s with
      call := c, rx := q, trace := s.trace ++ List.replicate k (gotAck s.params) } := by
  induction k generalizing s with
  | zero => exact ⟨s.call, by simp at h; simp [← h]⟩
  | succ k ih =>
    obtain ⟨c, hc⟩ := ih (s := (s.received (ackAns s.params)).setCall .acked) (by simp [h, List.replicate_succ])
    refine ⟨c, ?_⟩
    simp only [List.replicate_succ, List.cons_append]
    rw [runItems_ack (q := List.replicate k (ackAns s.params) ++ q) (by simpa [ackAns, List.replicate_succ] using h)]
    simpa [State.received, State.setCall, gotAck, List.replicate_succ, ackAns] using hc

/-- A receive of a payload byte that is answered by no byte ends the call with its error (R143). -/
theorem recvData_error {s : State} {a : RxAnswer} {q : List RxAnswer} (he : dataError a ≠ .none) (hr : s.rx = a :: q)
    (k : Byte → State → Run) : recvData s k = .fail (dataError a) ((s.received a).setCall (ackCall s.params a)) := by
  unfold recvData
  rw [recv_cons hr]
  cases a with
  | byte b => exact absurd rfl he
  | timeout => rfl
  | err => rfl

/-- A payload that stops short ends the call with the error of the answer it stops at (R143). -/
theorem recvMany_error {a : RxAnswer} {q : List RxAnswer} (he : dataError a ≠ .none) (bs : List Byte) :
    ∀ (n : Nat) (s : State), bs.length < n → s.rx = bs.map .byte ++ a :: q →
      ∃ u, recvMany n s = .fail (dataError a) u ∧ u.rx = q := by
  induction bs with
  | nil =>
    intro n s hn hr
    obtain ⟨m, rfl⟩ : ∃ m, n = m + 1 := ⟨n - 1, by simp at hn; omega⟩
    exact ⟨_, recvData_error (s := s.withRemain (m + 1)) he (by simpa using hr) _, by simpa using congrArg List.tail hr⟩
  | cons b bs ih =>
    intro n s hn hr
    obtain ⟨m, rfl⟩ : ∃ m, n = m + 1 := ⟨n - 1, by simp at hn; omega⟩
    rw [recvMany, recvData_byte (b := b) (q := bs.map .byte ++ a :: q) (by simpa using hr)]
    exact ih m _ (by simpa using hn) (by simpa using congrArg List.tail hr)

/-! ## How a receive ends -/

theorem recv_wait {s t : State} {k : RxAnswer → State → Run} (hk : ∀ a u t, k a u = .wait t → t.rx = [])
    (h : recv s k = .wait t) : t.rx = [] := by
  unfold recv at h
  split at h
  · cases h; simpa
  · exact hk _ _ _ h

theorem expectAnswer_not_wait (a : RxAnswer) (s t : State) : expectAnswer a s ≠ .wait t := by
  unfold expectAnswer
  repeat' split
  all_goals exact Run.noConfusion

theorem expectAnswer_not_retry (a : RxAnswer) (s t : State) : expectAnswer a s ≠ .retry t := by
  unfold expectAnswer
  repeat' split
  all_goals exact Run.noConfusion

theorem syncAnswer_not_wait (a : RxAnswer) (s t : State) : syncAnswer a s ≠ .wait t := by
  unfold syncAnswer
  repeat' split
  all_goals exact Run.noConfusion

theorem awaitAck_wait {s t : State} (h : awaitAck s = .wait t) : t.rx = [] := by
  refine recv_wait (fun a u v hv => ?_) h
  unfold ackAnswer at hv
  split at hv
  · exact absurd hv (syncAnswer_not_wait a u v)
  · exact absurd hv (expectAnswer_not_wait a u v)

theorem recvData_wait {s t : State} {k : Byte → State → Run} (hk : ∀ b u t, k b u = .wait t → t.rx = [])
    (h : recvData s k = .wait t) : t.rx = [] := by
  refine recv_wait (fun a u v hv => ?_) h
  split at hv
  · exact hk _ _ _ hv
  · cases hv
  · cases hv

theorem recvMany_wait : ∀ {n : Nat} {s t : State}, recvMany n s = .wait t → t.rx = []
  | 0, _, _, h => by cases h
  | n + 1, s, t, h => recvData_wait (fun _ _ _ h' => recvMany_wait h') h

/-- A call waits at a receive, with RX empty (log entry 4). -/
theorem runItem_wait {it : Item} {s t : State} (h : runItem it s = .wait t) : receives it = true ∧ t.rx = [] := by
  cases it with
  | send f => simp only [runItem, trySend] at h; split at h <;> cases h
  | ack => exact ⟨rfl, awaitAck_wait h⟩
  | count => exact ⟨rfl, recvData_wait (fun _ _ _ h' => by cases h') h⟩
  | countOne => exact ⟨rfl, recvData_wait (fun _ _ _ h' => by split at h' <;> cases h') h⟩
  | data => exact ⟨rfl, recvMany_wait h⟩
  | setVersion => simp only [runItem] at h; split at h <;> cases h
  | setId => simp only [runItem] at h; split at h <;> cases h
  | memWrite a ds => cases h
  | idle => cases h

theorem runItems_wait {its : List Item} {s t : State} (h : runItems its s = .wait t) :
    t.phase <:+ its ∧ t.phase ≠ [] ∧ (∀ it ∈ t.phase.head?, receives it = true) ∧ t.rx = [] := by
  induction its generalizing s with
  | nil => cases h
  | cons it its ih =>
    simp only [runItems] at h
    cases hr : runItem it s with
    | done u =>
      rw [hr] at h
      obtain ⟨h1, h2⟩ := ih h
      exact ⟨h1.trans (List.suffix_cons it its), h2⟩
    | fail e u => rw [hr] at h; cases h
    | retry u => rw [hr] at h; cases h
    | wait u =>
      rw [hr] at h
      cases h
      obtain ⟨h1, h2⟩ := runItem_wait hr
      exact ⟨List.suffix_refl _, by simp, by simpa using h1, by simpa using h2⟩

/-! ## How a call fails -/

theorem recv_fail {s t : State} {e : ErrCode} {k : RxAnswer → State → Run}
    (hk : ∀ a u t, k a u = .fail e t → e ≠ .none) (h : recv s k = .fail e t) : e ≠ .none := by
  unfold recv at h
  split at h
  · cases h
  · exact hk _ _ _ h

theorem awaitAck_fail {s t : State} {e : ErrCode} (h : awaitAck s = .fail e t) : e ≠ .none := by
  refine recv_fail (fun a u v hv => ?_) h
  unfold ackAnswer syncAnswer expectAnswer at hv
  repeat' split at hv
  all_goals cases hv
  all_goals exact ErrCode.noConfusion

theorem recvData_fail {s t : State} {e : ErrCode} {k : Byte → State → Run}
    (hk : ∀ b u t, k b u = .fail e t → e ≠ .none) (h : recvData s k = .fail e t) : e ≠ .none := by
  refine recv_fail (fun a u v hv => ?_) h
  split at hv
  · exact hk _ _ _ hv
  all_goals cases hv; exact ErrCode.noConfusion

theorem recvMany_fail : ∀ {n : Nat} {s t : State} {e : ErrCode}, recvMany n s = .fail e t → e ≠ .none
  | 0, _, _, _, h => by cases h
  | n + 1, s, t, e, h => recvData_fail (fun _ _ _ h' => recvMany_fail h') h

theorem runItem_fail {it : Item} {s t : State} {e : ErrCode} (h : runItem it s = .fail e t) : e ≠ .none := by
  cases it with
  | send f => simp only [runItem, trySend] at h; split at h <;> cases h; exact ErrCode.noConfusion
  | ack => exact awaitAck_fail h
  | count => exact recvData_fail (fun _ _ _ h' => by cases h') h
  | countOne => exact recvData_fail (fun _ _ _ h' => by split at h' <;> cases h'; exact ErrCode.noConfusion) h
  | data => exact recvMany_fail h
  | setVersion => simp only [runItem] at h; split at h <;> cases h
  | setId => simp only [runItem] at h; split at h <;> cases h
  | memWrite a ds => cases h
  | idle => cases h

/-- A call fails with an error. -/
theorem runItems_fail {its : List Item} {s t : State} {e : ErrCode} (h : runItems its s = .fail e t) : e ≠ .none := by
  induction its generalizing s with
  | nil => cases h
  | cons it its ih =>
    simp only [runItems] at h
    cases hr : runItem it s with
    | done u => rw [hr] at h; exact ih h
    | fail e u => rw [hr] at h; cases h; exact runItem_fail hr
    | retry u => rw [hr] at h; cases h
    | wait u => rw [hr] at h; cases h

/-! ## Only SYNC retries -/

theorem recvData_not_retry {s t : State} {k : Byte → State → Run} (hk : ∀ b u t, k b u ≠ .retry t) :
    recvData s k ≠ .retry t := by
  unfold recvData recv
  split
  · exact Run.noConfusion
  · dsimp only
    split
    · exact hk _ _ _
    all_goals exact Run.noConfusion

theorem recvMany_not_retry : ∀ (n : Nat) (s t : State), recvMany n s ≠ .retry t
  | 0, _, _ => Run.noConfusion
  | n + 1, _, _ => recvData_not_retry fun _ _ _ => recvMany_not_retry n _ _

theorem runItem_retry {it : Item} {s t : State} (h : runItem it s = .retry t) : s.line.isSync = true ∧ it = .ack := by
  cases it with
  | send f => simp only [runItem, trySend] at h; split at h <;> cases h
  | ack =>
    refine ⟨?_, rfl⟩
    simp only [runItem, awaitAck, recv, ackAnswer] at h
    split at h
    · cases h
    · split at h
      · rename_i hs; simpa using hs
      · exact absurd h (expectAnswer_not_retry _ _ _)
  | count => exact absurd h (recvData_not_retry fun _ _ _ => Run.noConfusion)
  | countOne => exact absurd h (recvData_not_retry fun _ _ _ => by split <;> exact Run.noConfusion)
  | data => exact absurd h (recvMany_not_retry _ _ _)
  | setVersion => simp only [runItem] at h; split at h <;> cases h
  | setId => simp only [runItem] at h; split at h <;> cases h
  | memWrite a ds => cases h
  | idle => cases h

theorem runItems_retry {its : List Item} {s t : State} (h : runItems its s = .retry t) : s.line.isSync = true := by
  induction its generalizing s with
  | nil => cases h
  | cons it its ih =>
    have hf := runItem_frame it s
    simp only [runItems] at h
    cases hr : runItem it s with
    | done u => rw [hr] at h hf; rw [← hf.line]; exact ih h
    | fail e u => rw [hr] at h; cases h
    | retry u => exact (runItem_retry hr).1
    | wait u => rw [hr] at h; cases h

/-! ## What a call that has not written leaves alone -/

/-- The items that write DEV or the identity, or only end the call: none of them can fail. -/
def Item.writes : Item → Bool
  | .send _ => false
  | .ack => false
  | .count => false
  | .countOne => false
  | .data => false
  | .setVersion => true
  | .setId => true
  | .memWrite _ _ => true
  | .idle => true

/-- DEV and DeviceIdentity are the same. -/
structure SameDevice (s t : State) : Prop where
  dev : t.dev = s.dev
  blMajor : t.blMajor = s.blMajor
  blMinor : t.blMinor = s.blMinor
  verValid : t.verValid = s.verValid
  chipId : t.chipId = s.chipId
  idValid : t.idValid = s.idValid

theorem SameDevice.refl (s : State) : SameDevice s s := by constructor <;> rfl

theorem SameDevice.trans {s t u : State} (h : SameDevice s t) (h' : SameDevice t u) : SameDevice s u := by
  cases h; cases h'; constructor <;> simp_all

theorem recv_same (s : State) (k : RxAnswer → State → Run) (hk : ∀ a t, SameDevice t (k a t).state) :
    SameDevice s (recv s k).state := by
  unfold recv
  split
  · constructor <;> rfl
  · exact SameDevice.trans (t := s.received _) (by constructor <;> rfl) (hk _ _)

theorem recvData_same (s : State) (k : Byte → State → Run) (hk : ∀ b t, SameDevice t (k b t).state) :
    SameDevice s (recvData s k).state := by
  unfold recvData
  refine recv_same s _ fun a t => ?_
  split
  · exact hk _ t
  all_goals constructor <;> rfl

theorem recvMany_same (n : Nat) (s : State) : SameDevice s (recvMany n s).state := by
  induction n generalizing s with
  | zero => constructor <;> rfl
  | succ n ih =>
    simp only [recvMany]
    refine SameDevice.trans (t := s.withRemain (n + 1)) (by constructor <;> rfl) ?_
    exact recvData_same _ _ fun b t => SameDevice.trans (t := t.pushPayload b) (by constructor <;> rfl) (ih _)

theorem runItem_same {it : Item} (h : it.writes = false) (s : State) : SameDevice s (runItem it s).state := by
  cases it with
  | send f => simp only [runItem, trySend]; split <;> constructor <;> rfl
  | ack =>
    simp only [runItem, awaitAck]
    refine recv_same s _ fun a t => ?_
    unfold ackAnswer syncAnswer expectAnswer
    repeat' split
    all_goals constructor <;> rfl
  | count => exact recvData_same s _ fun b t => by constructor <;> rfl
  | countOne => exact recvData_same s _ fun b t => by split <;> constructor <;> rfl
  | data => exact recvMany_same _ s
  | setVersion => cases h
  | setId => cases h
  | memWrite a ds => cases h
  | idle => cases h

theorem runItem_writes_done {it : Item} (h : it.writes = true) (s : State) : ∃ t, runItem it s = .done t := by
  cases it with
  | send f => cases h
  | ack => cases h
  | count => cases h
  | countOne => cases h
  | data => cases h
  | setVersion => simp only [runItem]; split <;> exact ⟨_, rfl⟩
  | setId => simp only [runItem]; split <;> exact ⟨_, rfl⟩
  | memWrite a ds => exact ⟨_, rfl⟩
  | idle => exact ⟨_, rfl⟩

/-- In a phase list the writes stand at the end. -/
def writesLast (its : List Item) : Prop := its.Pairwise fun a b => a.writes = true → b.writes = true

theorem runItems_writes_done {its : List Item} (h : ∀ it ∈ its, it.writes = true) (s : State) :
    ∃ t, runItems its s = .done t := by
  induction its generalizing s with
  | nil => exact ⟨s, rfl⟩
  | cons it its ih =>
    obtain ⟨u, hu⟩ := runItem_writes_done (h it (by simp)) s
    rw [runItems_cons_done hu]
    exact ih (fun i hi => h i (by simp [hi])) u

/-- A call that has not returned success has written neither DEV nor the identity. -/
theorem runItems_same {its : List Item} (hw : writesLast its) {s : State}
    (h : ∀ t, runItems its s ≠ .done t) : SameDevice s (runItems its s).state := by
  induction its generalizing s with
  | nil => exact absurd rfl (h s)
  | cons it its ih =>
    obtain ⟨h1, h2⟩ := List.pairwise_cons.1 hw
    by_cases hit : it.writes = true
    · obtain ⟨t, ht⟩ := runItems_writes_done (its := it :: its) (by
        intro i hi
        rcases List.mem_cons.1 hi with rfl | hi
        · exact hit
        · exact h1 i hi hit) s
      exact absurd ht (h t)
    · have hs := runItem_same (by simpa using hit) s
      simp only [runItems] at h ⊢
      cases hr : runItem it s with
      | done u =>
        rw [hr] at h hs
        exact hs.trans (ih h2 h)
      | fail e u => rw [hr] at hs; exact hs
      | retry u => rw [hr] at hs; exact hs
      | wait u => rw [hr] at hs; exact hs.trans (by constructor <;> rfl)

/-- Only GET_VERSION's write touches the version. -/
theorem runItem_version_same {it : Item} (h : it ≠ .setVersion) (s : State) :
    (runItem it s).state.verValid = s.verValid ∧ (runItem it s).state.blMajor = s.blMajor
      ∧ (runItem it s).state.blMinor = s.blMinor := by
  by_cases hw : it.writes = true
  · cases it with
    | setVersion => exact absurd rfl h
    | setId => simp only [runItem]; split <;> exact ⟨rfl, rfl, rfl⟩
    | memWrite a ds => exact ⟨rfl, rfl, rfl⟩
    | idle => exact ⟨rfl, rfl, rfl⟩
    | _ => cases hw
  · have h := runItem_same (by simpa using hw) s
    exact ⟨h.verValid, h.blMajor, h.blMinor⟩

theorem runItems_version_same {its : List Item} (h : .setVersion ∉ its) (s : State) :
    (runItems its s).state.verValid = s.verValid ∧ (runItems its s).state.blMajor = s.blMajor
      ∧ (runItems its s).state.blMinor = s.blMinor := by
  induction its generalizing s with
  | nil => exact ⟨rfl, rfl, rfl⟩
  | cons it its ih =>
    simp only [List.mem_cons, not_or] at h
    have h1 := runItem_version_same (Ne.symm h.1) s
    simp only [runItems]
    cases hr : runItem it s with
    | done u =>
      rw [hr] at h1
      have h2 := ih h.2 u
      simp only [Run.state] at h1
      rw [h1.1, h1.2.1, h1.2.2] at h2
      exact h2
    | fail e u => rw [hr] at h1; exact h1
    | retry u => rw [hr] at h1; exact h1
    | wait u => rw [hr] at h1; exact h1

/-- Only GET_ID's write touches the chip identifier. -/
theorem runItem_id_same {it : Item} (h : it ≠ .setId) (s : State) :
    (runItem it s).state.idValid = s.idValid ∧ (runItem it s).state.chipId = s.chipId := by
  by_cases hw : it.writes = true
  · cases it with
    | setId => exact absurd rfl h
    | setVersion => simp only [runItem]; split <;> exact ⟨rfl, rfl⟩
    | memWrite a ds => exact ⟨rfl, rfl⟩
    | idle => exact ⟨rfl, rfl⟩
    | _ => cases hw
  · have h := runItem_same (by simpa using hw) s
    exact ⟨h.idValid, h.chipId⟩

theorem runItems_id_same {its : List Item} (h : .setId ∉ its) (s : State) :
    (runItems its s).state.idValid = s.idValid ∧ (runItems its s).state.chipId = s.chipId := by
  induction its generalizing s with
  | nil => exact ⟨rfl, rfl⟩
  | cons it its ih =>
    simp only [List.mem_cons, not_or] at h
    have h1 := runItem_id_same (Ne.symm h.1) s
    simp only [runItems]
    cases hr : runItem it s with
    | done u =>
      rw [hr] at h1
      have h2 := ih h.2 u
      simp only [Run.state] at h1
      rw [h1.1, h1.2] at h2
      exact h2
    | fail e u => rw [hr] at h1; exact h1
    | retry u => rw [hr] at h1; exact h1
    | wait u => rw [hr] at h1; exact h1

/-! ## The events of a call -/

/-- An event of a call: an answer received, or a frame of its phase list sent. -/
def CallEvent (p : Params) (its : List Item) (e : Event) : Prop :=
  (∃ a, e = .rx a) ∨ ∃ f a, Item.send f ∈ its ∧ e = .tx (f.bytes p) a

/-- The trace of `t` goes on from that of `s` with events of a call. -/
def CallTrace (its : List Item) (s t : State) : Prop :=
  ∃ ev, t.trace = s.trace ++ ev ∧ ∀ e ∈ ev, CallEvent s.params its e

theorem CallTrace.none {its : List Item} {s t : State} (h : t.trace = s.trace) : CallTrace its s t :=
  ⟨[], by simpa using h, by simp⟩

theorem CallTrace.trans {its : List Item} {s t u : State} (hp : t.params = s.params) (h : CallTrace its s t)
    (h' : CallTrace its t u) : CallTrace its s u := by
  obtain ⟨ev, h1, h2⟩ := h
  obtain ⟨ev', h1', h2'⟩ := h'
  refine ⟨ev ++ ev', by rw [h1', h1, List.append_assoc], fun e he => ?_⟩
  rcases List.mem_append.1 he with he | he
  · exact h2 e he
  · rw [← hp]; exact h2' e he

theorem CallTrace.mono {its its' : List Item} {s t : State} (hi : ∀ it ∈ its, it ∈ its') (h : CallTrace its s t) :
    CallTrace its' s t := by
  obtain ⟨ev, h1, h2⟩ := h
  refine ⟨ev, h1, fun e he => ?_⟩
  rcases h2 e he with ha | ⟨f, a, hf, he⟩
  · exact .inl ha
  · exact .inr ⟨f, a, hi _ hf, he⟩

theorem recv_trace (its : List Item) (s : State) (k : RxAnswer → State → Run)
    (hk : ∀ a t, CallTrace its t (k a t).state) : CallTrace its s (recv s k).state := by
  unfold recv
  split
  · exact CallTrace.none rfl
  · exact CallTrace.trans (t := s.received _) rfl ⟨[.rx _], rfl, fun e he => .inl ⟨_, by simpa using he⟩⟩ (hk _ _)

theorem recvData_trace (its : List Item) (s : State) (k : Byte → State → Run)
    (hk : ∀ b t, CallTrace its t (k b t).state) : CallTrace its s (recvData s k).state := by
  unfold recvData
  refine recv_trace its s _ fun a t => ?_
  split
  · exact hk _ t
  all_goals exact CallTrace.none rfl

theorem recvMany_trace (its : List Item) (n : Nat) (s : State) : CallTrace its s (recvMany n s).state := by
  induction n generalizing s with
  | zero => exact CallTrace.none rfl
  | succ n ih =>
    simp only [recvMany]
    refine CallTrace.trans (t := s.withRemain (n + 1)) rfl (CallTrace.none rfl) ?_
    exact recvData_trace its _ _ fun b t =>
      CallTrace.trans (t := t.pushPayload b) rfl (CallTrace.none rfl) (ih _)

theorem runItem_trace (it : Item) (s : State) : CallTrace [it] s (runItem it s).state := by
  cases it with
  | send f =>
    have h : ∀ a, CallEvent s.params [.send f] (.tx (f.bytes s.params) a) := fun a => .inr ⟨f, a, by simp, rfl⟩
    simp only [runItem, trySend]
    split <;> exact ⟨[.tx (f.bytes s.params) _], rfl, by simpa using h _⟩
  | ack =>
    simp only [runItem, awaitAck]
    refine recv_trace _ s _ fun a t => ?_
    unfold ackAnswer syncAnswer expectAnswer
    repeat' split
    all_goals exact CallTrace.none rfl
  | count => exact recvData_trace _ s _ fun b t => CallTrace.none rfl
  | countOne => exact recvData_trace _ s _ fun b t => by split <;> exact CallTrace.none rfl
  | data => exact recvMany_trace _ _ s
  | setVersion => simp only [runItem]; split <;> exact CallTrace.none rfl
  | setId => simp only [runItem]; split <;> exact CallTrace.none rfl
  | memWrite a ds => exact CallTrace.none rfl
  | idle => exact CallTrace.none rfl

/-- A call sends the frames of its phase list and receives; nothing else is seen of it. -/
theorem runItems_trace (its : List Item) (s : State) : CallTrace its s (runItems its s).state := by
  induction its generalizing s with
  | nil => exact CallTrace.none rfl
  | cons it its ih =>
    have h := (runItem_trace it s).mono (its' := it :: its) (by simp)
    have hf := runItem_frame it s
    simp only [runItems]
    cases hr : runItem it s with
    | done u =>
      rw [hr] at h hf
      exact CallTrace.trans hf.params h ((ih u).mono (by simp +contextual))
    | fail e u => rw [hr] at h; exact h
    | retry u => rw [hr] at h; exact h
    | wait u => rw [hr] at h; exact h

/-! ## The payload of a reply, and how much of a call is left -/

/-- A phase list in which a count byte is followed by its payload, a payload stands once, and after the writes comes no
part of a reply. -/
def replyOk (need : Nat) : List Item → Prop
  | [] => True
  | .count :: r => need ≤ 1 ∧ .data ∈ r ∧ .count ∉ r ∧ .countOne ∉ r ∧ replyOk need r
  | .countOne :: r => need ≤ 2 ∧ .data ∈ r ∧ .count ∉ r ∧ .countOne ∉ r ∧ replyOk need r
  | .data :: r => .data ∉ r ∧ .count ∉ r ∧ .countOne ∉ r ∧ replyOk need r
  | .setVersion :: r => .data ∉ r ∧ .count ∉ r ∧ .countOne ∉ r ∧ replyOk need r
  | .setId :: r => .data ∉ r ∧ .count ∉ r ∧ .countOne ∉ r ∧ replyOk need r
  | .send _ :: r => replyOk need r
  | .ack :: r => replyOk need r
  | .memWrite _ _ :: r => replyOk need r
  | .idle :: r => replyOk need r

theorem replyOk_tail {need : Nat} {it : Item} {r : List Item} (h : replyOk need (it :: r)) : replyOk need r := by
  cases it <;> simp only [replyOk] at h <;> first | exact h | exact h.2.2.2 | exact h.2.2.2.2

theorem replyOk_suffix {need : Nat} {r its : List Item} (hs : r <:+ its) (h : replyOk need its) : replyOk need r := by
  obtain ⟨pre, rfl⟩ := hs
  induction pre with
  | nil => exact h
  | cons it pre ih => exact ih (replyOk_tail h)

/-- What the receives do to the payload and to what is still to come of it. -/
structure SamePayload (s t : State) : Prop where
  payload : t.payload = s.payload
  remain : t.remain = s.remain

theorem runItem_ack_payload (s : State) : SamePayload s (runItem .ack s).state := by
  simp only [runItem, awaitAck, recv, ackAnswer, syncAnswer, expectAnswer]
  repeat' split
  all_goals constructor <;> rfl

theorem runItem_send_payload (f : Frame) (s : State) : SamePayload s (runItem (.send f) s).state := by
  simp only [runItem, trySend]
  split <;> constructor <;> rfl

theorem recvMany_payload : ∀ (n : Nat) (s t : State),
    (recvMany n s = .done t → t.payload.length = s.payload.length + n ∧ t.remain = 0)
    ∧ (recvMany n s = .wait t → t.payload.length + t.remain = s.payload.length + n ∧ t.remain ≤ n
        ∧ (s.rx ≠ [] → t.remain < n))
  | 0, s, t => by
    constructor
    · intro h; cases h; exact ⟨rfl, rfl⟩
    · intro h; cases h
  | n + 1, s, t => by
    simp only [recvMany, recvData, recv]
    split
    · rename_i hrx
      constructor
      · intro h; cases h
      · intro h
        cases h
        exact ⟨rfl, Nat.le_refl _, fun h => absurd (by simpa using hrx) h⟩
    · rename_i a q hrx
      cases a with
      | byte b =>
        obtain ⟨h1, h2⟩ := recvMany_payload n (((s.withRemain (n + 1)).received (.byte b)).pushPayload b) t
        constructor
        · intro h
          obtain ⟨h3, h4⟩ := h1 h
          refine ⟨?_, h4⟩
          simp at h3; omega
        · intro h
          obtain ⟨h3, h4, -⟩ := h2 h
          simp at h3
          exact ⟨by omega, by omega, fun _ => by omega⟩
      | timeout => constructor <;> intro h <;> cases h
      | err => constructor <;> intro h <;> cases h

theorem runItem_count_done {s t : State} (h : runItem .count s = .done t) : 1 ≤ t.remain ∧ t.remain ≤ 256 := by
  simp only [runItem, recvData, recv] at h
  split at h
  · cases h
  · split at h <;> cases h
    exact ⟨by simp, Nat.succ_le_of_lt (BitVec.isLt _)⟩

theorem runItem_count_wait {s t : State} (h : runItem .count s = .wait t) : SamePayload s t ∧ s.rx = [] := by
  simp only [runItem, recvData, recv] at h
  split at h
  · cases h; exact ⟨by constructor <;> rfl, by assumption⟩
  · split at h <;> cases h

theorem runItem_countOne_done {s t : State} (h : runItem .countOne s = .done t) : t.remain = 2 := by
  simp only [runItem, recvData, recv] at h
  split at h
  · cases h
  · split at h <;> [split at h; skip; skip] <;> cases h
    rfl

theorem runItem_countOne_wait {s t : State} (h : runItem .countOne s = .wait t) : SamePayload s t ∧ s.rx = [] := by
  simp only [runItem, recvData, recv] at h
  split at h
  · cases h; exact ⟨by constructor <;> rfl, by assumption⟩
  · split at h <;> [split at h; skip; skip] <;> cases h

theorem runItem_ack_wait {s t : State} (h : runItem .ack s = .wait t) : s.rx = [] := by
  simp only [runItem, awaitAck, recv, ackAnswer] at h
  split at h
  · assumption
  · split at h
    · exact absurd h (syncAnswer_not_wait _ _ _)
    · exact absurd h (expectAnswer_not_wait _ _ _)

theorem runItem_write_payload {it : Item} (h : it.writes = true) (s : State) : SamePayload s (runItem it s).state := by
  cases it with
  | setVersion => simp only [runItem]; split <;> constructor <;> rfl
  | setId => simp only [runItem]; split <;> constructor <;> rfl
  | memWrite a ds => constructor <;> rfl
  | idle => constructor <;> rfl
  | _ => cases h

theorem payloadComes_same {need : Nat} {its : List Item} {s t : State} (h : SamePayload s t) :
    payloadComes need its t ↔ payloadComes need its s := by
  simp [payloadComes, h.payload, h.remain]

theorem payloadComes_tail {need : Nat} {it : Item} {r : List Item} {s : State} (h1 : it ≠ .count) (h2 : it ≠ .countOne)
    (h3 : it ≠ .data) (h : payloadComes need (it :: r) s) : payloadComes need r s := by
  simpa [payloadComes, h1.symm, h2.symm, h3.symm] using h

theorem runItem_comes {need : Nat} {it : Item} {r : List Item} {s t : State} (hk : replyOk need (it :: r))
    (hc : payloadComes need (it :: r) s) (h : runItem it s = .done t) : payloadComes need r t := by
  cases it with
  | send f =>
    have := runItem_send_payload f s
    rw [h] at this
    exact payloadComes_tail (by simp) (by simp) (by simp) ((payloadComes_same this).2 hc)
  | ack =>
    have := runItem_ack_payload s
    rw [h] at this
    exact payloadComes_tail (by simp) (by simp) (by simp) ((payloadComes_same this).2 hc)
  | count =>
    have := runItem_count_done h
    refine .inr (.inr ?_)
    rw [if_pos hk.2.1]; have := hk.1; omega
  | countOne =>
    have := runItem_countOne_done h
    refine .inr (.inr ?_)
    rw [if_pos hk.2.1]; have := hk.1; omega
  | data =>
    obtain ⟨h1, h2⟩ := (recvMany_payload s.remain s t).1 h
    refine .inr (.inr ?_)
    rcases hc with hc | hc | hc
    · simp [hk.2.1] at hc
    · simp [hk.2.2.1] at hc
    · simp at hc; omega
  | setVersion =>
    have := runItem_write_payload (it := .setVersion) rfl s
    rw [h] at this
    exact payloadComes_tail (by simp) (by simp) (by simp) ((payloadComes_same this).2 hc)
  | setId =>
    have := runItem_write_payload (it := .setId) rfl s
    rw [h] at this
    exact payloadComes_tail (by simp) (by simp) (by simp) ((payloadComes_same this).2 hc)
  | memWrite a ds => cases h; exact payloadComes_tail (by simp) (by simp) (by simp) hc
  | idle => cases h; exact payloadComes_tail (by simp) (by simp) (by simp) hc

theorem runItem_comes_wait {need : Nat} {it : Item} {r : List Item} {s t : State} (hk : replyOk need (it :: r))
    (hc : payloadComes need (it :: r) s) (h : runItem it s = .wait t) : payloadComes need (it :: r) t := by
  have hr := (runItem_wait h).1
  cases it with
  | ack =>
    have := runItem_ack_payload s
    rw [h] at this
    exact (payloadComes_same this).2 hc
  | count => exact (payloadComes_same (runItem_count_wait h).1).2 hc
  | countOne => exact (payloadComes_same (runItem_countOne_wait h).1).2 hc
  | data =>
    obtain ⟨h2, -⟩ := (recvMany_payload s.remain s t).2 h
    refine .inr (.inr ?_)
    rcases hc with hc | hc | hc
    · simp [hk.2.1] at hc
    · simp [hk.2.2.1] at hc
    · simp at hc ⊢; omega
  | _ => cases hr

/-- A call that waits still gets the payload it needs. -/
theorem runItems_comes {need : Nat} {its : List Item} {s t : State} (hk : replyOk need its)
    (hc : payloadComes need its s) (h : runItems its s = .wait t) : payloadComes need t.phase t := by
  induction its generalizing s with
  | nil => cases h
  | cons it its ih =>
    simp only [runItems] at h
    cases hr : runItem it s with
    | done u => rw [hr] at h; exact ih (replyOk_tail hk) (runItem_comes hk hc hr) h
    | fail e u => rw [hr] at h; cases h
    | retry u => rw [hr] at h; cases h
    | wait u =>
      rw [hr] at h
      cases h
      exact (payloadComes_same (by constructor <;> rfl)).2 (runItem_comes_wait hk hc hr)

theorem runItem_keeps_valid (it : Item) (s : State) :
    (s.verValid = true → (runItem it s).state.verValid = true)
      ∧ (s.idValid = true → (runItem it s).state.idValid = true) := by
  by_cases hw : it.writes = true
  · cases it with
    | setVersion => simp only [runItem]; split <;> exact ⟨fun h => by first | exact h | rfl, fun h => h⟩
    | setId => simp only [runItem]; split <;> exact ⟨fun h => h, fun h => by first | exact h | rfl⟩
    | memWrite a ds => exact ⟨id, id⟩
    | idle => exact ⟨id, id⟩
    | _ => cases hw
  · have h := runItem_same (by simpa using hw) s
    rw [h.verValid, h.idValid]
    exact ⟨id, id⟩

theorem runItems_keeps_valid (its : List Item) (s : State) :
    (s.verValid = true → (runItems its s).state.verValid = true)
      ∧ (s.idValid = true → (runItems its s).state.idValid = true) := by
  induction its generalizing s with
  | nil => exact ⟨id, id⟩
  | cons it its ih =>
    have h := runItem_keeps_valid it s
    simp only [runItems]
    cases hr : runItem it s with
    | done u => rw [hr] at h; exact ⟨fun hv => (ih u).1 (h.1 hv), fun hv => (ih u).2 (h.2 hv)⟩
    | fail e u => rw [hr] at h; exact h
    | retry u => rw [hr] at h; exact h
    | wait u => rw [hr] at h; exact h

/-- A GET_VERSION that returns success has written the version. -/
theorem runItems_version {its : List Item} {s t : State} (hk : replyOk 1 its) (hc : payloadComes 1 its s)
    (hv : .setVersion ∈ its) (h : runItems its s = .done t) : t.verValid = true := by
  induction its generalizing s with
  | nil => cases hv
  | cons it its ih =>
    simp only [runItems] at h
    cases hr : runItem it s with
    | done u =>
      rw [hr] at h
      rcases List.mem_cons.1 hv with rfl | hv
      · have hp : s.payload ≠ [] := by
          intro hp
          rcases hc with hc | hc | hc
          · simp [hk.2.1] at hc
          · simp [hk.2.2.1] at hc
          · simp [hk.1, hp] at hc
        have hu : u.verValid = true := by
          simp only [runItem] at hr
          split at hr
          · cases hr; rfl
          · exact absurd (by assumption) hp
        have := (runItems_keeps_valid its u).1 hu
        simp only at h
        rw [h] at this
        exact this
      · exact ih (replyOk_tail hk) (runItem_comes hk hc hr) hv h
    | fail e u => rw [hr] at h; cases h
    | retry u => rw [hr] at h; cases h
    | wait u => rw [hr] at h; cases h

/-- A GET_ID that returns success has written the chip identifier. -/
theorem runItems_id {its : List Item} {s t : State} (hk : replyOk 2 its) (hc : payloadComes 2 its s)
    (hv : .setId ∈ its) (h : runItems its s = .done t) : t.idValid = true := by
  induction its generalizing s with
  | nil => cases hv
  | cons it its ih =>
    simp only [runItems] at h
    cases hr : runItem it s with
    | done u =>
      rw [hr] at h
      rcases List.mem_cons.1 hv with rfl | hv
      · have hp : 2 ≤ s.payload.length := by
          rcases hc with hc | hc | hc
          · simp [hk.2.1] at hc
          · simp [hk.2.2.1] at hc
          · simpa [hk.1] using hc
        have hu : u.idValid = true := by
          simp only [runItem] at hr
          split at hr
          · cases hr; rfl
          · rename_i hne
            match hq : s.payload with
            | [] => simp [hq] at hp
            | [x] => simp [hq] at hp
            | x :: y :: z => exact absurd hq (hne x y z)
        have := (runItems_keeps_valid its u).2 hu
        simp only at h
        rw [h] at this
        exact this
      · exact ih (replyOk_tail hk) (runItem_comes hk hc hr) hv h
    | fail e u => rw [hr] at h; cases h
    | retry u => rw [hr] at h; cases h
    | wait u => rw [hr] at h; cases h

/-! ## What is left of a call -/

@[simp] theorem phaseWork_nil (n : Nat) : phaseWork n [] = 0 := rfl

@[simp] theorem phaseWork_cons (n : Nat) (it : Item) (its : List Item) :
    phaseWork n (it :: its) = itemWork n it + phaseWork n its := rfl

theorem phaseWork_const {a b : Nat} {its : List Item} (h : .data ∉ its) : phaseWork a its = phaseWork b its := by
  induction its with
  | nil => rfl
  | cons it its ih =>
    simp only [List.mem_cons, not_or] at h
    simp only [phaseWork_cons, ih h.2]
    cases it <;> first | rfl | exact absurd rfl h.1

theorem phaseWork_le {need a b : Nat} {its : List Item} (h : replyOk need its) :
    phaseWork a its ≤ phaseWork b its + a := by
  induction its with
  | nil => simp
  | cons it its ih =>
    have ih := ih (replyOk_tail h)
    cases it with
    | data =>
      have := phaseWork_const (a := a) (b := b) h.1
      simp only [phaseWork_cons, itemWork]; omega
    | _ => simp only [phaseWork_cons, itemWork]; omega

theorem runItem_work {need : Nat} {it : Item} {r : List Item} {s t : State} (hk : replyOk need (it :: r))
    (h : runItem it s = .done t) : phaseWork t.remain r < phaseWork s.remain (it :: r) := by
  cases it with
  | send f =>
    have := runItem_send_payload f s
    rw [h] at this
    simp only [Run.state] at this
    simp only [this.remain, phaseWork_cons, itemWork]; omega
  | ack =>
    have := runItem_ack_payload s
    rw [h] at this
    simp only [Run.state] at this
    simp only [this.remain, phaseWork_cons, itemWork]; omega
  | count =>
    have := runItem_count_done h
    have := phaseWork_le (a := t.remain) (b := s.remain) (replyOk_tail hk)
    simp only [phaseWork_cons, itemWork]; omega
  | countOne =>
    have := runItem_countOne_done h
    have := phaseWork_le (a := t.remain) (b := s.remain) (replyOk_tail hk)
    simp only [phaseWork_cons, itemWork]; omega
  | data =>
    have := phaseWork_const (a := t.remain) (b := s.remain) hk.1
    simp only [phaseWork_cons, itemWork]; omega
  | setVersion =>
    have := runItem_write_payload (it := .setVersion) rfl s
    rw [h] at this
    simp only [Run.state] at this
    simp only [this.remain, phaseWork_cons, itemWork]; omega
  | setId =>
    have := runItem_write_payload (it := .setId) rfl s
    rw [h] at this
    simp only [Run.state] at this
    simp only [this.remain, phaseWork_cons, itemWork]; omega
  | memWrite a ds => cases h; simp [itemWork]
  | idle => cases h; simp [itemWork]

theorem runItem_work_wait {it : Item} {r : List Item} {s t : State} {need : Nat} (hk : replyOk need (it :: r))
    (h : runItem it s = .wait t) :
    phaseWork t.remain (it :: r) ≤ phaseWork s.remain (it :: r)
      ∧ (s.rx ≠ [] → phaseWork t.remain (it :: r) < phaseWork s.remain (it :: r)) := by
  have hr := (runItem_wait h).1
  cases it with
  | ack =>
    have := runItem_ack_payload s
    rw [h] at this
    simp only [Run.state] at this
    rw [this.remain]
    exact ⟨Nat.le_refl _, fun hx => absurd (runItem_ack_wait h) hx⟩
  | count =>
    obtain ⟨h1, h2⟩ := runItem_count_wait h
    rw [h1.remain]
    exact ⟨Nat.le_refl _, fun hx => absurd h2 hx⟩
  | countOne =>
    obtain ⟨h1, h2⟩ := runItem_countOne_wait h
    rw [h1.remain]
    exact ⟨Nat.le_refl _, fun hx => absurd h2 hx⟩
  | data =>
    obtain ⟨-, h3, h4⟩ := (recvMany_payload s.remain s t).2 h
    have := phaseWork_const (a := t.remain) (b := s.remain) hk.1
    simp only [phaseWork_cons, itemWork]
    exact ⟨by omega, fun hx => by have := h4 hx; omega⟩
  | _ => cases hr

/-- A call that waits has less left to do than before, unless RX was empty. -/
theorem runItems_work {need : Nat} {its : List Item} {s t : State} (hk : replyOk need its)
    (h : runItems its s = .wait t) :
    phaseWork t.remain t.phase ≤ phaseWork s.remain its
      ∧ (s.rx ≠ [] → phaseWork t.remain t.phase < phaseWork s.remain its) := by
  induction its generalizing s with
  | nil => cases h
  | cons it its ih =>
    simp only [runItems] at h
    cases hr : runItem it s with
    | done u =>
      rw [hr] at h
      have h1 := runItem_work hk hr
      have h2 := (ih (replyOk_tail hk) h).1
      exact ⟨by omega, fun _ => by omega⟩
    | fail e u => rw [hr] at h; cases h
    | retry u => rw [hr] at h; cases h
    | wait u =>
      rw [hr] at h
      cases h
      have := runItem_work_wait hk hr
      exact this

end Sys2Proof.Machine
end

