-- ==== Sys2Proof/Laws/Fetch.lean ====
section
/-! SUPPORT. Which row of the opcode table the sequencer runs next, and that running it is what the call in progress
does next. -/

namespace Sys2Proof.Machine
open Sys2Proof.Safety

/-! ## Between calls -/

theorem fetch_call {s : State} {c : CallSite} (hp : s.phase = []) (hl : s.line = .call c) :
    s.fetch = some (c.instr, s) := by
  simp [State.fetch, hp, hl]

theorem fetch_ctl {s : State} {c : Ctl} (hp : s.phase = []) (hl : s.line = .ctl c) : s.fetch = none := by
  simp [State.fetch, hp, hl]

theorem exec_call {s : State} {c : CallSite} (hl : s.line = .call c) (hb : c = .write → blockOk s.params s.chunk = true) :
    exec c.instr s = .next (callAt c (callItems c s) (doubting c s)) := by
  cases c with
  | sync h => simp [CallSite.instr, exec, execSync, callItems, hl, Line.handshake, doubting]
  | write => simp [CallSite.instr, exec, execWriteMemory, callWriteMemory, callItems, hb rfl, doubting]
  | _ => rfl

/-! ## What is put in doubt where a call begins: DEV alone -/

@[simp] theorem doubting_cfgPort (c : CallSite) (s : State) : (doubting c s).cfgPort = s.cfgPort := by cases c <;> rfl
@[simp] theorem doubting_cfgBaud (c : CallSite) (s : State) : (doubting c s).cfgBaud = s.cfgBaud := by cases c <;> rfl
@[simp] theorem doubting_cfgSkipProg (c : CallSite) (s : State) : (doubting c s).cfgSkipProg = s.cfgSkipProg := by cases c <;> rfl
@[simp] theorem doubting_cfgSendGo (c : CallSite) (s : State) : (doubting c s).cfgSendGo = s.cfgSendGo := by cases c <;> rfl
@[simp] theorem doubting_totalBytes (c : CallSite) (s : State) : (doubting c s).totalBytes = s.totalBytes := by cases c <;> rfl
@[simp] theorem doubting_seq (c : CallSite) (s : State) : (doubting c s).seq = s.seq := by cases c <;> rfl
@[simp] theorem doubting_run (c : CallSite) (s : State) : (doubting c s).run = s.run := by cases c <;> rfl
@[simp] theorem doubting_linkOpen (c : CallSite) (s : State) : (doubting c s).linkOpen = s.linkOpen := by cases c <;> rfl
@[simp] theorem doubting_done (c : CallSite) (s : State) : (doubting c s).done = s.done := by cases c <;> rfl
@[simp] theorem doubting_err (c : CallSite) (s : State) : (doubting c s).err = s.err := by cases c <;> rfl
@[simp] theorem doubting_errCode (c : CallSite) (s : State) : (doubting c s).errCode = s.errCode := by cases c <;> rfl
@[simp] theorem doubting_failStep (c : CallSite) (s : State) : (doubting c s).failStep = s.failStep := by cases c <;> rfl
@[simp] theorem doubting_call (c : CallSite) (s : State) : (doubting c s).call = s.call := by cases c <;> rfl
@[simp] theorem doubting_blMajor (c : CallSite) (s : State) : (doubting c s).blMajor = s.blMajor := by cases c <;> rfl
@[simp] theorem doubting_blMinor (c : CallSite) (s : State) : (doubting c s).blMinor = s.blMinor := by cases c <;> rfl
@[simp] theorem doubting_verValid (c : CallSite) (s : State) : (doubting c s).verValid = s.verValid := by cases c <;> rfl
@[simp] theorem doubting_chipId (c : CallSite) (s : State) : (doubting c s).chipId = s.chipId := by cases c <;> rfl
@[simp] theorem doubting_idValid (c : CallSite) (s : State) : (doubting c s).idValid = s.idValid := by cases c <;> rfl
@[simp] theorem doubting_bytesWritten (c : CallSite) (s : State) : (doubting c s).bytesWritten = s.bytesWritten := by cases c <;> rfl
@[simp] theorem doubting_curAddr (c : CallSite) (s : State) : (doubting c s).curAddr = s.curAddr := by cases c <;> rfl
@[simp] theorem doubting_syncFails (c : CallSite) (s : State) : (doubting c s).syncFails = s.syncFails := by cases c <;> rfl
@[simp] theorem doubting_nextPct (c : CallSite) (s : State) : (doubting c s).nextPct = s.nextPct := by cases c <;> rfl
@[simp] theorem doubting_cksum (c : CallSite) (s : State) : (doubting c s).cksum = s.cksum := by cases c <;> rfl
@[simp] theorem doubting_chunkBuf (c : CallSite) (s : State) : (doubting c s).chunkBuf = s.chunkBuf := by cases c <;> rfl
@[simp] theorem doubting_chunkLen (c : CallSite) (s : State) : (doubting c s).chunkLen = s.chunkLen := by cases c <;> rfl
@[simp] theorem doubting_params (c : CallSite) (s : State) : (doubting c s).params = s.params := by cases c <;> rfl
@[simp] theorem doubting_line (c : CallSite) (s : State) : (doubting c s).line = s.line := by cases c <;> rfl
@[simp] theorem doubting_phase (c : CallSite) (s : State) : (doubting c s).phase = s.phase := by cases c <;> rfl
@[simp] theorem doubting_payload (c : CallSite) (s : State) : (doubting c s).payload = s.payload := by cases c <;> rfl
@[simp] theorem doubting_remain (c : CallSite) (s : State) : (doubting c s).remain = s.remain := by cases c <;> rfl
@[simp] theorem doubting_hostCfg (c : CallSite) (s : State) : (doubting c s).hostCfg = s.hostCfg := by cases c <;> rfl
@[simp] theorem doubting_moves (c : CallSite) (s : State) : (doubting c s).moves = s.moves := by cases c <;> rfl
@[simp] theorem doubting_openAns (c : CallSite) (s : State) : (doubting c s).openAns = s.openAns := by cases c <;> rfl
@[simp] theorem doubting_sendAns (c : CallSite) (s : State) : (doubting c s).sendAns = s.sendAns := by cases c <;> rfl
@[simp] theorem doubting_rx (c : CallSite) (s : State) : (doubting c s).rx = s.rx := by cases c <;> rfl
@[simp] theorem doubting_src (c : CallSite) (s : State) : (doubting c s).src = s.src := by cases c <;> rfl
@[simp] theorem doubting_trace (c : CallSite) (s : State) : (doubting c s).trace = s.trace := by cases c <;> rfl

/-! ## What a decoded response is made of -/

/-- The bytes at the head of RX stand before what is left of it. -/
theorem rx_split : ∀ (q : List RxAnswer) (bs rest : List Byte), rxBytes q = bs ++ rest →
    q = bs.map .byte ++ q.drop bs.length := by
  intro q bs
  induction bs generalizing q with
  | nil => simp
  | cons b bs ih =>
    intro rest h
    cases q with
    | nil => simp [rxBytes] at h
    | cons a q =>
      cases a with
      | byte x =>
        simp only [rxBytes, List.cons_append, List.cons.injEq] at h
        obtain ⟨rfl, h⟩ := h
        simpa using ih q rest h
      | timeout => simp [rxBytes] at h
      | err => simp [rxBytes] at h

theorem chipIdOf_toNat (hi lo : Byte) : (chipIdOf hi lo).toNat = hi.toNat * 256 + lo.toNat := by
  have h : (chipIdOf hi lo).toNat = hi.toNat <<< 8 ||| lo.toNat := BitVec.toNat_append hi lo
  rw [h, Nat.shiftLeft_eq, Nat.mul_comm, ← Nat.two_pow_add_eq_or_of_lt lo.isLt]

theorem idHi_chipIdOf (hi lo : Byte) : idHi (chipIdOf hi lo) = hi := by
  apply BitVec.eq_of_toNat_eq
  simp only [idHi, BitVec.extractLsb'_toNat, chipIdOf_toNat, Nat.shiftRight_eq_div_pow]
  omega

theorem idLo_chipIdOf (hi lo : Byte) : idLo (chipIdOf hi lo) = lo := by
  apply BitVec.eq_of_toNat_eq
  simp only [idLo, BitVec.extractLsb'_toNat, chipIdOf_toNat, Nat.shiftRight_eq_div_pow]
  omega

theorem verCount_of_length {l : Byte} {ps : List Byte} (h : ps.length = l.toNat + 1) : verCount ps = l := by
  simp [verCount, h]

theorem decodeAckByte_back {p : Params} {bs rest : List Byte} {i : Instr} (h : decodeAckByte p bs = .ok (i, rest)) :
    ∃ b, bs = b :: rest ∧ i = responseOf p b ∧ encode p i = [b] ∧ formatOf i = .rAck ∧ WellFormed p i = true := by
  cases bs with
  | nil => simp [decodeAckByte] at h
  | cons b bs =>
    simp only [decodeAckByte, Except.ok.injEq, Prod.mk.injEq] at h
    obtain ⟨rfl, rfl⟩ := h
    refine ⟨b, rfl, rfl, ?_⟩
    unfold responseOf decodeAck
    by_cases h1 : b = p.ackByte
    · simp [h1, encode, formatOf, WellFormed]
    · by_cases h2 : b = p.nackByte
      · rw [if_neg h1, if_pos h2]; simp [h2, encode, formatOf, WellFormed]
      · rw [if_neg h1, if_neg h2]; simp [h1, h2, encode, formatOf, WellFormed, unexpectedOk]

theorem decodeVer_back {p : Params} {bs rest : List Byte} {i : Instr} (h : decodeVer p bs = .ok (i, rest)) :
    ∃ ps, i = .responseVer ps ∧ verPayloadOk ps = true ∧ encode p i ++ rest = bs := by
  rcases bs with _ | ⟨a, _ | ⟨l, bs⟩⟩
  · simp [decodeVer] at h
  · simp [decodeVer] at h
  · simp only [decodeVer] at h
    split at h
    · rename_i ha
      split at h
      · rename_i z after hd
        split at h
        · rename_i hz
          simp only [Except.ok.injEq, Prod.mk.injEq] at h
          obtain ⟨rfl, rfl⟩ := h
          have hlen : l.toNat + 1 < bs.length := by
            by_contra hc
            rw [List.drop_eq_nil_of_le (by omega)] at hd
            cases hd
          have htk : (bs.take (l.toNat + 1)).length = l.toNat + 1 := by simp; omega
          have hl := l.isLt
          refine ⟨_, rfl, by simp [verPayloadOk, htk]; omega, ?_⟩
          have : bs = bs.take (l.toNat + 1) ++ z :: after := by rw [← hd, List.take_append_drop]
          simp only [encode, verCount_of_length htk]
          conv_rhs => rw [this]
          simp [ha, hz]
        · cases h
      · cases h
    · cases h

theorem decodeId_back {p : Params} {bs rest : List Byte} {i : Instr} (h : decodeId p bs = .ok (i, rest)) :
    ∃ id, i = .responseId id ∧ encode p i ++ rest = bs := by
  rcases bs with _ | ⟨a, _ | ⟨l, _ | ⟨hi, _ | ⟨lo, _ | ⟨z, bs⟩⟩⟩⟩⟩ <;> simp [decodeId] at h
  split at h <;> [skip; cases h]
  split at h <;> [skip; cases h]
  split at h <;> [skip; cases h]
  simp only [Except.ok.injEq, Prod.mk.injEq] at h
  obtain ⟨rfl, rfl⟩ := h
  refine ⟨_, rfl, ?_⟩
  simp [encode, idHi_chipIdOf, idLo_chipIdOf, *]

/-! ## Inside a call -/

/-- What a response puts back on RX is what the fetch took. -/
theorem taken_answeredBy {s : State} {its : List Item} {bs rest : List Byte} (h : rxBytes s.rx = bs ++ rest) :
    (s.taken its (s.rx.drop bs.length)).answeredBy bs = s.withPhase its := by
  unfold State.taken State.answeredBy State.withPhase
  simp only
  rw [← rx_split _ _ _ h]

theorem resumeWith_taken {xs ys : List Item} {s : State} (h : s.phase = xs ++ ys) :
    resumeWith xs (s.withPhase ys) = resumeWith [] s := by
  simp [resumeWith, h]

theorem fetchAck_resume {s u : State} {i : Instr} {rest : List Item} {r : Instr × List RxAnswer}
    (hp : s.phase = .ack :: rest) (h : fetchResponse .rAck s = some r)
    (hi : r.1 = i) (hu : s.taken rest r.2 = u) : exec i u = .next (resumeWith [] s) := by
  unfold fetchResponse at h
  split at h
  · rename_i j rest' hd
    obtain ⟨b, hb, hj, he, -⟩ := decodeAckByte_back (p := s.params) hd
    simp only [Option.some.injEq] at h
    subst h hi hu
    have hrx : rxBytes s.rx = [b] ++ rest' := hb
    have key := taken_answeredBy (its := rest) hrx
    rw [he]
    rw [← resumeWith_taken (show s.phase = [.ack] ++ rest from hp), ← key]
    unfold responseOf at hj
    split at hj <;> subst hj <;> simp only [exec, execResponseAck, execResponseNack, execResponseUnexpected, State.taken_params, he]
  · cases h

theorem fetchVer_resume {s u : State} {i : Instr} {rest : List Item} {q : List RxAnswer}
    (hp : s.phase = verReplyItems ++ rest) (h : fetchResponse .rVer s = some (i, q))
    (hu : s.taken rest q = u) : exec i u = .next (resumeWith [] s) := by
  unfold fetchResponse at h
  split at h
  · rename_i j rest' hd
    obtain ⟨ps, hj, hok, he⟩ := decodeVer_back (p := s.params) hd
    simp only [Option.some.injEq, Prod.mk.injEq] at h
    obtain ⟨rfl, rfl⟩ := h
    subst hu
    have key := taken_answeredBy (its := rest) he.symm
    rw [← resumeWith_taken hp, ← key]
    subst hj
    simp only [exec, execResponseVer, hok, if_true, State.taken_params]
  · cases h

theorem fetchId_resume {s u : State} {i : Instr} {rest : List Item} {q : List RxAnswer}
    (hp : s.phase = idReplyItems ++ rest) (h : fetchResponse .rId s = some (i, q))
    (hu : s.taken rest q = u) : exec i u = .next (resumeWith [] s) := by
  unfold fetchResponse at h
  split at h
  · rename_i j rest' hd
    obtain ⟨ps, hj, he⟩ := decodeId_back (p := s.params) hd
    simp only [Option.some.injEq, Prod.mk.injEq] at h
    obtain ⟨rfl, rfl⟩ := h
    subst hu
    have key := taken_answeredBy (its := rest) he.symm
    rw [← resumeWith_taken hp, ← key]
    subst hj
    simp only [exec, execResponseId, State.taken_params]
  · cases h

theorem fetchFrame_resume {s u : State} {i : Instr} {f : Frame} {rest : List Item}
    (hp : s.phase = .send f :: .ack :: rest) (hi : f.instr = some i) (hw : WellFormed s.params i = true)
    (hu : s.taken rest s.rx = u) : exec i u = .next (resumeWith [] s) := by
  have hk := resumeWith_taken (s := s) (xs := [.send f, .ack]) (ys := rest) hp
  have hu' : u = s.withPhase rest := by rw [← hu]; rfl
  subst hu'
  rw [← hk]
  cases f with
  | sync => cases hi
  | cmd op => cases hi
  | argc arg => cases hi; rfl
  | argx args => cases hi; simp only [exec, execFrameArgx]; rw [if_pos (by simpa [WellFormed] using hw)]; rfl
  | addr a => cases hi; rfl
  | data ds => cases hi; simp only [exec, execFrameData]; rw [if_pos (by simpa [WellFormed] using hw)]; rfl

/-- In the middle of a call a fetched row does what the call does next. -/
theorem fetch_resume {s u : State} {i : Instr} (hp : s.phase ≠ []) (hf : s.fetch = some (i, u))
    (hw : ∀ f i, .send f ∈ s.phase.head? → f.instr = some i → WellFormed s.params i = true) :
    exec i u = .next (resumeWith [] s) := by
  unfold State.fetch at hf
  split at hf
  · exact absurd (by assumption) hp
  · simp only [Option.map_eq_some_iff, Prod.mk.injEq] at hf
    obtain ⟨⟨j, its, q⟩, hf, hj, hu⟩ := hf
    simp only at hj hu
    subst hj
    unfold fetchPhase at hf
    split at hf
    · rename_i rest hph
      split at hf
      · rename_i h
        cases hf
        exact fetchVer_resume hph h hu
      · obtain ⟨r, h, he⟩ := Option.map_eq_some_iff.1 hf
        cases he
        exact fetchAck_resume hph h rfl hu
    · rename_i rest hph
      split at hf
      · rename_i h
        cases hf
        exact fetchId_resume hph h hu
      · obtain ⟨r, h, he⟩ := Option.map_eq_some_iff.1 hf
        cases he
        exact fetchAck_resume hph h rfl hu
    · rename_i rest _ _ hph
      obtain ⟨r, h, he⟩ := Option.map_eq_some_iff.1 hf
      cases he
      exact fetchAck_resume hph h rfl hu
    · rename_i f rest hph
      obtain ⟨k, h, he⟩ := Option.map_eq_some_iff.1 hf
      cases he
      exact fetchFrame_resume hph h (hw f _ (by simp [hph]) h) hu
    · cases hf

/-- The sequencer goes on with the call in progress. -/
theorem runSequencer_resume {s : State} (hr : s.run = true) (hp : s.phase ≠ [])
    (hw : ∀ f i, .send f ∈ s.phase.head? → f.instr = some i → WellFormed s.params i = true) :
    runSequencer s = .next (resumeWith [] s) := by
  simp only [runSequencer, hr, if_true]
  split
  · rename_i h; exact fetch_resume hp h hw
  · split <;> simp [hp]

end Sys2Proof.Machine
end

