-- ==== Sys2Proof/Laws/Step.lean ====
section
/-! SUPPORT. What one step of the machine can be, said once: a move of the outside, a line that calls nothing, a call
begun, or a call gone on with; and what the phase lists of the calls are like. -/

namespace Sys2Proof.Machine
open Sys2Proof.Safety

/-! ## One step of the sequencer -/

theorem exec_call_next {s t : State} {c : CallSite} (hl : s.line = .call c) (h : exec c.instr s = .next t) :
    t = callAt c (callItems c s) (doubting c s) ∧ (c = .write → blockOk s.params s.chunk = true) := by
  by_cases hb : c = .write → blockOk s.params s.chunk = true
  · rw [exec_call hl hb] at h
    cases h
    exact ⟨rfl, hb⟩
  · obtain ⟨rfl, hb'⟩ := Classical.not_imp.1 hb
    simp only [CallSite.instr, exec, execWriteMemory, callWriteMemory] at h
    rw [if_neg hb'] at h
    cases h

/-- An argument frame its format can carry is one phase of the call in progress. -/
theorem exec_frame {s : State} {f : Frame} {i : Instr} (hi : f.instr = some i) (hw : WellFormed s.params i = true) :
    exec i s = .next (resumeWith [.send f, .ack] s) := by
  cases f with
  | sync => cases hi
  | cmd op => cases hi
  | argc arg => cases hi; rfl
  | argx args => cases hi; exact if_pos hw
  | addr a => cases hi; rfl
  | data ds => cases hi; exact if_pos hw

theorem Frame.bytes_instr {p : Params} {f : Frame} {i : Instr} (hi : f.instr = some i) : f.bytes p = encode p i := by
  cases f <;> cases hi <;> rfl

/-- An argument frame its format cannot carry is stopped at. -/
theorem exec_illformed {s : State} {f : Frame} {i : Instr} (hi : f.instr = some i) (hw : ¬ WellFormed s.params i = true) :
    exec i s = .fault .badFrame := by
  cases f with
  | sync => cases hi
  | cmd op => cases hi
  | argc arg => cases hi; exact absurd rfl hw
  | argx args => cases hi; exact if_neg hw
  | addr a => cases hi; exact absurd rfl hw
  | data ds => cases hi; exact if_neg hw

theorem fetchPhase_send {s : State} {its : List Item} {r : Instr × List Item × List RxAnswer} {f : Frame}
    (h : fetchPhase s its = some r) (hf : .send f ∈ its.head?) :
    f.instr = some r.1 := by
  unfold fetchPhase at h
  split at h
  · cases hf
  · cases hf
  · cases hf
  · cases hf
    obtain ⟨k, h, he⟩ := Option.map_eq_some_iff.1 h
    cases he
    assumption
  · cases h

/-- A row fetched in the middle of a call does nothing but what the call does next. -/
theorem fetch_resume_next {s u t : State} {i : Instr} (hp : s.phase ≠ []) (hf : s.fetch = some (i, u))
    (h : exec i u = .next t) : t = resumeWith [] s := by
  by_cases hw : ∀ f i, .send f ∈ s.phase.head? → f.instr = some i → WellFormed s.params i = true
  · rw [fetch_resume hp hf hw] at h
    cases h
    rfl
  · exfalso
    simp only [not_forall] at hw
    obtain ⟨f, j, hs, hj, hw⟩ := hw
    unfold State.fetch at hf
    split at hf
    · exact hp (by assumption)
    · obtain ⟨r, hr, he⟩ := Option.map_eq_some_iff.1 hf
      cases he
      have hi := fetchPhase_send hr hs
      rw [hj] at hi
      cases hi
      rw [exec_illformed hj (by simpa using hw)] at h
      cases h

/-- What a step of the sequencer can be. -/
theorem runSequencer_cases {s t : State} (h : runSequencer s = .next t) :
    (s.run = false ∧ t = s)
    ∨ (s.run = true ∧ s.phase = [] ∧ ∃ c, s.line = .ctl c ∧ runCtl c s = .next t)
    ∨ (s.run = true ∧ s.phase = [] ∧ ∃ c, s.line = .call c ∧ t = callAt c (callItems c s) (doubting c s)
        ∧ (c = .write → blockOk s.params s.chunk = true))
    ∨ (s.run = true ∧ s.phase ≠ [] ∧ t = resumeWith [] s) := by
  by_cases hr : s.run = true
  · simp only [runSequencer, hr, if_true] at h
    by_cases hp : s.phase = []
    · cases hl : s.line with
      | call c =>
        rw [fetch_call hp hl] at h
        exact .inr (.inr (.inl ⟨hr, hp, c, rfl, exec_call_next hl h⟩))
      | ctl c =>
        rw [fetch_ctl hp hl] at h
        simp only [hl, hp, if_true] at h
        exact .inr (.inl ⟨hr, hp, c, rfl, h⟩)
    · refine .inr (.inr (.inr ⟨hr, hp, ?_⟩))
      split at h
      · rename_i hf; exact fetch_resume_next hp hf h
      · split at h
        · simp only [hp, if_false] at h; cases h; rfl
        · cases h; rfl
  · simp only [runSequencer, hr] at h
    cases h
    exact .inl ⟨by simpa using hr, rfl⟩

/-- The state the sequencer steps from, where it steps at all: the moves of the outside do not concern it. -/
theorem step_cases {s t : State} (h : step s = .next t) :
    s.params.ok = true
    ∧ ((∃ ms, runSequencer (s.withMoves ms) = .next t ∧ (s.moves = [] ∧ ms = [] ∨ s.moves = .pass :: ms))
      ∨ ∃ m ms, s.moves = m :: ms ∧ m ≠ .pass ∧ runMove m (s.withMoves ms) = .next t) := by
  unfold step at h
  split at h
  · refine ⟨by assumption, ?_⟩
    split at h
    · rename_i hm
      refine .inl ⟨[], ?_, .inl ⟨hm, rfl⟩⟩
      rw [← h]
      congr 1
      cases s
      simp only at hm
      subst hm
      rfl
    · exact .inl ⟨_, h, .inr (by assumption)⟩
    · rename_i m ms hne hm
      exact .inr ⟨m, ms, hm, hne, h⟩
  · cases h

/-! ## The conditions of the lines, as propositions -/

theorem idle_iff {s : State} : s.idle = true ↔ s.run = false ∧ s.done = false ∧ s.err = false := by
  simp [State.idle, and_assoc]

theorem configAdmitted_iff {s : State} :
    s.configAdmitted = true ↔ s.params.flashBase.toNat + s.hostCfg.totalBytes.toNat ≤ 2 ^ 32 := by
  simp [State.configAdmitted]

theorem overrun_iff {s : State} {bs : List Byte} :
    s.overrun bs = true ↔ s.params.maxChunk < bs.length ∨ s.totalBytes.toNat < s.bytesWritten.toNat + bs.length := by
  simp [State.overrun]

theorem chipSupported_iff {s : State} : s.chipSupported = true ↔ s.chipId ∈ s.params.supportedChipIds := by
  simp [State.chipSupported]

/-- R8, one constraint at a time. -/
theorem Params.ok_iff {p : Params} : p.ok = true ↔
    p.ackByte ≠ p.nackByte ∧ 1 ≤ p.maxChunk ∧ p.maxChunk ≤ 256 ∧ 1 ≤ p.maxSyncAttempts ∧ 1 ≤ p.pctStep ∧ p.pctStep ∣ 100
      ∧ p.extEraseArg ≠ [] ∧ 1 ≤ p.wupAcks ∧ p.minVersion ≤ 65535 := by
  simp [Params.ok, and_assoc]

/-! ## What a move of the outside can do -/

/-- A move other than `pass`: a reset, a start that is accepted, or a change of the outside alone. -/
theorem runMove_cases {s t : State} {m : Move} (hm : m ≠ .pass) (h : runMove m s = .next t) :
    (m = .reset ∧ s.run = false ∧ t = s.resetRegs)
    ∨ (m = .start ∧ s.idle = true ∧ s.configAdmitted = true
        ∧ t = State.goto { s.sampled with run := true } (.ctl .openLink))
    ∨ (m ≠ .reset ∧ t = { s with
        hostCfg := t.hostCfg, openAns := t.openAns, sendAns := t.sendAns, rx := t.rx, src := t.src }) := by
  cases m with
  | pass => exact absurd rfl hm
  | reset =>
    simp only [runMove, hostReset] at h
    split at h
    · cases h
    · cases h
      rename_i hr
      exact .inl ⟨rfl, by simpa using hr, rfl⟩
  | start =>
    simp only [runMove, hostStart] at h
    split at h
    · rename_i hc
      simp only [Bool.and_eq_true] at hc
      cases h
      exact .inr (.inl ⟨rfl, hc.1, hc.2, rfl⟩)
    · cases h
      exact .inr (.inr ⟨by simp, rfl⟩)
  | config c => cases h; exact .inr (.inr ⟨by simp, rfl⟩)
  | openAnswer a => cases h; exact .inr (.inr ⟨by simp, rfl⟩)
  | sendAnswer a => cases h; exact .inr (.inr ⟨by simp, rfl⟩)
  | rxAnswer a => cases h; exact .inr (.inr ⟨by simp, rfl⟩)
  | srcAnswer bs => cases h; exact .inr (.inr ⟨by simp, rfl⟩)

/-! ## The phase lists -/

theorem replyOk_acks (need n : Nat) : replyOk need (List.replicate n .ack ++ [.idle]) := by
  induction n with
  | zero => exact trivial
  | succ n ih => exact ih

theorem callItems_replyOk (c : CallSite) (s : State) : replyOk (payloadNeed c) (callItems c s) := by
  cases c with
  | writeUnprotect => exact replyOk_acks 0 _
  | _ => simp [callItems, syncItems, getVersionItems, verReplyItems, getIdItems, idReplyItems, eraseItems,
      eraseArgItems, extEraseItems, extEraseArgItems, writeMemoryItems, addrItems, dataItems, goItems, replyOk, payloadNeed]

theorem writesLast_suffix {r its : List Item} (hs : r <:+ its) (h : writesLast its) : writesLast r :=
  List.Pairwise.sublist hs.sublist h

theorem callItems_writesLast (c : CallSite) (s : State) : writesLast (callItems c s) := by
  cases c with
  | writeUnprotect =>
    simp only [callItems, writeUnprotectItems, writesLast, List.cons_append]
    refine List.pairwise_cons.2 ⟨fun _ _ h => by simp [Item.writes] at h, ?_⟩
    exact List.pairwise_append.2 ⟨List.pairwise_replicate.2 (.inr fun h => h), by simp, fun a ha b hb h => by
      rw [List.eq_of_mem_replicate ha] at h; cases h⟩
  | _ => simp [callItems, syncItems, getVersionItems, verReplyItems, getIdItems, idReplyItems, eraseItems,
      eraseArgItems, extEraseItems, extEraseArgItems, writeMemoryItems, addrItems, dataItems, goItems, writesLast,
      Item.writes]

theorem callItems_setVersion {c : CallSite} {s : State} (h : c ≠ .getVersion) : .setVersion ∉ callItems c s := by
  cases c <;> first
    | exact absurd rfl h
    | simp [callItems, syncItems, getIdItems, idReplyItems, eraseItems, eraseArgItems, extEraseItems, extEraseArgItems,
        writeMemoryItems, addrItems, dataItems, goItems, writeUnprotectItems]

theorem callItems_setId {c : CallSite} {s : State} (h : c ≠ .getId) : .setId ∉ callItems c s := by
  cases c <;> first
    | exact absurd rfl h
    | simp [callItems, syncItems, getVersionItems, verReplyItems, eraseItems, eraseArgItems, extEraseItems,
        extEraseArgItems, writeMemoryItems, addrItems, dataItems, goItems, writeUnprotectItems]

theorem callItems_doubting (c : CallSite) (s : State) : callItems c (doubting c s) = callItems c s := by
  cases c <;> rfl

theorem wf_doubting (c : CallSite) {s : State} (h : s.dev.wf = true) : (doubting c s).dev.wf = true := by
  cases c with
  | erase => rfl
  | extErase => rfl
  | write => exact Memory.wf_forget _ _ h
  | _ => exact h

/-- Where a call begins no byte of DEV becomes known. -/
theorem read_doubting (c : CallSite) (s : State) (x : Nat) :
    Memory.read x (doubting c s).dev = none ∨ Memory.read x (doubting c s).dev = Memory.read x s.dev := by
  cases c with
  | erase => exact .inl rfl
  | extErase => exact .inl rfl
  | write => exact Memory.read_forget _ _ _ _
  | _ => exact .inr rfl

/-- A call whose fields a step leaves alone keeps its phase list. -/
theorem callItems_frame {c : CallSite} {s t : State} (h : CallFrame s t) : callItems c t = callItems c s := by
  cases c <;> simp [callItems, h.params, h.curAddr, State.chunk, h.chunkBuf, h.chunkLen]

end Sys2Proof.Machine
end

