-- ==== Sys2Proof/Tests/Slice0.lean ====
section
/-! SUPPORT. Small tests. The expected values are those of spec/95_test_vectors.md and of the encodings of
spec/40_framing.md, written out by hand; the witnesses show that the hypotheses of the statements can be met. -/

namespace Sys2Proof.Tests

open Sys2Proof Sys2Proof.Machine Sys2Proof.Safety

/-! ## Parameters and states -/

/-- The defaults with the sample set of spec/95_test_vectors.md, two attempts and blocks of four bytes. -/
def tp : Params :=
  { Params.default with supportedChipIds := [0x0410, 0x0414], tResp := 0, maxSyncAttempts := 2, maxChunk := 4 }

/-- A running FRAMER at a line. -/
def at' (l : Line) : State := { State.resetWith tp with run := true, linkOpen := true, line := l }

/-- A FRAMER that has not opened its link. -/
def unopened : State := { at' (.ctl .openLink) with linkOpen := false }

/-- A running FRAMER with answers waiting. -/
def atRx (l : Line) (rx : List RxAnswer) : State := { at' l with rx := rx }

/-- `ACK_BYTE`, `NACK_BYTE`. -/
def A : RxAnswer := .byte 0x79
def N : RxAnswer := .byte 0x1F

/-- The identity of the sample device, read and accepted. -/
def known (s : State) : State :=
  { s with blMajor := 2, blMinor := 2, verValid := true, chipId := 0x0414, idValid := true }

/-- In the program loop with three bytes of an image of eight in the buffer, the first four written. -/
def inLoop (l : Line) : State :=
  { known (at' l) with
    seq := .erased, totalBytes := 8, bytesWritten := 4, curAddr := 0x08000004, chunkBuf := [1, 2, 3, 4], chunkLen := 3
    nextPct := 60 }

/-- What a step leads to, as far as a test looks at it. -/
def view {α : Type} (f : State → α) : Result → Option α
  | .next s => some (f s)
  | .fault _ => none
  | .refused _ => none

/-- The fault of a step. -/
def faultOf : Result → Option Fault
  | .next _ => none
  | .fault f => some f
  | .refused _ => none

/-! ## WellFormed and the constraints of R8: a term each check refuses -/

theorem block_past_length_byte {p : Params} {n : Nat} (h : 256 < n) :
    WellFormed p (.frameData (List.replicate n 0)) = false := by
  simp [WellFormed, blockOk]; omega

theorem ver_past_count_byte {p : Params} {n : Nat} (h : 256 < n) :
    WellFormed p (.responseVer (List.replicate n 0)) = false := by
  simp [WellFormed, verPayloadOk]; omega

theorem test_wf_ok :
    WellFormed tp (.frameData [1, 2, 3, 4]) = true ∧ WellFormed tp (.frameArgx [0xFF]) = true
      ∧ WellFormed tp (.responseVer [0x22]) = true ∧ WellFormed tp (.responseUnexpected 0x00) = true := by decide

theorem test_wf_argx_empty : WellFormed tp (.frameArgx []) = false := by decide

theorem test_wf_block_empty : WellFormed tp (.frameData []) = false := by decide

theorem test_wf_block_long : WellFormed tp (.frameData [1, 2, 3, 4, 5]) = false := by decide

theorem test_wf_block_past_length_byte :
    WellFormed { tp with maxChunk := 300 } (.frameData (List.replicate 257 0)) = false :=
  block_past_length_byte (by decide)

theorem test_wf_ver_empty : WellFormed tp (.responseVer []) = false := by decide

theorem test_wf_ver_long : WellFormed tp (.responseVer (List.replicate 257 0)) = false :=
  ver_past_count_byte (by decide)

theorem test_wf_unexpected_ack : WellFormed tp (.responseUnexpected 0x79) = false := by decide

theorem test_wf_unexpected_nack : WellFormed tp (.responseUnexpected 0x1F) = false := by decide

theorem test_params_ok : tp.ok = true ∧ Params.default.ok = true ∧ tp.opcodesDistinct = true := by decide

theorem test_params_refused :
    Params.ok { tp with nackByte := 0x79 } = false ∧ Params.ok { tp with maxChunk := 0 } = false
      ∧ Params.ok { tp with maxChunk := 257 } = false ∧ Params.ok { tp with maxSyncAttempts := 0 } = false
      ∧ Params.ok { tp with pctStep := 0 } = false ∧ Params.ok { tp with pctStep := 3 } = false
      ∧ Params.ok { tp with extEraseArg := [] } = false ∧ Params.ok { tp with wupAcks := 0 } = false
      ∧ Params.ok { tp with minVersion := 65536 } = false := by decide

theorem test_bad_params_refused : step { State.resetWith { tp with wupAcks := 0 } with moves := [.start] }
    = .refused .badParameters := rfl

/-! ## Decoding: words written out from R91 to R105 -/

theorem test_decode_sync : decodeTableWord 8 0x7F = some .sync := by decide

theorem test_decode_query : decodeTableWord 16 0x00FF = some .getVersion ∧ decodeTableWord 16 0x02FD = some .getId := by
  decide

theorem test_decode_modify :
    decodeTableWord 16 0x738C = some .writeUnprotect ∧ decodeTableWord 16 0x43BC = some .erase
      ∧ decodeTableWord 16 0x44BB = some .extErase ∧ decodeTableWord 16 0x31CE = some .writeMemory
      ∧ decodeTableWord 16 0x21DE = some .go := by decide

theorem test_decode_argc : decodeTableWord 16 0xFF00 = some (.frameArgc 0xFF) := by decide

theorem test_decode_argx : decodeTableWord 24 0xFFFF00 = some (.frameArgx [0xFF, 0xFF]) := by decide

theorem test_decode_addr :
    decodeTableWord 40 0x0800000008 = some (.frameAddr 0x08000000)
      ∧ decodeTableWord 40 0x1234567808 = some (.frameAddr 0x12345678) := by decide

theorem test_decode_data :
    decodeTableWord 24 0x00ABAB = some (.frameData [0xAB])
      ∧ decodeTableWord 40 0x0201020302 = some (.frameData [1, 2, 3]) := by decide

theorem test_decode_ack_bytes :
    decodeTableWord 8 0x79 = some .responseAck ∧ decodeTableWord 8 0x1F = some .responseNack
      ∧ decodeTableWord 8 0x7A = some (.responseUnexpected 0x7A) := by decide

theorem test_decode_replies :
    decodeTableWord 32 0x79002279 = some (.responseVer [0x22])
      ∧ decodeTableWord 40 0x7901041479 = some (.responseId 0x0414) := by decide

theorem test_decode_refuses :
    decode tp .fCmd [0x43, 0xBD] = .error .badComplement ∧ decode tp .fCmd [0x7F, 0x80] = .error .unknownOpcode
      ∧ decode tp .fCmd [0x43] = .error .tooShort ∧ decode tp .fSync [0x80] = .error .notSyncByte
      ∧ decode tp .fAddr [0x08, 0, 0, 0, 0x09] = .error .badChecksum ∧ decode tp .fArgx [0x00] = .error .emptyPayload
      ∧ decode tp .fData [0x04, 1, 2, 3, 4, 5, 5] = .error .blockTooLong
      ∧ decode tp .rId [0x79, 0x02, 4, 0x14, 0x79] = .error .badCount
      ∧ decode tp .rVer [0x1F, 0x00, 0x22, 0x79] = .error .notAck := by decide

/-- Table 2.2: a longer block under the default `MAX_CHUNK`. -/
theorem test_encode_data :
    encodeData [4, 5, 6, 7] = [0x03, 4, 5, 6, 7, 0x03] ∧ encodeData [0x1F, 0x79] = [0x01, 0x1F, 0x79, 0x67] := by decide

theorem test_encode_addr :
    encodeAddr 0x0800FF00 = [0x08, 0x00, 0xFF, 0x00, 0xF7] ∧ encodePayload [0x12, 0x34, 0x56] = [0x12, 0x34, 0x56, 0x70] := by
  decide

/-- Table 2.2: an undetected double error. -/
theorem test_checkers :
    checkCmpl [0x43, 0xBD] = false ∧ checkCmpl [0x43, 0xBC, 0x00] = false ∧ checkXor [0x08, 0, 0, 0, 0x09] = false
      ∧ checkXor [0x09, 0x01, 0, 0, 0x08] = true := by decide

/-! ## One step of each instruction: tables 2.4 and 2.5 -/

theorem test_sync_ack :
    view (fun t => (t.call, t.line, t.trace)) (exec .sync (atRx (.call (.sync .first)) [A]))
      = some (.acked, .ctl (.connected .first), [.tx [0x7F] .ok, .rx A]) := by decide

theorem test_sync_nack_retries :
    view (fun t => (t.call, t.line, t.err)) (exec .sync (atRx (.call (.sync .first)) [N]))
      = some (.awaitingAck, .ctl (.retry .first), false) := by decide

theorem test_getVersion :
    view (fun t => (t.blMajor, t.blMinor, t.verValid, t.rx))
        (exec .getVersion (atRx (.call .getVersion) [A, .byte 0x01, .byte 0x31, N, A, .timeout]))
      = some (3, 1, true, [.timeout]) := by decide

theorem test_getVersion_closing_nack :
    view (fun t => (t.errCode, t.failStep, t.verValid, t.trace.length))
        (exec .getVersion (atRx (.call .getVersion) [A, .byte 0x00, .byte 0x22, N]))
      = some (.protoNack, .getVersion, false, 7) := by decide

theorem test_getId :
    view (fun t => (t.chipId, t.idValid)) (exec .getId (atRx (.call .getId) [A, .byte 1, .byte 0x04, .byte 0x14, A]))
      = some (0x0414, true) := by decide

theorem test_getId_count :
    view (fun t => (t.errCode, t.failStep, t.idValid, t.rx.length))
        (exec .getId (atRx (.call .getId) [A, .byte 2, .byte 0x04, .byte 0x14, .byte 0, A]))
      = some (.protoMalformed, .getId, false, 4) := by decide

theorem test_writeUnprotect :
    view (fun t => (t.line, t.trace)) (exec .writeUnprotect (atRx (.call .writeUnprotect) [A]))
      = some (.ctl .resyncCheck, [.tx [0x73, 0x8C] .ok, .rx A]) := by decide

theorem test_erase :
    view (fun t => (t.line, t.trace)) (exec .erase (atRx (.call .erase) [A, A]))
      = some (.ctl .erased, [.tx [0x43, 0xBC] .ok, .rx A, .tx [0xFF, 0x00] .ok, .rx A]) := by decide

/-- U4: while a WRITE_MEMORY waits for its last answer, its block is not known, and every other byte is. -/
theorem test_writeMemory_waits :
    view (fun t => (t.dev, t.call)) (exec .writeMemory
        { inLoop (.call .write) with rx := [A, A], dev := [(0x08000003, 8), (0x08000006, 9)] })
      = some ([(0x08000003, 8)], .awaitingAck) := by decide

/-- U1: nothing of DEV is known after an erase that was refused. -/
theorem test_erase_refused :
    view (fun t => (t.dev, t.errCode, t.seq)) (exec .erase { atRx (.call .erase) [A, N] with dev := [(0x08000000, 9)] })
      = some ([], .protoNack, .disconnected) := by decide

theorem test_extErase :
    view (fun t => (t.cksum, t.trace)) (exec .extErase (atRx (.call .extErase) [A, A]))
      = some (0x00, [.tx [0x44, 0xBB] .ok, .rx A, .tx [0xFF, 0xFF, 0x00] .ok, .rx A]) := by decide

theorem test_writeMemory :
    view (fun t => (t.dev, t.trace.length, t.cksum)) (exec .writeMemory { inLoop (.call .write) with rx := [A, A, A] })
      = some ([(0x08000004, 1), (0x08000005, 2), (0x08000006, 3)], 6, 0x02) := by decide

/-- U1: nothing of DEV is known after a write that was refused. -/
theorem test_writeMemory_refused :
    view (fun t => (t.dev, t.errCode, t.failStep)) (exec .writeMemory
        { inLoop (.call .write) with rx := [A, A, N], dev := [(0x08000003, 8), (0x08000006, 9)] })
      = some ([], .protoNack, .program) := by decide

theorem test_go :
    view (fun t => (t.line, t.trace)) (exec .go (atRx (.call .go) [A, A]))
      = some (.ctl .executing, [.tx [0x21, 0xDE] .ok, .rx A, .tx [0x08, 0x00, 0x00, 0x00, 0x08] .ok, .rx A]) := by decide

theorem test_frames :
    view (fun t => (t.call, t.cksum)) (exec (.frameAddr 0x08000100) { atRx (.call .go) [A] with phase := [.idle] })
      = some (.idle, 0x09)
    ∧ view (fun t => (t.call, t.cksum)) (exec (.frameArgc 0xFF) { atRx (.call .erase) [A] with phase := [.idle] })
      = some (.idle, 0x00)
    ∧ faultOf (exec (.frameData []) (atRx (.call .write) [A])) = some .badFrame := by decide

theorem test_frames_refused :
    view (fun t => (t.call, t.errCode)) (exec (.frameArgx [0xFF, 0xFF]) { atRx (.call .extErase) [N] with phase := [.idle] })
      = some (.nacked, .protoNack) := by decide

theorem test_responses :
    view (fun t => t.call) (exec .responseAck (at' (.call .go))) = some .acked
    ∧ view (fun t => t.errCode) (exec .responseNack (at' (.call .go))) = some .protoNack
    ∧ view (fun t => t.errCode) (exec (.responseUnexpected 0x00) (at' (.call .go))) = some .protoUnexpected
    ∧ view (fun t => t.line) (exec (.responseUnexpected 0x00) (at' (.call (.sync .again)))) = some (.ctl (.retry .again)) := by
  decide

theorem test_replies :
    view (fun t => (t.blMajor, t.blMinor, t.trace.length)) (exec (.responseVer [0x22]) (at' (.call .getVersion)))
      = some (2, 2, 4)
    ∧ view (fun t => t.chipId) (exec (.responseId 0x0410) (at' (.call .getId))) = some 0x0410 := by decide

/-- A word of the table placed after reset runs as the next step. -/
theorem test_withFetchWord :
    view (fun t => t.trace) (step (State.reset.withFetchWord 16 0x00FF)) = some [.tx [0x00, 0xFF] .ok]
    ∧ view (fun t => t.trace) (step (State.reset.withFetchWord 32 0x79002279))
      = some [.rx A, .rx (.byte 0x00), .rx (.byte 0x22), .rx A] := by decide

/-! ## Lines of the session: tables 2.6 to 2.9 -/

theorem test_version_check :
    view (fun t => t.err) (step { at' (.ctl .versionCheck) with verValid := true, blMajor := 2, blMinor := 1 }) = some false
    ∧ view (fun t => t.errCode) (step { at' (.ctl .versionCheck) with verValid := true, blMajor := 2, blMinor := 0 })
      = some .versionUnsupported := by decide

theorem test_advance_reports :
    view (fun t => (t.bytesWritten, t.curAddr, t.nextPct, t.trace)) (step (inLoop (.ctl .advance)))
      = some (7, 0x08000007, 90, [.progress 7, .pct 60, .pct 70, .pct 80]) := by decide

theorem test_overrun :
    view (fun t => (t.errCode, t.failStep, t.chunkLen))
        (step { inLoop (.ctl .read) with src := [[1, 2, 3, 4]], bytesWritten := 5 })
      = some (.srcContract, .program, 3) := by decide

/-! ## Witnesses: states that meet the hypotheses of the statements -/

/-- Idle, running, halted. -/
def idle : State := State.resetWith tp
def halted : State := { State.resetWith tp with done := true }

theorem witness_ResetGivesEveryRegisterItsValue :
    let s := { halted with moves := [.reset] }
    s.params.ok = true ∧ s.run = false ∧ s.moves = .reset :: [] := by decide

theorem witness_ResetHasNoMoveWhileRunning :
    let s := { unopened with moves := [.reset] }
    s.params.ok = true ∧ s.run = true ∧ s.moves = .reset :: [] := by decide

/-- An image that ends exactly at the top of the address space. -/
def toTheTop : State := { idle with moves := [.start], hostCfg := { HostCfg.none with totalBytes := 0xF8000000 } }

theorem witness_StartSamplesOrIsIgnored :
    toTheTop.params.ok = true ∧ toTheTop.moves = .start :: [] ∧ toTheTop.run = false ∧ toTheTop.done = false
      ∧ toTheTop.err = false ∧ toTheTop.params.flashBase.toNat + toTheTop.hostCfg.totalBytes.toNat ≤ 2 ^ 32
      ∧ toTheTop.phase = []
      ∧ view (fun t => view (fun u => u.linkOpen) (step { t with moves := [] })) (step toTheTop) = some (some true) := by
  decide

/-- One byte more. -/
def pastTheTop : State := { toTheTop with hostCfg := { HostCfg.none with totalBytes := 0xF8000001 } }

theorem witness_StartIsIgnored :
    (2 ^ 32 < pastTheTop.params.flashBase.toNat + pastTheTop.hostCfg.totalBytes.toNat)
      ∧ ({ halted with moves := [.start] } : State).done = true := by decide

theorem witness_ConfigurationPastTheTopIsRefused :
    pastTheTop.idle = true ∧ pastTheTop.moves = .start :: [] ∧ pastTheTop.params.ok = true
      ∧ ({ toTheTop with hostCfg := .none } : State).hostCfg.totalBytes = 0
      ∧ ({ toTheTop with params := { tp with maxChunk := 0 } } : State).params.ok = false := by decide

theorem witness_NoStepWhileNotRunning :
    halted.params.ok = true ∧ halted.run = false ∧ halted.moves = []
      ∧ ({ halted with moves := [.pass] } : State).moves = .pass :: [] := by decide

theorem witness_HaltIsFinalUntilReset :
    let s := { halted with moves := [.start] }
    s.run = false ∧ s.done = true ∧ s.moves = .start :: [] ∧ Move.start ≠ .reset
      ∧ view (fun t => t.run) (step s) = some false := by decide

theorem witness_RaiseIsTheOnlyAbort :
    let s := { at' (.ctl .versionCheck) with verValid := true }
    s.err = false ∧ view (fun t => t.err) (step s) = some true := by decide

theorem witness_FinishHaltsWithDone :
    let s := at' (.ctl .finish)
    s.params.ok = true ∧ s.run = true ∧ s.moves = [] ∧ s.phase = [] := by decide

theorem witness_ReadsFaultWithoutAValue :
    idle.verValid = false ∧ idle.idValid = false ∧ (known idle).verValid = true ∧ (known idle).idValid = true
      ∧ 2 < (inLoop (.ctl .read)).chunkBuf.length ∧ 2 < (inLoop (.ctl .read)).chunkLen
      ∧ (inLoop (.ctl .read)).chunkLen ≤ 3 := by decide

theorem witness_ChecksumUnitLaws : [1, 2].Perm [2, (1 : Byte)] ∧ Even ([5, 7, (5 : Byte)].count 5) := by decide

theorem witness_FramesPassTheirValidators :
    ([1] : List Byte) ≠ [] ∧ (1 ≤ 256 ∧ 256 ≤ (256 : Nat))
      ∧ checkCmpl [0x43, 0xBC] = true ∧ checkXor [0x08, 0, 0, 0, 0x08] = true
      ∧ [0, 1].Nodup ∧ (∀ i ∈ [0, 1], i < [0x08, 0, 0, 0, (0x08 : Byte)].length) ∧ Even [0, 1].length := by decide

theorem witness_AckBytesClassify : tp.ok = true := by decide

theorem witness_DecodedBytesEncodeBack :
    decode tp .fData [0x03, 1, 2, 3, 4, 0x07, 0xEE] = .ok (.frameData [1, 2, 3, 4], [0xEE]) := by decide

theorem witness_StepRunsTheSelectedInstruction :
    let s := at' (.call .go)
    let u := { s with phase := addrItems 0x08000000 ++ [Item.idle] }
    s.params.ok = true ∧ s.run = true ∧ s.moves = [] ∧ s.phase = []
      ∧ u.phase = .send (.addr 0x08000000) :: .ack :: [.idle] := by decide

theorem witness_StepRunsTheDecodedResponse :
    let s := { atRx (.call .writeUnprotect) [N] with phase := [.ack, .idle] }
    let v := { atRx (.call .getVersion) [A, .byte 0, .byte 0x22, A] with phase := verReplyItems ++ [Item.idle] }
    let d := { atRx (.call .getId) [A, .byte 1, .byte 4, .byte 0x14, A] with phase := idReplyItems ++ [Item.idle] }
    s.params.ok = true ∧ s.run = true ∧ s.moves = [] ∧ WellFormed s.params .responseNack = true
      ∧ s.phase = .ack :: [.idle] ∧ s.rx = (encode s.params .responseNack).map .byte ++ []
      ∧ verPayloadOk [0x22] = true ∧ v.rx = (encode v.params (.responseVer [0x22])).map .byte ++ []
      ∧ d.rx = (encode d.params (.responseId 0x0414)).map .byte ++ [] := by decide

theorem witness_SyncAttempt :
    (atRx (.call (.sync .first)) [A]).rx = A :: []
      ∧ nextAnswer ({ at' (.call (.sync .first)) with sendAns := [.err] } : State).sendAns = .err
      ∧ view (fun t => t.errCode) (exec .sync { at' (.call (.sync .first)) with sendAns := [.err] })
        = some .transportError
      ∧ nextAnswer (at' (.call (.sync .first))).sendAns = .ok := by decide

theorem witness_GetVersionReadsTheVersion :
    let s := atRx (.call .getVersion) [A, .byte 1, .byte 0x31, N, A]
    (∀ a ∈ s.sendAns.take 1, a = .ok) ∧ [(0x1F : Byte)].length = (1 : Byte).toNat
      ∧ s.rx = ackAns s.params :: .byte 1 :: .byte 0x31 :: [(0x1F : Byte)].map .byte ++ ackAns s.params :: [] := by decide

theorem witness_GetIdReadsTheChip :
    let s := atRx (.call .getId) [A, .byte 1, .byte 4, .byte 0x14, A]
    (∀ a ∈ s.sendAns.take 1, a = .ok)
      ∧ s.rx = ackAns s.params :: .byte 1 :: .byte 4 :: .byte 0x14 :: ackAns s.params :: [] := by decide

theorem witness_GetIdRefusesAnotherCount :
    let s := atRx (.call .getId) [A, .byte 0]
    (0 : Byte) ≠ 1 ∧ s.rx = ackAns s.params :: .byte 0 :: [] := by decide

theorem witness_GetVersionFailsInItsReply :
    dataError .timeout ≠ .none ∧ dataError .err ≠ .none ∧ ackError tp N ≠ .none ∧ ackError tp (.byte 0) ≠ .none
      ∧ [(0x22 : Byte)].length < (1 : Byte).toNat + 1 ∧ [(0x22 : Byte)].length = (0 : Byte).toNat + 1
      ∧ (atRx (.call .getVersion) [A, .byte 1, .byte 0x22, .timeout]).rx
        = ackAns tp :: .byte 1 :: [(0x22 : Byte)].map .byte ++ RxAnswer.timeout :: [] := by decide

theorem witness_WriteUnprotectCompletes :
    let s := atRx (.call .writeUnprotect) [A]
    s.params.ok = true ∧ (∀ a ∈ s.sendAns.take 1, a = .ok)
      ∧ s.rx = List.replicate s.params.wupAcks (ackAns s.params) ++ [] := by decide

theorem witness_EraseCompletes :
    let s := atRx (.call .erase) [A, A]
    (∀ a ∈ s.sendAns.take 2, a = .ok) ∧ s.rx = ackAns s.params :: ackAns s.params :: [] := by decide

theorem witness_ExtEraseCompletes :
    let s := atRx (.call .extErase) [A, A]
    (∀ a ∈ s.sendAns.take 2, a = .ok) ∧ s.rx = ackAns s.params :: ackAns s.params :: [] := by decide

theorem witness_GoCompletes :
    let s := atRx (.call .go) [A, A]
    (∀ a ∈ s.sendAns.take 2, a = .ok) ∧ s.rx = ackAns s.params :: ackAns s.params :: [] := by decide

theorem witness_WriteMemoryCompletes :
    let s := { inLoop (.call .write) with rx := [A, A, A] }
    (∀ a ∈ s.sendAns.take 3, a = .ok) ∧ 1 ≤ [1, 2, 3, (4 : Byte)].length ∧ [1, 2, 3, (4 : Byte)].length ≤ s.params.maxChunk
      ∧ s.rx = ackAns s.params :: ackAns s.params :: ackAns s.params :: []
      ∧ s.curAddr = 0x08000004 ∧ s.chunkBuf.take s.chunkLen = [1, 2, 3] := by decide

theorem witness_WriteMemoryStopsOnABadBlock :
    (at' (.call .write)).chunk = []
      ∧ ({ at' (.call .write) with chunkBuf := [1, 2, 3, 4, 5], chunkLen := 5 } : State).params.maxChunk
        < ({ at' (.call .write) with chunkBuf := [1, 2, 3, 4, 5], chunkLen := 5 } : State).chunk.length
      ∧ 256 < ({ at' (.call .write) with chunkBuf := List.replicate 257 0, chunkLen := 257 } : State).chunk.length :=
  ⟨by decide, by decide, by rw [State.chunk, List.length_take, List.length_replicate]; decide⟩

theorem witness_RefusedFirstAckRaises :
    let s := { inLoop (.call .write) with rx := [N] }
    s.params.ok = true ∧ blockOk s.params s.chunk = true ∧ ackError s.params N ≠ .none ∧ s.rx = N :: []
      ∧ (∀ h, CallSite.write ≠ .sync h) := by
  exact ⟨by decide, by decide, by decide, by decide, fun _ h => by cases h⟩

theorem witness_RefusedSendRaises :
    let s := { inLoop (.call .write) with sendAns := [.err] }
    let u := { atRx (.call .erase) [A] with sendAns := [.ok, .err] }
    let v := { inLoop (.call .write) with sendAns := [.ok, .ok, .err], rx := [A, A] }
    nextAnswer s.sendAns = .err ∧ blockOk s.params s.chunk = true
      ∧ argFrame .erase u = some (.argc 0xFF) ∧ u.sendAns = .ok :: .err :: [] ∧ u.rx = ackAns u.params :: []
      ∧ v.sendAns = .ok :: .ok :: .err :: [] ∧ v.rx = ackAns v.params :: ackAns v.params :: [] := by decide

theorem witness_RefusedWriteLeavesTheBlock :
    let s := { inLoop (.call .write) with rx := [A, .timeout] }
    let u := { inLoop (.call .write) with rx := [A, A, .timeout] }
    blockOk s.params s.chunk = true ∧ ackError s.params .timeout ≠ .none
      ∧ s.rx = ackAns s.params :: .timeout :: [] ∧ u.rx = ackAns u.params :: ackAns u.params :: .timeout :: [] := by decide

theorem witness_ArgumentFramesComplete :
    let s := { atRx (.call .extErase) [A] with phase := [.idle] }
    (Frame.argx [0xFF, 0xFF]).instr = some (.frameArgx [0xFF, 0xFF]) ∧ WellFormed s.params (.frameArgx [0xFF, 0xFF]) = true
      ∧ s.rx = ackAns s.params :: [] := by decide

theorem witness_LastArgumentFrameReturns :
    let s := { atRx (.call .go) [A] with phase := [.idle] }
    (Frame.addr 0x08000000).instr = some (.frameAddr 0x08000000) ∧ WellFormed s.params (.frameAddr 0x08000000) = true
      ∧ s.line = .call .go ∧ s.phase = [.idle] ∧ s.rx = ackAns s.params :: [] := by decide

theorem witness_RefusedArgumentFramesRaise :
    let s := atRx (.call .erase) [N]
    (Frame.argc 0xFF).instr = some (.frameArgc 0xFF) ∧ WellFormed s.params (.frameArgc 0xFF) = true
      ∧ s.line.isSync = false ∧ ackError s.params N ≠ .none ∧ s.params.ok = true ∧ s.rx = N :: []
      ∧ nextAnswer ({ s with sendAns := [.err] } : State).sendAns = .err := by decide

theorem witness_IllFormedFramesStop :
    (Frame.data []).instr = some (.frameData []) ∧ WellFormed tp (.frameData []) = false
      ∧ (Frame.argx []).instr = some (.frameArgx []) ∧ WellFormed tp (.frameArgx []) = false := by decide

theorem witness_AckResponsesDoWhatTheirClassSays :
    let s := at' (.call .go)
    s.params.ok = true ∧ s.line.isSync = false ∧ (0x00 : Byte) ≠ s.params.ackByte ∧ (0x00 : Byte) ≠ s.params.nackByte
      ∧ (at' (.call (.sync .first))).line = .call (.sync .first) := by decide

theorem witness_RepliesWriteTheIdentity :
    (at' (.call .getVersion)).payload = [] ∧ (List.replicate 255 (0 : Byte)).length ≤ 255
      ∧ 256 < (List.replicate 257 (0 : Byte)).length := 
  ⟨rfl, by rw [List.length_replicate], by rw [List.length_replicate]; decide⟩

theorem witness_ConnectIsBounded :
    let s := atRx (.ctl (.connectStart .first)) [N, A]
    let u := atRx (.ctl (.connectStart .again)) [.timeout, N]
    s.params.ok = true ∧ s.run = true ∧ s.moves = [] ∧ s.phase = [] ∧ s.sendAns = []
      ∧ (∀ a ∈ [RxAnswer.timeout, N], failsSync s.params a = true)
      ∧ [N].length < s.params.maxSyncAttempts ∧ s.rx = [N] ++ ackAns s.params :: []
      ∧ [RxAnswer.timeout, N].length = u.params.maxSyncAttempts ∧ u.rx = [RxAnswer.timeout, N] ++ [] := by decide

theorem witness_OpenLineOpensOrRaises :
    let s := unopened
    let u := { unopened with openAns := [.err] }
    s.params.ok = true ∧ s.run = true ∧ s.moves = [] ∧ s.phase = [] ∧ s.line = .ctl .openLink
      ∧ nextAnswer s.openAns = .ok ∧ nextAnswer u.openAns = .err ∧ u.linkOpen = false := by decide

theorem witness_VersionCheckAcceptsFromTheMinimum :
    let s := { at' (.ctl .versionCheck) with verValid := true, blMajor := 2, blMinor := 1 }
    let u := { s with blMinor := 0 }
    s.line = .ctl .versionCheck ∧ s.verValid = true ∧ s.params.minVersion ≤ s.blMajor.toNat * 256 + s.blMinor.toNat
      ∧ u.blMajor.toNat * 256 + u.blMinor.toNat < u.params.minVersion := by decide

theorem witness_ChipCheckIsMembership :
    let s := { at' (.ctl .chipCheck) with idValid := true, chipId := 0x0414 }
    let u := { s with chipId := 0x0999 }
    s.line = .ctl .chipCheck ∧ s.idValid = true ∧ s.chipId ∈ s.params.supportedChipIds
      ∧ u.chipId ∉ u.params.supportedChipIds := by decide

theorem witness_BranchesOfTheSession :
    (known (at' (.ctl .eraseSelect))).verValid = true ∧ (at' (.ctl .programStart)).totalBytes = 0
      ∧ ({ at' (.ctl .programStart) with totalBytes := 1 } : State).totalBytes ≠ 0
      ∧ (at' (.ctl .skipCheck)).line = .ctl .skipCheck := by decide

theorem witness_SourceReadStoresOrEnds :
    let s := { inLoop (.ctl .read) with src := [[1, 2, 3, 4]] }
    s.params.ok = true ∧ s.run = true ∧ s.moves = [] ∧ s.phase = [] ∧ s.line = .ctl .read ∧ s.src = [1, 2, 3, 4] :: []
      ∧ [1, 2, 3, (4 : Byte)].length ≤ s.params.maxChunk
      ∧ s.bytesWritten.toNat + [1, 2, 3, (4 : Byte)].length ≤ s.totalBytes.toNat ∧ s.chunkBuf.length = s.params.maxChunk
      ∧ s.params.maxChunk < [1, 2, 3, 4, (5 : Byte)].length
      ∧ s.totalBytes.toNat < ({ s with bytesWritten := 5 } : State).bytesWritten.toNat + [1, 2, 3, (4 : Byte)].length := by
  decide

theorem witness_AdvanceCountsAndReports :
    let s := { inLoop (.ctl .advance) with chunkLen := 4 }
    s.params.ok = true ∧ s.run = true ∧ s.moves = [] ∧ s.phase = [] ∧ s.line = .ctl .advance ∧ 1 ≤ s.chunkLen
      ∧ s.bytesWritten.toNat + s.chunkLen ≤ s.totalBytes.toNat := by decide

theorem witness_TraceOnlyGrows :
    view (fun t => t.trace.length) (step (atRx (.call .getVersion) [N])) = some 4
      ∧ (atRx (.call .getVersion) [N]).moves = [] := by decide

theorem witness_DeviceMemoryStaysCanonical :
    let s := { inLoop (.call .write) with rx := [A, A, A], dev := [(0x08000000, 9)] }
    Memory.wf s.dev = true ∧ view (fun t => t.dev.length) (step s) = some 4 := by decide

/-! ### The invariants -/

theorem flags_running {s : State} (h1 : s.run = true) (h2 : s.done = false) (h3 : s.err = false) (h4 : s.errCode = .none)
    (h5 : s.failStep = .none) : FlagsInv s := by
  constructor <;> simp [*]

/-- A running state with a link, between two steps of its session. -/
theorem inv_running {s : State} (hp : s.params = tp) (hf : FlagsInv s) (hr : s.run = true) (hl : s.linkOpen = true)
    (hn : s.line ≠ .ctl .openLink) (hph : s.phase = []) (hs : s.syncFails ≤ 2)
    (hpct : 10 ≤ s.nextPct ∧ s.nextPct ≤ 110 ∧ 10 ∣ s.nextPct) (hb : s.chunkBuf.length = 4 ∧ s.chunkLen ≤ 4)
    (hd : Memory.wf s.dev = true) (hw : s.bytesWritten.toNat ≤ s.totalBytes.toNat)
    (hfit : 0x08000000 + s.totalBytes.toNat ≤ 2 ^ 32) (hli : lineInv s) : SessionInv s := by
  have h2 := hf.running hr
  refine ⟨by rw [hp]; decide, hf, ?_, hd, hw, by rw [hp]; exact hfit, ?_, fun _ => by simp [hl, hn], fun _ => hli, ?_, ?_⟩
  · constructor <;> rw [hp]
    · exact hs
    · exact hpct.1
    · exact hpct.2.1
    · exact hpct.2.2
    · exact hb.1
    · exact hb.2
  · intro h; simp [State.idle, hr] at h
  · intro _
    unfold phaseInv
    split
    · exact .inl hph
    · exact hph
  · intro h; rw [h2.1] at h; cases h

/-- At GET_VERSION, at WRITE_MEMORY, after it, and while running with a reset given. -/
def sVersion : State := { atRx (.call .getVersion) [N] with seq := .connected }
def sWrite : State := { inLoop (.call .write) with rx := [A, A, N] }
def sAdvance : State := inLoop (.ctl .advance)
def sReset : State := { sVersion with moves := [.reset] }

theorem no_reset {s : State} (h : s.moves = []) : ∀ ms, s.moves ≠ .reset :: ms := by
  intro ms
  simp [h]

theorem loop_facts (l : Line) : looping (inLoop l) ∧ blockReady (inLoop l) := by
  refine ⟨⟨⟨⟨⟨rfl, ?_⟩, rfl, ?_⟩, rfl⟩, rfl, ?_, rfl, ?_⟩, ?_, ?_⟩
  · exact (by decide : tp.minVersion ≤ 2 * 256 + 2)
  · exact (by decide : decide ((0x0414 : ChipId) ∈ tp.supportedChipIds) = true)
  · exact (by decide : (8 : Addr) ≠ 0)
  · exact (by decide : (4 : Addr).toNat ≤ (8 : Addr).toNat)
  · exact (by decide : 1 ≤ 3)
  · exact (by decide : (4 : Addr).toNat + 3 ≤ (8 : Addr).toNat)

theorem witness_inv_version : SessionInv sVersion :=
  inv_running rfl (flags_running rfl rfl rfl rfl rfl) rfl rfl (by decide) rfl (by decide) (by decide) (by decide) rfl
    (by decide) (by decide) rfl

theorem witness_inv_write : SessionInv sWrite :=
  inv_running rfl (flags_running rfl rfl rfl rfl rfl) rfl rfl (by decide) rfl (by decide) (by decide) (by decide) rfl
    (by decide) (by decide) (loop_facts (.call .write))

theorem witness_inv_advance : SessionInv sAdvance :=
  inv_running rfl (flags_running rfl rfl rfl rfl rfl) rfl rfl (by decide) rfl (by decide) (by decide) (by decide) rfl
    (by decide) (by decide) (loop_facts (.ctl .advance))

theorem witness_inv_reset : SessionInv sReset ∧ sReset.run = true ∧ sReset.moves = .reset :: [] :=
  ⟨inv_running rfl (flags_running rfl rfl rfl rfl rfl) rfl rfl (by decide) rfl (by decide) (by decide) (by decide) rfl
    (by decide) (by decide) rfl, rfl, rfl⟩

theorem witness_FlagsStayConsistent :
    FlagsInv sWrite ∧ view (fun t => (t.err, t.linkOpen)) (step sWrite) = some (true, false) :=
  ⟨flags_running rfl rfl rfl rfl rfl, by decide⟩

theorem witness_SessionInvariantIsKept : SessionInv sAdvance ∧ view (fun t => t.bytesWritten) (step sAdvance) = some 7 :=
  ⟨witness_inv_advance, by decide⟩

theorem witness_SeqNeverDecreases :
    SessionInv sVersion ∧ (∀ ms, sVersion.moves ≠ .reset :: ms) ∧ view (fun t => t.seq) (step sVersion) = some .connected :=
  ⟨witness_inv_version, no_reset rfl, by decide⟩

theorem witness_TrafficOnlyWhileOpen :
    SessionInv sVersion ∧ (∀ ms, sVersion.moves ≠ .reset :: ms)
      ∧ view (fun t => (newEvents sVersion t).take 2) (step sVersion) = some [.tx [0x00, 0xFF] .ok, .rx N] :=
  ⟨witness_inv_version, no_reset rfl, by decide⟩

theorem witness_SessionsNeverFault :
    SessionInv sVersion ∧ SessionInv sReset ∧ sReset.run = true ∧ sReset.moves = .reset :: [] :=
  ⟨witness_inv_version, witness_inv_reset⟩

theorem witness_EncodedInstructionsDecode :
    tp.ok = true ∧ tp.opcodesDistinct = true ∧ WellFormed tp (.frameData [1, 2, 3, 4]) = true
      ∧ WellFormed tp (.responseId 0x0414) = true := by decide

theorem witness_CommandsAreGated :
    SessionInv sWrite
      ∧ view (fun t => (newEvents sWrite t).head?) (step sWrite) = some (some (.tx [0x31, 0xCE] .ok))
      ∧ sWrite.fetch.map (·.1) = some .writeMemory ∧ sWrite.run = true :=
  ⟨witness_inv_write, by decide, by decide, by decide⟩

theorem witness_AbortKeepsTheSession :
    SessionInv sWrite ∧ sWrite.err = false
      ∧ view (fun t => (t.err, (newEvents sWrite t).drop 6)) (step sWrite)
        = some (true, [.close, .haltErr .protoNack .program]) :=
  ⟨witness_inv_write, by decide, by decide⟩

theorem witness_ThresholdsFireOnce :
    SessionInv sAdvance
      ∧ view (fun t => (newEvents sAdvance t).filterMap pctOf) (step sAdvance) = some [60, 70, 80] :=
  ⟨witness_inv_advance, by decide⟩

theorem witness_EveryAnsweredStepMakesProgress :
    SessionInv sVersion ∧ sVersion.run = true ∧ sVersion.moves = [] ∧ answered sVersion :=
  ⟨witness_inv_version, rfl, rfl, fun h => absurd rfl h, fun h => absurd h (by decide)⟩

theorem witness_ProgramLoopWritesTheImage :
    let blocks : List (List Byte) := [[1, 2, 3, 4], [5]]
    let s := { known (at' (.ctl .programStart)) with
      totalBytes := 5, src := blocks ++ [] :: [], rx := List.replicate 6 A }
    s.params.ok = true ∧ s.run = true ∧ s.moves = [] ∧ s.phase = [] ∧ s.sendAns = [] ∧ s.totalBytes ≠ 0
      ∧ s.chunkBuf.length = s.params.maxChunk ∧ (∀ b ∈ blocks, b ≠ [] ∧ b.length ≤ s.params.maxChunk)
      ∧ blocks.flatten.length = s.totalBytes.toNat ∧ s.params.flashBase.toNat + s.totalBytes.toNat ≤ 2 ^ 32
      ∧ s.rx = List.replicate (3 * blocks.length) (ackAns s.params) ++ [] := by decide

theorem witness_ResetHasTheSessionInvariant : tp.ok = true ∧ { tp with flashBase := 0xFFFFFFFF }.ok = true := by decide

theorem witness_GetIdFailsInItsReply :
    let s := atRx (.call .getId) [A, .byte 1, .byte 4, .timeout]
    let u := atRx (.call .getId) [A, .byte 1, .byte 4, .byte 0x14, N]
    dataError .timeout ≠ .none ∧ ackError tp N ≠ .none ∧ [(4 : Byte)].length < 2
      ∧ s.rx = ackAns s.params :: .byte 1 :: [(4 : Byte)].map .byte ++ .timeout :: []
      ∧ (atRx (.call .getId) [A, .err]).rx = ackAns tp :: .err :: []
      ∧ u.rx = ackAns u.params :: .byte 1 :: .byte 4 :: .byte 0x14 :: N :: [] := by decide

theorem witness_ConfigurationRegistersAreKept :
    let c : HostCfg := { HostCfg.none with baud := some 57600 }
    let s := { inLoop (.call .write) with moves := [.config c] }
    s.run = true ∧ s.idle = false ∧ s.params.ok = true ∧ s.moves = .config c :: []
      ∧ view (fun t => (t.cfgBaud, t.hostCfg.baud)) (step s) = some (9600, some 57600) := by decide

theorem witness_RefusedLaterAckRaises :
    let s := atRx (.call .writeUnprotect) [N]
    let u := atRx (.call .go) [A, .timeout]
    let v := { atRx (.call .writeUnprotect) [A, N] with params := { tp with wupAcks := 2 } }
    s.params.ok = true ∧ ackError s.params N ≠ .none ∧ 0 < s.params.wupAcks
      ∧ s.rx = List.replicate 0 (ackAns s.params) ++ N :: [] ∧ ackError u.params .timeout ≠ .none
      ∧ argFrame .go u = some (.addr 0x08000000) ∧ u.rx = ackAns u.params :: .timeout :: []
      ∧ v.params.ok = true ∧ 1 < v.params.wupAcks ∧ v.rx = List.replicate 1 (ackAns v.params) ++ N :: [] := by decide

end Sys2Proof.Tests
end

section
/-! O45: no step changes a parameter, and every step but a reset extends the trace. The two facts travel together as one
relation between states, `Continues`, which every operation of a step is shown to keep. -/

namespace Sys2Proof.Machine

/-- `t` goes on from `s`: the parameters are the same (R7) and no event has been taken back (R11). -/
structure Continues (s t : State) : Prop where
  params : t.params = s.params
  trace : s.trace <+: t.trace

theorem Continues.refl (s : State) : Continues s s := ⟨rfl, List.prefix_rfl⟩

theorem Continues.trans {s t u : State} (h : Continues s t) (h' : Continues t u) : Continues s u :=
  ⟨h'.params.trans h.params, h.trace.trans h'.trace⟩

theorem Continues.of_trace_eq {s t : State} (hp : t.params = s.params) (ht : t.trace = s.trace) : Continues s t :=
  ⟨hp, ht ▸ List.prefix_rfl⟩

theorem Continues.of_append {s t : State} {ev : List Event} (hp : t.params = s.params) (ht : t.trace = s.trace ++ ev) :
    Continues s t :=
  ⟨hp, ht ▸ List.prefix_append _ _⟩

theorem CallFrame.continues {s t : State} (h : CallFrame s t) : Continues s t := ⟨h.params, h.trace⟩

/-! ## The abort, and a call -/

theorem raise_continues (code : ErrCode) (step : FailStep) (s : State) : Continues s (raise code step s) :=
  .of_append (raise_params code step s) ((raise_trace code step s).trans (List.append_assoc _ _ _))

theorem settle_continues (r : Run) : Continues r.state (settle r) := by
  cases r with
  | done s => exact .of_trace_eq rfl rfl
  | fail e s => exact Continues.trans (t := s.doubtAll) (.of_trace_eq rfl rfl) (raise_continues _ _ _)
  | retry s => exact .of_trace_eq rfl rfl
  | wait s => exact .refl s

theorem settle_runItems_continues (its : List Item) (s : State) : Continues s (settle (runItems its s)) :=
  (runItems_frame its s).continues.trans (settle_continues _)

theorem callAt_continues (c : CallSite) (its : List Item) (s : State) : Continues s (callAt c its s) :=
  Continues.trans (t := s.beginCall c) (.of_trace_eq rfl rfl) (settle_runItems_continues its _)

theorem resumeWith_continues (its : List Item) (s : State) : Continues s (resumeWith its s) :=
  Continues.trans (t := s.withPhase []) (.of_trace_eq rfl rfl) (settle_runItems_continues _ _)

/-! ## The lines that call nothing -/

theorem runOpen_continues (s : State) : Continues s (runOpen s) := by
  have h : Continues s s.opened := .of_append rfl (State.opened_trace s)
  unfold runOpen
  split
  · exact h.trans (.of_trace_eq rfl rfl)
  · exact h.trans (raise_continues _ _ _)

theorem runRetry_continues (h : Handshake) (s : State) : Continues s (runRetry h s) := by
  unfold runRetry
  split
  · exact Continues.trans (t := s.withSyncFails (s.syncFails + 1)) (.of_trace_eq rfl rfl) (raise_continues _ _ _)
  · exact .of_append rfl rfl

theorem takeChunk_continues (bs : List Byte) (s : State) : Continues s (takeChunk bs s) := by
  unfold takeChunk
  split
  · exact .of_trace_eq rfl rfl
  · split
    · exact raise_continues _ _ _
    · exact .of_trace_eq rfl rfl

theorem runRead_continues (s : State) : Continues s (runRead s) := by
  unfold runRead
  split
  · exact .refl s
  · exact Continues.trans (t := s.fed _) (.of_append rfl (State.fed_trace s _)) (takeChunk_continues _ _)

theorem runProgramStart_continues (s : State) : Continues s (runProgramStart s) := by
  unfold runProgramStart
  split <;> exact .of_trace_eq rfl rfl

theorem runVersionCheck_continues {s t : State} (h : runVersionCheck s = .next t) : Continues s t := by
  unfold runVersionCheck at h
  split at h
  · split at h <;> cases h
    · exact raise_continues _ _ _
    · exact .of_trace_eq rfl rfl
  · cases h

theorem runChipCheck_continues {s t : State} (h : runChipCheck s = .next t) : Continues s t := by
  unfold runChipCheck at h
  split at h
  · split at h <;> cases h
    · exact .of_trace_eq rfl rfl
    · exact raise_continues _ _ _
  · cases h

theorem runEraseSelect_continues {s t : State} (h : runEraseSelect s = .next t) : Continues s t := by
  unfold runEraseSelect at h
  split at h <;> cases h
  exact .of_trace_eq rfl rfl

theorem runAdvance_continues {s t : State} (h : runAdvance s = .next t) : Continues s t := by
  unfold runAdvance at h
  split at h <;> cases h
  exact .of_append rfl rfl

theorem runFinish_continues (s : State) : Continues s (runFinish s) :=
  .of_append (ev := [.close, .haltDone]) rfl (List.append_assoc _ _ _)

theorem runCtl_continues {c : Ctl} {s t : State} (h : runCtl c s = .next t) : Continues s t := by
  cases c with
  | versionCheck => exact runVersionCheck_continues h
  | chipCheck => exact runChipCheck_continues h
  | eraseSelect => exact runEraseSelect_continues h
  | advance => exact runAdvance_continues h
  | openLink => cases h; exact runOpen_continues s
  | retry hs => cases h; exact runRetry_continues hs s
  | programStart => cases h; exact runProgramStart_continues s
  | read => cases h; exact runRead_continues s
  | finish => cases h; exact runFinish_continues s
  | connectStart | connected | skipCheck | resyncCheck | unprotected | erased | goCheck | executing =>
    cases h; exact .of_trace_eq rfl rfl

/-! ## One step -/

theorem runSequencer_continues {s t : State} (h : runSequencer s = .next t) : Continues s t := by
  obtain ⟨-, rfl⟩ | ⟨-, -, c, -, hc⟩ | ⟨-, -, c, -, rfl, -⟩ | ⟨-, -, rfl⟩ := runSequencer_cases h
  · exact .refl t
  · exact runCtl_continues hc
  · exact Continues.trans (.of_trace_eq (doubting_params c s) (doubting_trace c s)) (callAt_continues c _ _)
  · exact resumeWith_continues [] s

theorem runMove_params {m : Move} {s t : State} (hm : m ≠ .pass) (h : runMove m s = .next t) : t.params = s.params := by
  obtain ⟨-, -, rfl⟩ | ⟨-, -, -, rfl⟩ | ⟨-, ht⟩ := runMove_cases hm h
  · rfl
  · rfl
  · rw [ht]

theorem runMove_trace {m : Move} {s t : State} (hm : m ≠ .pass) (hr : m ≠ .reset) (h : runMove m s = .next t) :
    t.trace = s.trace := by
  obtain ⟨hr', -⟩ | ⟨-, -, -, rfl⟩ | ⟨-, ht⟩ := runMove_cases hm h
  · exact absurd hr' hr
  · rfl
  · rw [ht]

/-- Settles O45: a step of the sequencer continues the state it starts from, and a move of the outside but `reset`
leaves the trace as it is. -/
theorem traceOnlyGrows : Obligations.TraceOnlyGrows := by
  unfold Obligations.TraceOnlyGrows
  intro s t h
  obtain ⟨-, ⟨ms, hseq, -⟩ | ⟨m, ms, hms, hm, hmove⟩⟩ := step_cases h
  · have hc := runSequencer_continues hseq
    exact ⟨hc.params, fun _ => hc.trace⟩
  · refine ⟨runMove_params (s := s.withMoves ms) hm hmove, fun hreset => ?_⟩
    have hr : m ≠ .reset := fun hr => hreset ms (hr ▸ hms)
    have ht : t.trace = s.trace := runMove_trace (s := s.withMoves ms) hm hr hmove
    exact ht ▸ List.prefix_rfl

end Sys2Proof.Machine
end

section
/-! What a line of the session that calls nothing can do, said once (R190): it goes on, it raises, it reports progress, or
it ends the run. -/

namespace Sys2Proof.Machine
open Sys2Proof.Safety

/-! ## Events that are neither traffic nor a threshold -/

/-- Neither a frame sent, nor an answer received, nor a threshold reported. -/
def Event.isQuiet : Event → Bool
  | .tx _ _ => false
  | .rx _ => false
  | .pct _ => false
  | _ => true

/-- The trace of `t` goes on from that of `s` with events for which `P` holds. -/
def AddsEvents (P : Event → Prop) (s t : State) : Prop := ∃ ev, t.trace = s.trace ++ ev ∧ ∀ e ∈ ev, P e

/-- The trace of `t` goes on from that of `s` with quiet events. -/
abbrev QuietTrace (s t : State) : Prop := AddsEvents (fun e => e.isQuiet = true) s t

theorem AddsEvents.none {P : Event → Prop} {s t : State} (h : t.trace = s.trace) : AddsEvents P s t :=
  ⟨[], by simpa using h, by simp⟩

theorem AddsEvents.one {P : Event → Prop} {s t : State} {e : Event} (h : t.trace = s.trace ++ [e]) (he : P e) :
    AddsEvents P s t :=
  ⟨[e], h, by simpa using he⟩

theorem AddsEvents.mono {P Q : Event → Prop} {s t : State} (hpq : ∀ e, P e → Q e) (h : AddsEvents P s t) :
    AddsEvents Q s t := by
  obtain ⟨ev, ht, hp⟩ := h
  exact ⟨ev, ht, fun e he => hpq e (hp e he)⟩

theorem AddsEvents.trans {P : Event → Prop} {s t u : State} (h : AddsEvents P s t) (h' : AddsEvents P t u) :
    AddsEvents P s u := by
  obtain ⟨ev, ht, hp⟩ := h
  obtain ⟨ev', hu, hp'⟩ := h'
  exact ⟨ev ++ ev', by rw [hu, ht, List.append_assoc], fun e he => (List.mem_append.1 he).elim (hp e) (hp' e)⟩

theorem newEvents_of_append {s t : State} {ev : List Event} (h : t.trace = s.trace ++ ev) : newEvents s t = ev := by
  rw [newEvents, h, List.drop_left]

theorem AddsEvents.newEvents {P : Event → Prop} {s t : State} (h : AddsEvents P s t) : ∀ e ∈ newEvents s t, P e := by
  obtain ⟨ev, ht, hp⟩ := h
  rwa [newEvents_of_append ht]

theorem raise_quiet (code : ErrCode) (f : FailStep) (s : State) : QuietTrace s (raise code f s) := by
  refine ⟨closing s.linkOpen ++ [.haltErr code f], by simp, fun e he => ?_⟩
  rcases List.mem_append.1 he with he | he
  · rw [(mem_closing.1 he).2]; rfl
  · rw [List.mem_singleton.1 he]; rfl

/-! ## What a line leaves alone -/

/-- The fields no line that calls nothing touches, but to halt or to report progress. -/
structure SameSetup (s t : State) : Prop where
  cfgPort : t.cfgPort = s.cfgPort
  cfgBaud : t.cfgBaud = s.cfgBaud
  cfgSkipProg : t.cfgSkipProg = s.cfgSkipProg
  cfgSendGo : t.cfgSendGo = s.cfgSendGo
  totalBytes : t.totalBytes = s.totalBytes
  hostCfg : t.hostCfg = s.hostCfg
  params : t.params = s.params
  run : t.run = s.run
  done : t.done = s.done
  err : t.err = s.err
  errCode : t.errCode = s.errCode
  failStep : t.failStep = s.failStep
  nextPct : t.nextPct = s.nextPct
  dev : t.dev = s.dev

/-- Those fields are the same, and the trace goes on with quiet events. -/
structure LineFrame (s t : State) : Prop extends SameSetup s t where
  quiet : QuietTrace s t

/-- What the line `c` leads to: the session goes on, it raises with an error, it reports progress (R210, R212), or it
ends (R216). -/
inductive LineEnd (c : Ctl) (s : State) : State → Prop
  | goesOn {t : State} (frame : LineFrame s t) : LineEnd c s t
  | raises {code : ErrCode} (f : FailStep) {u : State} (error : code ≠ .none) (frame : LineFrame s u) :
      LineEnd c s (raise code f u)
  | reports (line : c = .advance) (size : s.totalBytes ≠ 0) : LineEnd c s (s.advanced.reported.goto (.ctl .read))
  | finishes (line : c = .finish) : LineEnd c s (runFinish s)

theorem runOpen_end (c : Ctl) (s : State) : LineEnd c s (runOpen s) := by
  have hq : QuietTrace s s.opened := .one rfl rfl
  unfold runOpen
  split
  · exact .goesOn ⟨by constructor <;> rfl, hq⟩
  · exact .raises _ ErrCode.noConfusion ⟨by constructor <;> rfl, hq⟩

theorem runRetry_end (c : Ctl) (h : Handshake) (s : State) : LineEnd c s (runRetry h s) := by
  unfold runRetry
  split
  · exact .raises _ ErrCode.noConfusion ⟨by constructor <;> rfl, .none rfl⟩
  · exact .goesOn ⟨by constructor <;> rfl, .one rfl rfl⟩

theorem runVersionCheck_end {c : Ctl} {s t : State} (h : runVersionCheck s = .next t) : LineEnd c s t := by
  unfold runVersionCheck at h
  split at h
  · split at h <;> cases h
    · exact .raises _ ErrCode.noConfusion ⟨by constructor <;> rfl, .none rfl⟩
    · exact .goesOn ⟨by constructor <;> rfl, .none rfl⟩
  · cases h

theorem runChipCheck_end {c : Ctl} {s t : State} (h : runChipCheck s = .next t) : LineEnd c s t := by
  unfold runChipCheck at h
  split at h
  · split at h <;> cases h
    · exact .goesOn ⟨by constructor <;> rfl, .none rfl⟩
    · exact .raises _ ErrCode.noConfusion ⟨by constructor <;> rfl, .none rfl⟩
  · cases h

theorem runEraseSelect_end {c : Ctl} {s t : State} (h : runEraseSelect s = .next t) : LineEnd c s t := by
  unfold runEraseSelect at h
  split at h <;> cases h
  exact .goesOn ⟨by constructor <;> rfl, .none rfl⟩

theorem runProgramStart_end (c : Ctl) (s : State) : LineEnd c s (runProgramStart s) := by
  unfold runProgramStart
  split <;> exact .goesOn ⟨by constructor <;> rfl, .none rfl⟩

theorem runRead_end (c : Ctl) (s : State) : LineEnd c s (runRead s) := by
  unfold runRead
  split
  · exact .goesOn ⟨by constructor <;> rfl, .none rfl⟩
  · next bs _ _ =>
    have hq : QuietTrace s (s.fed bs) := .one rfl rfl
    unfold takeChunk
    split
    · exact .goesOn ⟨by constructor <;> rfl, hq⟩
    · split
      · exact .raises _ ErrCode.noConfusion ⟨by constructor <;> rfl, hq⟩
      · exact .goesOn ⟨by constructor <;> rfl, hq⟩

theorem runAdvance_next {s t : State} (h : runAdvance s = .next t) :
    s.totalBytes ≠ 0 ∧ t = s.advanced.reported.goto (.ctl .read) := by
  unfold runAdvance at h
  split at h
  · cases h
  · next hne => cases h; exact ⟨hne, rfl⟩

theorem runCtl_end {c : Ctl} {s t : State} (h : runCtl c s = .next t) : LineEnd c s t := by
  cases c with
  | versionCheck => exact runVersionCheck_end h
  | chipCheck => exact runChipCheck_end h
  | eraseSelect => exact runEraseSelect_end h
  | advance =>
    obtain ⟨hne, rfl⟩ := runAdvance_next h
    exact .reports rfl hne
  | openLink => cases h; exact runOpen_end _ s
  | retry hs => cases h; exact runRetry_end _ hs s
  | programStart => cases h; exact runProgramStart_end _ s
  | read => cases h; exact runRead_end _ s
  | finish => cases h; exact .finishes rfl
  | connectStart | connected | skipCheck | resyncCheck | unprotected | erased | goCheck | executing =>
    cases h; exact .goesOn ⟨by constructor <;> rfl, .none rfl⟩

end Sys2Proof.Machine
end

section
/-! O47: the outcome flags. While the FRAMER runs they are all clear (`RunFlags`), and a step leaves that state only by
`raise` or by the last line of the session. -/

namespace Sys2Proof.Machine
open Sys2Proof.Safety

/-- The outcome flags of a running FRAMER: running, with no outcome yet (R31, R33, R34). -/
structure RunFlags (s : State) : Prop where
  run : s.run = true
  done : s.done = false
  err : s.err = false
  errCode : s.errCode = .none
  failStep : s.failStep = .none

theorem RunFlags.of_flagsInv {s : State} (h : FlagsInv s) (hr : s.run = true) : RunFlags s := by
  obtain ⟨hd, he⟩ := h.running hr
  obtain ⟨hc, hf⟩ := h.noError he
  exact ⟨hr, hd, he, hc, hf⟩

theorem RunFlags.flagsInv {s : State} (h : RunFlags s) : FlagsInv s where
  notBoth := fun hb => by simp [h.done] at hb
  running := fun _ => ⟨h.done, h.err⟩
  closed := fun hr => by simp [h.run] at hr
  noError := fun _ => ⟨h.errCode, h.failStep⟩
  anError := fun he => by simp [h.err] at he

theorem RunFlags.of_lineFrame {s t : State} (h : RunFlags s) (hf : LineFrame s t) : RunFlags t :=
  ⟨hf.run.trans h.run, hf.done.trans h.done, hf.err.trans h.err, hf.errCode.trans h.errCode,
    hf.failStep.trans h.failStep⟩

theorem RunFlags.of_callFrame {s t : State} (h : RunFlags s) (hf : CallFrame s t) : RunFlags t :=
  ⟨hf.run.trans h.run, hf.done.trans h.done, hf.err.trans h.err, hf.errCode.trans h.errCode,
    hf.failStep.trans h.failStep⟩

/-- An abort while nothing is done leaves the flags of a failed run (R236). -/
theorem flagsInv_raise {code : ErrCode} (f : FailStep) {s : State} (hc : code ≠ .none) (hd : s.done = false) :
    FlagsInv (raise code f s) := by
  constructor <;> simp [hc, hd]

theorem flagsInv_runFinish {s : State} (h : RunFlags s) : FlagsInv (runFinish s) where
  notBoth := fun hb => by simp [runFinish, closeLink, h.err] at hb
  running := fun hr => by simp [runFinish] at hr
  closed := fun _ => rfl
  noError := fun _ => ⟨h.errCode, h.failStep⟩
  anError := fun he => by simp [runFinish, closeLink, h.err] at he

theorem runCtl_flags {c : Ctl} {s t : State} (h : RunFlags s) (hc : runCtl c s = .next t) : FlagsInv t := by
  cases runCtl_end hc with
  | goesOn frame => exact (h.of_lineFrame frame).flagsInv
  | raises f error frame => exact flagsInv_raise f error (h.of_lineFrame frame).done
  | reports => exact RunFlags.flagsInv ⟨h.run, h.done, h.err, h.errCode, h.failStep⟩
  | finishes => exact flagsInv_runFinish h

theorem settle_runItems_flags (its : List Item) {s : State} (h : RunFlags s) :
    FlagsInv (settle (runItems its s)) := by
  have hv := h.of_callFrame (runItems_frame its s)
  cases hr : runItems its s with
  | fail e v => rw [hr] at hv; exact flagsInv_raise _ (runItems_fail hr) hv.done
  | done v | retry v | wait v =>
    rw [hr] at hv
    exact RunFlags.flagsInv ⟨hv.run, hv.done, hv.err, hv.errCode, hv.failStep⟩

theorem runSequencer_flags {s t : State} (hs : FlagsInv s) (h : runSequencer s = .next t) : FlagsInv t := by
  obtain ⟨-, rfl⟩ | ⟨hr, -, c, -, hc⟩ | ⟨hr, -, c, -, rfl, -⟩ | ⟨hr, -, rfl⟩ := runSequencer_cases h
  · exact hs
  · exact runCtl_flags (.of_flagsInv hs hr) hc
  · obtain ⟨hr, hd, he, hc, hf⟩ := RunFlags.of_flagsInv hs hr
    refine settle_runItems_flags _ ?_
    constructor <;> simp [*]
  · obtain ⟨hr, hd, he, hc, hf⟩ := RunFlags.of_flagsInv hs hr
    exact settle_runItems_flags _ ⟨hr, hd, he, hc, hf⟩

theorem flagsInv_resetRegs (s : State) : FlagsInv s.resetRegs := by
  constructor <;> simp [State.resetRegs, State.resetWith]

theorem runMove_flags {m : Move} {s t : State} (hs : FlagsInv s) (hm : m ≠ .pass) (h : runMove m s = .next t) :
    FlagsInv t := by
  obtain ⟨-, -, rfl⟩ | ⟨-, hi, -, rfl⟩ | ⟨-, ht⟩ := runMove_cases hm h
  · exact flagsInv_resetRegs s
  · obtain ⟨-, hd, he⟩ := idle_iff.1 hi
    obtain ⟨hc, hf⟩ := hs.noError he
    exact RunFlags.flagsInv ⟨rfl, hd, he, hc, hf⟩
  · rw [ht]
    exact ⟨hs.notBoth, hs.running, hs.closed, hs.noError, hs.anError⟩

theorem flagsInv_withMoves {s : State} (h : FlagsInv s) (ms : List Move) : FlagsInv (s.withMoves ms) :=
  ⟨h.notBoth, h.running, h.closed, h.noError, h.anError⟩

/-- Settles O47: a step of the sequencer and a move of the outside both keep the flags consistent. -/
theorem flagsStayConsistent : Obligations.FlagsStayConsistent := by
  unfold Obligations.FlagsStayConsistent
  intro s t hs h
  obtain ⟨-, ⟨ms, hseq, -⟩ | ⟨m, ms, -, hm, hmove⟩⟩ := step_cases h
  · exact runSequencer_flags (flagsInv_withMoves hs ms) hseq
  · exact runMove_flags (flagsInv_withMoves hs ms) hm hmove

end Sys2Proof.Machine
end

section
/-! O59: the configuration registers and the host's inputs. The sequencer never writes them. -/

namespace Sys2Proof.Machine
open Sys2Proof.Safety

/-- The configuration registers (R24, R25) and the host's inputs are the same. -/
structure SameConfig (s t : State) : Prop where
  cfgPort : t.cfgPort = s.cfgPort
  cfgBaud : t.cfgBaud = s.cfgBaud
  cfgSkipProg : t.cfgSkipProg = s.cfgSkipProg
  cfgSendGo : t.cfgSendGo = s.cfgSendGo
  totalBytes : t.totalBytes = s.totalBytes
  hostCfg : t.hostCfg = s.hostCfg

theorem SameConfig.trans {s t u : State} (h : SameConfig s t) (h' : SameConfig t u) : SameConfig s u :=
  ⟨h'.cfgPort.trans h.cfgPort, h'.cfgBaud.trans h.cfgBaud, h'.cfgSkipProg.trans h.cfgSkipProg,
    h'.cfgSendGo.trans h.cfgSendGo, h'.totalBytes.trans h.totalBytes, h'.hostCfg.trans h.hostCfg⟩

theorem LineFrame.config {s t : State} (h : LineFrame s t) : SameConfig s t :=
  ⟨h.cfgPort, h.cfgBaud, h.cfgSkipProg, h.cfgSendGo, h.totalBytes, h.hostCfg⟩

theorem CallFrame.config {s t : State} (h : CallFrame s t) : SameConfig s t :=
  ⟨h.cfgPort, h.cfgBaud, h.cfgSkipProg, h.cfgSendGo, h.totalBytes, h.hostCfg⟩

theorem raise_config (code : ErrCode) (f : FailStep) (s : State) : SameConfig s (raise code f s) := by
  constructor <;> simp

theorem runCtl_config {c : Ctl} {s t : State} (h : runCtl c s = .next t) : SameConfig s t := by
  cases runCtl_end h with
  | goesOn frame => exact frame.config
  | raises f error frame => exact frame.config.trans (raise_config _ _ _)
  | reports => constructor <;> rfl
  | finishes => constructor <;> rfl

theorem settle_runItems_config (its : List Item) (s : State) : SameConfig s (settle (runItems its s)) := by
  refine (runItems_frame its s).config.trans ?_
  cases runItems its s with
  | fail e v => exact SameConfig.trans (t := v.doubtAll) (by constructor <;> rfl) (raise_config _ _ _)
  | done v | retry v | wait v => constructor <;> rfl

theorem runSequencer_config {s t : State} (h : runSequencer s = .next t) : SameConfig s t := by
  obtain ⟨-, rfl⟩ | ⟨-, -, c, -, hc⟩ | ⟨-, -, c, -, rfl, -⟩ | ⟨-, -, rfl⟩ := runSequencer_cases h
  · constructor <;> rfl
  · exact runCtl_config hc
  · exact SameConfig.trans (t := (doubting c s).beginCall c) (by constructor <;> simp) (settle_runItems_config _ _)
  · exact SameConfig.trans (t := s.withPhase []) (by constructor <;> rfl) (settle_runItems_config _ _)

theorem runMove_hostCfg {m : Move} {s t : State} (hm : ∀ c, m ≠ .config c) (h : runMove m s = .next t) :
    t.hostCfg = s.hostCfg := by
  cases m with
  | config c => exact absurd rfl (hm c)
  | reset =>
    simp only [runMove, hostReset] at h
    split at h <;> cases h
    rfl
  | start =>
    simp only [runMove, hostStart] at h
    split at h <;> cases h <;> rfl
  | pass | openAnswer | sendAnswer | rxAnswer | srcAnswer => cases h; rfl

/-- Settles O59: the sequencer writes none of these registers, a move but `reset` and an accepted `start` changes the
outside alone, and `config` is the one move that changes the inputs. -/
theorem configurationRegistersAreKept : Obligations.ConfigurationRegistersAreKept := by
  unfold Obligations.ConfigurationRegistersAreKept
  refine ⟨fun s t h hreset hstart => ?_, fun s t h hconfig => ?_, fun s c ms hok hms => ?_⟩
  · obtain ⟨-, ⟨ms, hseq, -⟩ | ⟨m, ms, hms, hm, hmove⟩⟩ := step_cases h
    · have hc := runSequencer_config hseq
      exact ⟨hc.cfgPort, hc.cfgBaud, hc.cfgSkipProg, hc.cfgSendGo, hc.totalBytes⟩
    · obtain ⟨rfl, -⟩ | ⟨rfl, hi, ha, -⟩ | ⟨-, ht⟩ := runMove_cases hm hmove
      · exact absurd hms (hreset ms)
      · exact absurd hms (hstart hi ha ms)
      · rw [ht]
        exact ⟨rfl, rfl, rfl, rfl, rfl⟩
  · obtain ⟨-, ⟨ms, hseq, -⟩ | ⟨m, ms, hms, -, hmove⟩⟩ := step_cases h
    · exact (runSequencer_config hseq).hostCfg
    · exact runMove_hostCfg (s := s.withMoves ms) (fun c hc => hconfig c ms (hc ▸ hms)) hmove
  · simp [step, hok, hms, runMove, State.withMoves]

end Sys2Proof.Machine
end

section
/-! O5, O6, O9: what a FRAMER that does not run does, and what reading a register gives. -/

namespace Sys2Proof.Machine
open Sys2Proof.Safety

theorem runSequencer_idle {s : State} (h : s.run = false) : runSequencer s = .next s := by
  simp [runSequencer, h]

/-- Where the outside makes no move, a step is one of the sequencer (R12). -/
theorem step_noMove {s : State} (hok : s.params.ok = true) (hm : s.moves = [] ∨ ∃ ms, s.moves = .pass :: ms) :
    step s = runSequencer (s.withMoves s.moves.tail) := by
  obtain hm | ⟨ms, hm⟩ := hm
  · have hs : s.withMoves s.moves.tail = s := by
      rw [hm, List.tail_nil, ← hm]
      rfl
    rw [hs, step, if_pos hok, hm]
  · rw [step, if_pos hok, hm]
    rfl

/-- Settles O5: the sequencer takes no step while `RUN = 0`. -/
theorem noStepWhileNotRunning : Obligations.NoStepWhileNotRunning := by
  unfold Obligations.NoStepWhileNotRunning
  intro s hok hr hm
  rw [step_noMove hok hm]
  exact runSequencer_idle hr

/-- Settles O6: after a halt the sequencer takes no step, no `start` is accepted, and every other move but `reset`
changes the outside alone. -/
theorem haltIsFinalUntilReset : Obligations.HaltIsFinalUntilReset := by
  unfold Obligations.HaltIsFinalUntilReset
  intro s t m ms hr hhalt hms hreset h
  obtain ⟨-, ⟨ms', hseq, hms'⟩ | ⟨m', ms', hms', hm', hmove⟩⟩ := step_cases h
  · have hms' : ms' = ms := by
      obtain ⟨hnil, -⟩ | hpass := hms'
      · simp [hms] at hnil
      · simp_all
    rw [runSequencer_idle (s := s.withMoves ms') hr] at hseq
    cases hseq
    rw [hms']
    rfl
  · obtain ⟨rfl, rfl⟩ : m' = m ∧ ms' = ms := by simp_all
    obtain ⟨hm, -⟩ | ⟨-, hi, -⟩ | ⟨-, ht⟩ := runMove_cases hm' hmove
    · exact absurd hm hreset
    · obtain ⟨-, hd, he⟩ := idle_iff.1 hi
      obtain hdone | herr := hhalt
      · exact absurd (hdone.symm.trans hd) (by simp)
      · exact absurd (herr.symm.trans he) (by simp)
    · exact ht

theorem readReg_chunkBuf_inside {s : State} {i : Nat} (hb : i < s.chunkBuf.length) (hl : i < s.chunkLen) :
    readReg s (.chunkBuf i) = .ok (.number (s.chunkBuf[i]).toNat) := by
  have h : (s.chunkBuf.take s.chunkLen)[i]? = some s.chunkBuf[i] := by
    rw [List.getElem?_take_of_lt hl, List.getElem?_eq_getElem hb]
  simp [readReg, h]

theorem readReg_chunkBuf_past {s : State} {i : Nat} (h : s.chunkLen ≤ i) :
    readReg s (.chunkBuf i) = .error (.noValue (.chunkBuf i)) := by
  have h : (s.chunkBuf.take s.chunkLen)[i]? = none := List.getElem?_take_eq_none h
  simp [readReg, h]

/-- Settles O9: the identity registers read through their valid flags, and CHUNK_BUF through CHUNK_LEN. -/
theorem readsFaultWithoutAValue : Obligations.ReadsFaultWithoutAValue := by
  unfold Obligations.ReadsFaultWithoutAValue
  intro s
  refine ⟨?_, ?_, ?_, fun hv => ?_, fun hv => ?_, fun i hb hl => readReg_chunkBuf_inside hb hl,
    fun i hl => readReg_chunkBuf_past hl⟩
  · cases hv : s.verValid <;> simp [readReg, hv]
  · cases hv : s.verValid <;> simp [readReg, hv]
  · cases hv : s.idValid <;> simp [readReg, hv]
  · simp [readReg, hv]
  · simp [readReg, hv]

end Sys2Proof.Machine
end

section
/-! O48: the session invariant holds after reset. It is built from `CoreInv`, the part of it that holds running and halted
alike, and the flags. -/

namespace Sys2Proof.Machine
open Sys2Proof.Safety

/-- The part of the session invariant that says nothing of where the session stands. -/
structure CoreInv (s : State) : Prop where
  params : s.params.ok = true
  ranges : RangeInv s
  dev : Memory.wf s.dev = true
  written : s.bytesWritten.toNat ≤ s.totalBytes.toNat
  fits : s.params.flashBase.toNat + s.totalBytes.toNat ≤ 2 ^ 32

theorem CoreInv.of_sessionInv {s : State} (h : SessionInv s) : CoreInv s :=
  ⟨h.params, h.ranges, h.dev, h.written, h.fits⟩

/-- The registers that `CoreInv` speaks of, DEV apart, are the same. -/
structure SameCore (s t : State) : Prop where
  params : t.params = s.params
  totalBytes : t.totalBytes = s.totalBytes
  bytesWritten : t.bytesWritten = s.bytesWritten
  syncFails : t.syncFails = s.syncFails
  nextPct : t.nextPct = s.nextPct
  chunkBuf : t.chunkBuf = s.chunkBuf
  chunkLen : t.chunkLen = s.chunkLen

theorem CoreInv.of_same {s t : State} (h : CoreInv s) (hst : SameCore s t) (hdev : t.dev.wf = true) : CoreInv t where
  params := hst.params ▸ h.params
  ranges := by
    obtain ⟨h1, h2, h3, h4, h5, h6⟩ := h.ranges
    constructor <;> rw [hst.params]
    · rwa [hst.syncFails]
    · rwa [hst.nextPct]
    · rwa [hst.nextPct]
    · rwa [hst.nextPct]
    · rwa [hst.chunkBuf]
    · rwa [hst.chunkLen]
  dev := hdev
  written := by rw [hst.bytesWritten, hst.totalBytes]; exact h.written
  fits := by rw [hst.params, hst.totalBytes]; exact h.fits

theorem CallFrame.sameCore {s t : State} (h : CallFrame s t) : SameCore s t :=
  ⟨h.params, h.totalBytes, h.bytesWritten, h.syncFails, h.nextPct, h.chunkBuf, h.chunkLen⟩

theorem coreInv_raise (code : ErrCode) (f : FailStep) {s : State} (h : CoreInv s) : CoreInv (raise code f s) :=
  h.of_same (by constructor <;> simp) (by simpa using h.dev)

/-- `reset` with admitted parameters leads to a state with the session invariant, whatever lies outside (R260, R262). -/
theorem sessionInv_resetRegs {s : State} (hok : s.params.ok = true) (hdev : s.dev.wf = true) :
    SessionInv s.resetRegs where
  params := hok
  flags := flagsInv_resetRegs s
  ranges :=
    { syncFails := Nat.zero_le _
      nextPctLow := Nat.le_refl _
      nextPctHigh := Nat.le_add_left _ _
      nextPctStep := Nat.dvd_refl _
      chunkBuf := List.length_replicate
      chunkLen := Nat.zero_le _ }
  dev := hdev
  written := Nat.le_refl _
  fits := Nat.le_of_lt s.params.flashBase.isLt
  idle := fun _ => ⟨rfl, rfl, rfl, rfl, rfl⟩
  link := nofun
  line := nofun
  phase := nofun
  finished := nofun

theorem resetRegs_resetWith (p : Params) : (State.resetWith p).resetRegs = State.resetWith p := rfl

/-- Settles O48: the state after reset is its own reset, with nothing known of DEV. -/
theorem resetHasTheSessionInvariant : Obligations.ResetHasTheSessionInvariant := by
  unfold Obligations.ResetHasTheSessionInvariant
  have h : ∀ p : Params, p.ok = true → SessionInv (State.resetWith p) := fun p hp =>
    resetRegs_resetWith p ▸ sessionInv_resetRegs hp (Memory.wf_reset p)
  exact ⟨h, h Params.default (by decide)⟩

end Sys2Proof.Machine
end

section
/-! The progress thresholds (R46, R212): what the threshold loop reports and where it stops. -/

namespace Sys2Proof.Machine
open Sys2Proof.Safety

theorem thresholds_succ_reached {step pct fuel next : Nat} (h : next ≤ 100 ∧ next ≤ pct) :
    thresholds step pct (fuel + 1) next =
      (next :: (thresholds step pct fuel (next + step)).1, (thresholds step pct fuel (next + step)).2) :=
  if_pos h

theorem thresholds_succ_stop {step pct fuel next : Nat} (h : ¬ (next ≤ 100 ∧ next ≤ pct)) :
    thresholds step pct (fuel + 1) next = ([], next) :=
  if_neg h

/-- Where the loop stops: at a multiple of the step, no earlier than it began, and at most one step past 100. -/
theorem thresholds_next (step pct : Nat) : ∀ fuel next : Nat, step ∣ next → next ≤ 100 + step →
    next ≤ (thresholds step pct fuel next).2 ∧ (thresholds step pct fuel next).2 ≤ 100 + step
      ∧ step ∣ (thresholds step pct fuel next).2
  | 0, next, hd, hle => ⟨Nat.le_refl _, hle, hd⟩
  | fuel + 1, next, hd, hle => by
    by_cases h : next ≤ 100 ∧ next ≤ pct
    · rw [thresholds_succ_reached h]
      obtain ⟨hlow, hrest⟩ := thresholds_next step pct fuel (next + step) (Nat.dvd_add_self_right.2 hd) (by omega)
      exact ⟨by dsimp only; omega, hrest⟩
    · rw [thresholds_succ_stop h]
      exact ⟨Nat.le_refl _, hle, hd⟩

/-- What the loop reports: multiples of the step, from where it began to below where it stops, none above 100. -/
theorem thresholds_mem {step : Nat} (pct : Nat) (hs : 1 ≤ step) : ∀ (fuel next : Nat), step ∣ next → next ≤ 100 + step →
    ∀ k ∈ (thresholds step pct fuel next).1,
      next ≤ k ∧ k < (thresholds step pct fuel next).2 ∧ k ≤ 100 ∧ step ∣ k
  | 0, _, _, _ => nofun
  | fuel + 1, next, hd, hle => by
    by_cases h : next ≤ 100 ∧ next ≤ pct
    · have hd' : step ∣ next + step := Nat.dvd_add_self_right.2 hd
      have hstop := (thresholds_next step pct fuel (next + step) hd' (by omega)).1
      rw [thresholds_succ_reached h]
      intro k hk
      rcases List.mem_cons.1 hk with rfl | hk
      · exact ⟨Nat.le_refl _, by dsimp only; omega, h.1, hd⟩
      · obtain ⟨hlow, hrest⟩ := thresholds_mem pct hs fuel (next + step) hd' (by omega) k hk
        exact ⟨by omega, hrest⟩
    · rw [thresholds_succ_stop h]
      nofun

/-- The loop reports each threshold once, in rising order. -/
theorem thresholds_rise {step : Nat} (pct : Nat) (hs : 1 ≤ step) : ∀ (fuel next : Nat), step ∣ next → next ≤ 100 + step →
    (thresholds step pct fuel next).1.Pairwise (· < ·)
  | 0, _, _, _ => List.Pairwise.nil
  | fuel + 1, next, hd, hle => by
    by_cases h : next ≤ 100 ∧ next ≤ pct
    · have hd' : step ∣ next + step := Nat.dvd_add_self_right.2 hd
      rw [thresholds_succ_reached h]
      refine List.pairwise_cons.2 ⟨fun k hk => ?_, thresholds_rise pct hs fuel _ hd' (by omega)⟩
      have hlow := (thresholds_mem pct hs fuel (next + step) hd' (by omega) k hk).1
      omega
    · rw [thresholds_succ_stop h]
      exact List.Pairwise.nil

end Sys2Proof.Machine
end

section
/-! O49, the lines that call nothing: each leads from its own invariant to that of the line it goes on to. -/

namespace Sys2Proof.Machine
open Sys2Proof.Safety

/-! ## The two ways to establish the session invariant -/

/-- A running FRAMER with its link open, between two steps of its session. -/
structure Running (s : State) : Prop where
  flags : RunFlags s
  core : CoreInv s
  link : s.linkOpen = true
  phase : s.phase = []

theorem phaseInv_nil {s : State} (h : s.phase = []) : phaseInv s := by
  unfold phaseInv
  split
  · exact .inl h
  · exact h

theorem sessionInv_of_running {s : State} (hf : RunFlags s) (hc : CoreInv s)
    (hl : s.linkOpen = true ↔ s.line ≠ .ctl .openLink) (hi : lineInv s) (hp : phaseInv s) : SessionInv s where
  params := hc.params
  flags := hf.flagsInv
  ranges := hc.ranges
  dev := hc.dev
  written := hc.written
  fits := hc.fits
  idle := fun h => absurd ((idle_iff.1 h).1.symm.trans hf.run) (by simp)
  link := fun _ => hl
  line := fun _ => hi
  phase := fun _ => hp
  finished := fun h => absurd (h.symm.trans hf.done) (by simp)

theorem Running.sessionInv {s : State} (h : Running s) (hl : s.line ≠ .ctl .openLink) (hi : lineInv s) : SessionInv s :=
  sessionInv_of_running h.flags h.core ⟨fun _ => hl, fun _ => h.link⟩ hi (phaseInv_nil h.phase)

/-- An abort keeps the session invariant: it asks nothing of where the session stood. -/
theorem sessionInv_raise {code : ErrCode} (f : FailStep) {s : State} (hc : CoreInv s) (hcode : code ≠ .none)
    (hd : s.done = false) : SessionInv (raise code f s) := by
  have hr := coreInv_raise code f hc
  exact
    { params := hr.params
      flags := flagsInv_raise f hcode hd
      ranges := hr.ranges
      dev := hr.dev
      written := hr.written
      fits := hr.fits
      idle := by simp [State.idle]
      link := by simp
      line := by simp
      phase := by simp
      finished := by simp [hd] }

theorem callInv_of_line {c : CallSite} {s : State} (h : SessionInv s) (hr : s.run = true) (hl : s.line = .call c) :
    callInv c s := by
  have hi := h.line hr
  rwa [lineInv, hl] at hi

theorem ctlInv_of_line {c : Ctl} {s : State} (h : SessionInv s) (hr : s.run = true) (hl : s.line = .ctl c) :
    ctlInv c s := by
  have hi := h.line hr
  rwa [lineInv, hl] at hi

/-! ## Going on to another line -/

/-- The flags, the link and the call in progress are the same. -/
structure SameRun (s t : State) : Prop where
  run : t.run = s.run
  done : t.done = s.done
  err : t.err = s.err
  errCode : t.errCode = s.errCode
  failStep : t.failStep = s.failStep
  linkOpen : t.linkOpen = s.linkOpen
  phase : t.phase = s.phase

theorem Running.goesOn {s t : State} (h : Running s) (hst : SameRun s t) (hc : CoreInv t) : Running t where
  flags :=
    { run := hst.run.trans h.flags.run
      done := hst.done.trans h.flags.done
      err := hst.err.trans h.flags.err
      errCode := hst.errCode.trans h.flags.errCode
      failStep := hst.failStep.trans h.flags.failStep }
  core := hc
  link := hst.linkOpen.trans h.link
  phase := hst.phase.trans h.phase

theorem Running.goto {s : State} (h : Running s) (l : Line) : Running (s.goto l) :=
  h.goesOn (by constructor <;> rfl) (h.core.of_same (by constructor <;> rfl) h.core.dev)

theorem Running.setSeq {s : State} (h : Running s) (q : Seq) : Running (s.setSeq q) :=
  h.goesOn (by constructor <;> rfl) (h.core.of_same (by constructor <;> rfl) h.core.dev)

theorem Running.emit {s : State} (h : Running s) (e : Event) : Running (s.emit e) :=
  h.goesOn (by constructor <;> rfl) (h.core.of_same (by constructor <;> rfl) h.core.dev)

theorem Running.fed {s : State} (h : Running s) (bs : List Byte) : Running (s.fed bs) :=
  h.goesOn (by constructor <;> rfl) (h.core.of_same (by constructor <;> rfl) h.core.dev)

theorem Running.withSyncFails {s : State} (h : Running s) {n : Nat} (hn : n ≤ s.params.maxSyncAttempts) :
    Running (s.withSyncFails n) :=
  h.goesOn (by constructor <;> rfl) { h.core with ranges := { h.core.ranges with syncFails := hn } }

theorem Running.rewound {s : State} (h : Running s) : Running s.rewound :=
  h.goesOn (by constructor <;> rfl) { h.core with ranges := { h.core.ranges with }, written := Nat.zero_le _ }

theorem Running.withChunkLen {s : State} (h : Running s) {n : Nat} (hn : n ≤ s.params.maxChunk) :
    Running (s.withChunkLen n) :=
  h.goesOn (by constructor <;> rfl) { h.core with ranges := { h.core.ranges with chunkLen := hn } }

theorem Running.storeChunk {s : State} (h : Running s) {bs : List Byte} (hn : bs.length ≤ s.params.maxChunk) :
    Running (s.storeChunk bs) := by
  have hbuf : (bs ++ s.chunkBuf.drop bs.length).length = s.params.maxChunk := by
    have := h.core.ranges.chunkBuf
    rw [List.length_append, List.length_drop]
    omega
  exact h.goesOn (by constructor <;> rfl) { h.core with ranges := { h.core.ranges with chunkBuf := hbuf, chunkLen := hn } }

/-! ## The counts of the program loop -/

/-- An admitted block does not wrap the byte count (R208, R210). -/
theorem advanced_bytesWritten_toNat {s : State} (h : blockReady s) :
    s.advanced.bytesWritten.toNat = s.bytesWritten.toNat + s.chunkLen := by
  have hsum := h.2
  have hlt := s.totalBytes.isLt
  rw [State.advanced_bytesWritten, BitVec.toNat_add, BitVec.toNat_ofNat, Nat.mod_eq_of_lt (a := s.chunkLen) (by omega),
    Nat.mod_eq_of_lt (by omega)]

theorem Running.advanced {s : State} (h : Running s) (hb : blockReady s) : Running s.advanced := by
  have hw : s.advanced.bytesWritten.toNat ≤ s.totalBytes.toNat := advanced_bytesWritten_toNat hb ▸ hb.2
  exact h.goesOn (by constructor <;> rfl) { h.core with ranges := { h.core.ranges with }, written := hw }

theorem Running.reported {s : State} (h : Running s) : Running s.reported := by
  obtain ⟨hlow, hhigh, hdvd⟩ := thresholds_next s.params.pctStep (percentage s.bytesWritten s.totalBytes) thresholdFuel
    s.nextPct h.core.ranges.nextPctStep h.core.ranges.nextPctHigh
  exact h.goesOn (by constructor <;> rfl)
    { h.core with
      ranges :=
        { h.core.ranges with
          nextPctLow := h.core.ranges.nextPctLow.trans hlow
          nextPctHigh := hhigh
          nextPctStep := hdvd } }

theorem looping_advanced {s : State} (h : looping s) (hb : blockReady s) : looping s.advanced := by
  obtain ⟨hm, hq, hne, haddr, -⟩ := h
  refine ⟨hm, hq, hne, ?_, advanced_bytesWritten_toNat hb ▸ hb.2⟩
  show s.curAddr + _ = s.params.flashBase + (s.bytesWritten + _)
  rw [haddr, BitVec.add_assoc]

/-! ## Line by line -/

theorem mayChange_verValid {s : State} (h : mayChange s) : s.verValid = true := h.1.1.1

/-- S0: the link opens, or the run ends (R191). -/
theorem runOpen_sessionInv {s : State} (h : SessionInv s) (hr : s.run = true) (hp : s.phase = [])
    (hi : s.seq = .disconnected) : SessionInv (runOpen s) := by
  have hf := RunFlags.of_flagsInv h.flags hr
  have hc := CoreInv.of_sessionInv h
  unfold runOpen
  split
  · have ht : Running { s.opened with linkOpen := true } :=
      ⟨⟨hf.run, hf.done, hf.err, hf.errCode, hf.failStep⟩, hc.of_same (by constructor <;> rfl) hc.dev, rfl, hp⟩
    exact (ht.goto _).sessionInv nofun hi
  · exact sessionInv_raise _ (hc.of_same (by constructor <;> rfl) hc.dev) ErrCode.noConfusion hf.done

theorem runConnectStart_sessionInv {s : State} (h : Running s) {hs : Handshake} (hi : handshakeInv hs s) :
    SessionInv (runConnectStart hs s) := by
  have hpos : 0 < s.params.maxSyncAttempts := (Params.ok_iff.1 h.core.params).2.2.2.1
  exact ((h.withSyncFails (Nat.zero_le _)).goto _).sessionInv nofun ⟨hi, hpos⟩

theorem runRetry_sessionInv {s : State} (h : Running s) {hs : Handshake} (hi : handshakeInv hs s)
    (hn : s.syncFails < s.params.maxSyncAttempts) : SessionInv (runRetry hs s) := by
  have ht := h.withSyncFails (n := s.syncFails + 1) hn
  unfold runRetry
  dsimp only
  split
  · exact sessionInv_raise _ ht.core ErrCode.noConfusion ht.flags.done
  · next hne => exact ((ht.emit _).goto _).sessionInv nofun ⟨hi, Nat.lt_of_le_of_ne hn hne⟩

/-- CONNECT raises `SEQ` to Connected the first time and keeps it the second (R192). -/
theorem runConnected_sessionInv {s : State} (h : Running s) {hs : Handshake} (hi : handshakeInv hs s) :
    SessionInv (runConnected hs s) := by
  have ht := (h.setSeq (s.seq.max .connected)).goto hs.next
  cases hs with
  | first =>
    have hq : s.seq = .disconnected := hi
    exact ht.sessionInv nofun (show s.seq.max .connected = .connected by rw [hq]; rfl)
  | again =>
    obtain ⟨hm, hq, -⟩ := hi
    exact ht.sessionInv nofun ⟨hm, show s.seq.max .connected = .identified by rw [hq]; rfl⟩

theorem runVersionCheck_sessionInv {s t : State} (h : Running s) (hv : s.verValid = true)
    (ht : runVersionCheck s = .next t) : SessionInv t := by
  rw [runVersionCheck, if_pos hv] at ht
  split at ht <;> cases ht
  · exact sessionInv_raise _ h.core ErrCode.noConfusion h.flags.done
  · next hmin => exact ((h.setSeq _).goto _).sessionInv nofun ⟨⟨hv, Nat.le_of_not_lt hmin⟩, rfl⟩

theorem runChipCheck_sessionInv {s t : State} (h : Running s) (hv : versionPassed s) (hid : s.idValid = true)
    (ht : runChipCheck s = .next t) : SessionInv t := by
  rw [runChipCheck, if_pos hid] at ht
  split at ht <;> cases ht
  · next hsup => exact ((h.setSeq _).goto _).sessionInv nofun ⟨⟨hv, hid, hsup⟩, rfl⟩
  · exact sessionInv_raise _ h.core ErrCode.noConfusion h.flags.done

theorem runSkipCheck_sessionInv {s : State} (h : Running s) (hid : identityPassed s) (hq : s.seq = .identified) :
    SessionInv (runSkipCheck s) := by
  unfold runSkipCheck
  split
  · next hskip => exact (h.goto _).sessionInv nofun ⟨hid, hq.trans (if_pos hskip).symm⟩
  · next hskip => exact (h.goto _).sessionInv nofun ⟨⟨hid, Bool.eq_false_iff.2 hskip⟩, hq⟩

theorem runResyncCheck_sessionInv {s : State} (h : Running s) (hm : mayChange s) (hq : s.seq = .identified) :
    SessionInv (runResyncCheck s) := by
  unfold runResyncCheck
  split
  · next hres => exact (h.goto _).sessionInv nofun ⟨hm, hq, hres⟩
  · exact (h.goto _).sessionInv nofun ⟨hm, hq⟩

theorem runEraseSelect_sessionInv {s t : State} (h : Running s) (hm : mayChange s) (hq : s.seq = .unprotected)
    (ht : runEraseSelect s = .next t) : SessionInv t := by
  rw [runEraseSelect, if_pos (mayChange_verValid hm)] at ht
  cases ht
  unfold eraseSite
  split
  · next hmaj => exact (h.goto _).sessionInv nofun ⟨hm, hq, hmaj⟩
  · next hmaj => exact (h.goto _).sessionInv nofun ⟨hm, hq, hmaj⟩

/-- PROGRAM begins its loop at the base of the flash, or is over at once (R205, R206). -/
theorem runProgramStart_sessionInv {s : State} (h : Running s) (hm : mayChange s) (hq : s.seq = .erased) :
    SessionInv (runProgramStart s) := by
  obtain ⟨hid, hskip⟩ := hm
  unfold runProgramStart
  split
  · exact ((h.rewound.setSeq _).goto _).sessionInv nofun
      ⟨hid, show Seq.programmed = if s.cfgSkipProg then _ else _ by rw [hskip]; rfl⟩
  · next hne =>
    exact (h.rewound.goto _).sessionInv nofun
      ⟨⟨hid, hskip⟩, hq, hne, (BitVec.add_zero _).symm, Nat.zero_le _⟩

/-- A source read ends the loop, breaks its contract, or leaves a block that the contract admits (R207, R208). -/
theorem takeChunk_sessionInv {s : State} (h : Running s) (hi : looping s) (bs : List Byte) :
    SessionInv (takeChunk bs s) := by
  unfold takeChunk
  split
  · obtain ⟨⟨hid, hskip⟩, -⟩ := hi
    exact (((h.withChunkLen (Nat.zero_le _)).setSeq _).goto _).sessionInv nofun
      ⟨hid, show Seq.programmed = if s.cfgSkipProg then _ else _ by rw [hskip]; rfl⟩
  · next hne =>
    split
    · exact sessionInv_raise _ h.core ErrCode.noConfusion h.flags.done
    · next hover =>
      simp only [overrun_iff, not_or, Nat.not_lt] at hover
      obtain ⟨hmax, hsum⟩ := hover
      exact ((h.storeChunk hmax).goto _).sessionInv nofun ⟨hi, List.length_pos_iff.2 hne, hsum⟩

theorem runRead_sessionInv {s : State} (h : Running s) (hl : s.line = .ctl .read) (hi : looping s) :
    SessionInv (runRead s) := by
  unfold runRead
  split
  · exact h.sessionInv (by simp [hl]) (by rw [lineInv, hl]; exact hi)
  · exact takeChunk_sessionInv (h.fed _) hi _

theorem runAdvance_sessionInv {s t : State} (h : Running s) (hi : looping s) (hb : blockReady s)
    (ht : runAdvance s = .next t) : SessionInv t := by
  obtain ⟨-, rfl⟩ := runAdvance_next ht
  exact ((h.advanced hb).reported.goto _).sessionInv nofun (looping_advanced hi hb)

theorem runGoCheck_sessionInv {s : State} (h : Running s) (hi : programmedOrSkipped s) : SessionInv (runGoCheck s) := by
  unfold runGoCheck
  split
  · next hgo => exact (h.goto _).sessionInv nofun ⟨hi, hgo⟩
  · next hgo =>
    obtain ⟨hid, hq⟩ := hi
    exact (h.goto _).sessionInv nofun ⟨hid, show s.seq = endSeq _ s.cfgSendGo by rw [hq, endSeq, if_neg hgo]; rfl⟩

theorem runExecuting_sessionInv {s : State} (h : Running s) (hid : identityPassed s) (hgo : s.cfgSendGo = true) :
    SessionInv (runExecuting s) :=
  ((h.setSeq _).goto _).sessionInv nofun ⟨hid, show Seq.executing = endSeq _ s.cfgSendGo by rw [endSeq, if_pos hgo]⟩

/-- The successful end leaves what the table of R216 asks for. -/
theorem runFinish_sessionInv {s : State} (h : Running s) (hid : identityPassed s)
    (hq : s.seq = endSeq s.cfgSkipProg s.cfgSendGo) : SessionInv (runFinish s) :=
  { h.core with
    ranges := { h.core.ranges with }
    flags := flagsInv_runFinish h.flags
    idle := nofun
    link := nofun
    line := nofun
    phase := nofun
    finished := fun _ => ⟨hid, hq⟩ }

/-- Every line that calls nothing keeps the session invariant. -/
theorem runCtl_sessionInv {c : Ctl} {s t : State} (h : SessionInv s) (hr : s.run = true) (hp : s.phase = [])
    (hl : s.line = .ctl c) (ht : runCtl c s = .next t) : SessionInv t := by
  have hi := ctlInv_of_line h hr hl
  by_cases hc : c = .openLink
  · subst hc
    cases ht
    exact runOpen_sessionInv h hr hp hi
  have hrun : Running s :=
    ⟨.of_flagsInv h.flags hr, .of_sessionInv h, (h.link hr).2 (by simpa [hl] using hc), hp⟩
  cases c with
  | openLink => exact absurd rfl hc
  | connectStart hs => cases ht; exact runConnectStart_sessionInv hrun hi
  | retry hs => cases ht; exact runRetry_sessionInv hrun hi.1 hi.2
  | connected hs => cases ht; exact runConnected_sessionInv hrun hi
  | versionCheck => exact runVersionCheck_sessionInv hrun hi.1 ht
  | chipCheck => exact runChipCheck_sessionInv hrun hi.1 hi.2.1 ht
  | skipCheck => cases ht; exact runSkipCheck_sessionInv hrun hi.1 hi.2
  | resyncCheck => cases ht; exact runResyncCheck_sessionInv hrun hi.1 hi.2
  | unprotected => cases ht; exact ((hrun.setSeq _).goto _).sessionInv nofun ⟨hi.1, rfl⟩
  | eraseSelect => exact runEraseSelect_sessionInv hrun hi.1 hi.2 ht
  | erased => cases ht; exact ((hrun.setSeq _).goto _).sessionInv nofun ⟨hi.1, rfl⟩
  | programStart => cases ht; exact runProgramStart_sessionInv hrun hi.1 hi.2
  | read => cases ht; exact runRead_sessionInv hrun hl hi
  | advance => exact runAdvance_sessionInv hrun hi.1 hi.2 ht
  | goCheck => cases ht; exact runGoCheck_sessionInv hrun hi
  | executing => cases ht; exact runExecuting_sessionInv hrun hi.1.1 hi.2
  | finish => cases ht; exact runFinish_sessionInv hrun hi.1 hi.2

end Sys2Proof.Machine
end

section
/-! O49, the calls: a call begun or gone on with leads from its line's invariant to that of the line it returns to, or
waits at its own line, counts a failed synchronisation, or raises. -/

namespace Sys2Proof.Machine
open Sys2Proof.Safety

/-! ## What of the session a call leaves alone -/

/-- DeviceIdentity is the same (R40, R41). -/
structure SameIdentity (s t : State) : Prop where
  blMajor : t.blMajor = s.blMajor
  blMinor : t.blMinor = s.blMinor
  verValid : t.verValid = s.verValid
  chipId : t.chipId = s.chipId
  idValid : t.idValid = s.idValid

theorem SameDevice.identity {s t : State} (h : SameDevice s t) : SameIdentity s t :=
  ⟨h.blMajor, h.blMinor, h.verValid, h.chipId, h.idValid⟩

/-- A call that keeps the identity changes its own working registers, the answers it takes, DEV and the trace alone. -/
theorem CallFrame.eq_of_identity {s t : State} (h : CallFrame s t) (hid : SameIdentity s t) :
    t = { s with
      call := t.call, cksum := t.cksum, phase := t.phase, payload := t.payload, remain := t.remain
      sendAns := t.sendAns, rx := t.rx, dev := t.dev, trace := t.trace } := by
  cases s
  cases t
  cases h
  cases hid
  simp_all

theorem callInv_of_frame {c : CallSite} {s t : State} (hi : callInv c s) (h : CallFrame s t) (hid : SameIdentity s t) :
    callInv c t := by
  rw [h.eq_of_identity hid]
  exact hi

/-- The line a successful call returns to, where the call leaves the identity alone. -/
theorem ctlInv_after_of_frame {c : CallSite} {s t : State} (hv : c ≠ .getVersion) (hc : c ≠ .getId) (hi : callInv c s)
    (h : CallFrame s t) (hid : SameIdentity s t) : ctlInv c.after t := by
  rw [h.eq_of_identity hid]
  cases c with
  | getVersion => exact absurd rfl hv
  | getId => exact absurd rfl hc
  | sync h => exact hi.1
  | writeUnprotect => exact hi
  | erase => exact ⟨hi.1, hi.2.1⟩
  | extErase => exact ⟨hi.1, hi.2.1⟩
  | write => exact hi
  | go => exact hi

/-! ## A call in progress -/

/-- A running FRAMER with its link open, at the line of the call `c`. -/
structure AtCall (c : CallSite) (s : State) : Prop where
  flags : RunFlags s
  core : CoreInv s
  link : s.linkOpen = true
  line : s.line = .call c

/-- The state in which the items `its` of the call `c` are still to run. -/
structure InCall (c : CallSite) (its : List Item) (s : State) : Prop extends AtCall c s where
  inv : callInv c s
  suffix : its <:+ callItems c s
  comes : payloadComes (payloadNeed c) its s
  version : c = .getVersion → .setVersion ∈ its
  chip : c = .getId → .setId ∈ its

theorem payloadComes_callItems {c : CallSite} {s t : State} : payloadComes (payloadNeed c) (callItems c s) t := by
  cases c with
  | getVersion => exact .inl (by simp [callItems, getVersionItems, verReplyItems])
  | getId => exact .inr (.inl (by simp [callItems, getIdItems, idReplyItems]))
  | _ => exact .inr (.inr (Nat.zero_le _))

/-- A call begins at its line with the whole phase list (R180). -/
theorem inCall_begin {c : CallSite} {s : State} (h : SessionInv s) (hr : s.run = true) (hl : s.line = .call c) :
    InCall c (callItems c s) ((doubting c s).beginCall c) := by
  have hf := RunFlags.of_flagsInv h.flags hr
  have hc := CoreInv.of_sessionInv h
  have hi := callInv_of_line h hr hl
  have hframe : CallFrame s ((doubting c s).beginCall c) := by
    constructor <;> simp [hl]
  have hid : SameIdentity s ((doubting c s).beginCall c) := by
    constructor <;> simp
  exact
    { flags := hf.of_callFrame hframe
      core := hc.of_same hframe.sameCore (wf_doubting c hc.dev)
      link := hframe.linkOpen.trans ((h.link hr).2 (by simp [hl]))
      line := rfl
      inv := callInv_of_frame hi hframe hid
      suffix := callItems_frame hframe ▸ List.suffix_rfl
      comes := payloadComes_callItems
      version := by rintro rfl; simp [callItems, getVersionItems, verReplyItems]
      chip := by rintro rfl; simp [callItems, getIdItems, idReplyItems] }

/-- What is left of GET_VERSION from a receive on still writes the version. -/
theorem setVersion_mem_suffix {p : Params} {its : List Item} (hs : its <:+ getVersionItems p) (hne : its ≠ [])
    (hr : ∀ it ∈ its.head?, receives it = true) : .setVersion ∈ its := by
  simp only [getVersionItems, verReplyItems, List.cons_append, List.nil_append, List.suffix_cons_iff, List.suffix_nil] at hs
  obtain rfl | rfl | rfl | rfl | rfl | rfl | rfl | rfl := hs <;> simp_all [receives]

/-- What is left of GET_ID from a receive on still writes the chip identifier. -/
theorem setId_mem_suffix {p : Params} {its : List Item} (hs : its <:+ getIdItems p) (hne : its ≠ [])
    (hr : ∀ it ∈ its.head?, receives it = true) : .setId ∈ its := by
  simp only [getIdItems, idReplyItems, List.cons_append, List.nil_append, List.suffix_cons_iff, List.suffix_nil] at hs
  obtain rfl | rfl | rfl | rfl | rfl | rfl | rfl | rfl := hs <;> simp_all [receives]

/-- What is left of a call is the end of its line's phase list, from a receive on. -/
theorem sessionInv_phase_suffix {s : State} (h : SessionInv s) (hr : s.run = true) (hp : s.phase ≠ []) :
    ∃ c, s.line = .call c ∧ s.phase <:+ callItems c s ∧ (∀ it ∈ s.phase.head?, receives it = true)
      ∧ payloadComes (payloadNeed c) s.phase s := by
  have := h.phase hr
  unfold phaseInv at this
  split at this
  · next c hl => exact ⟨c, hl, this.resolve_left hp⟩
  · exact absurd this hp

/-- A call goes on with what is left of it. -/
theorem inCall_resume {s : State} (h : SessionInv s) (hr : s.run = true) (hp : s.phase ≠ []) :
    ∃ c, InCall c s.phase (s.withPhase []) := by
  obtain ⟨c, hl, hs, hrec, hcomes⟩ := sessionInv_phase_suffix h hr hp
  have hf := RunFlags.of_flagsInv h.flags hr
  have hc := CoreInv.of_sessionInv h
  have hi := callInv_of_line h hr hl
  have hframe : CallFrame s (s.withPhase []) := by constructor <;> simp
  exact ⟨c,
    { flags := hf.of_callFrame hframe
      core := hc.of_same hframe.sameCore hc.dev
      link := (h.link hr).2 (by simp [hl])
      line := hl
      inv := hi
      suffix := hs
      comes := hcomes
      version := by rintro rfl; exact setVersion_mem_suffix hs hp hrec
      chip := by rintro rfl; exact setId_mem_suffix hs hp hrec }⟩

/-! ## Where a call leads -/

/-- A call that has not returned success has left the identity alone. -/
theorem InCall.identity {c : CallSite} {its : List Item} {s : State} (h : InCall c its s)
    (hd : ∀ t, runItems its s ≠ .done t) : SameIdentity s (runItems its s).state :=
  (runItems_same (writesLast_suffix h.suffix (callItems_writesLast c s)) hd).identity

/-- A call that returns success leads to the line after it (R190, R192). -/
theorem InCall.after {c : CallSite} {its : List Item} {s t : State} (h : InCall c its s) (hd : runItems its s = .done t) :
    ctlInv c.after t := by
  have hf : CallFrame s t := by simpa [hd, Run.state] using runItems_frame its s
  have hver : c ≠ .getVersion → t.verValid = s.verValid ∧ t.blMajor = s.blMajor ∧ t.blMinor = s.blMinor := fun hc => by
    simpa [hd, Run.state] using runItems_version_same (fun hm => callItems_setVersion hc (h.suffix.mem hm)) s
  have hchip : c ≠ .getId → t.idValid = s.idValid ∧ t.chipId = s.chipId := fun hc => by
    simpa [hd, Run.state] using runItems_id_same (fun hm => callItems_setId hc (h.suffix.mem hm)) s
  have hok : replyOk (payloadNeed c) its := replyOk_suffix h.suffix (callItems_replyOk c s)
  by_cases hcv : c = .getVersion
  · subst hcv
    exact ⟨runItems_version hok h.comes (h.version rfl) hd, hf.seq.trans h.inv⟩
  by_cases hci : c = .getId
  · subst hci
    obtain ⟨hv, hmaj, hmin⟩ := hver hcv
    obtain ⟨⟨hvalid, hle⟩, hq⟩ := h.inv
    refine ⟨⟨hv.trans hvalid, ?_⟩, runItems_id hok h.comes (h.chip rfl) hd, hf.seq.trans hq⟩
    rw [State.version, hmaj, hmin, hf.params]
    exact hle
  · obtain ⟨hv, hmaj, hmin⟩ := hver hcv
    obtain ⟨hidv, hchip⟩ := hchip hci
    exact ctlInv_after_of_frame hcv hci h.inv hf ⟨hmaj, hmin, hv, hchip, hidv⟩

theorem after_ne_openLink (c : CallSite) : c.after ≠ .openLink := by
  cases c <;> exact Ctl.noConfusion

theorem AtCall.endCall {c : CallSite} {s : State} (h : AtCall c s) : Running s.endCall where
  flags := ⟨h.flags.run, h.flags.done, h.flags.err, h.flags.errCode, h.flags.failStep⟩
  core := h.core.of_same (by constructor <;> rfl) h.core.dev
  link := h.link
  phase := rfl

theorem AtCall.sessionInv_done {c : CallSite} {s : State} (h : AtCall c s) (hi : ctlInv c.after s) :
    SessionInv (s.endCall.goto s.line.after) := by
  rw [h.line]
  exact (h.endCall.goto (.ctl c.after)).sessionInv (by simpa using after_ne_openLink c) hi

theorem AtCall.sessionInv_retry {hs : Handshake} {s : State} (h : AtCall (.sync hs) s) (hi : callInv (.sync hs) s) :
    SessionInv (s.endCall.goto s.line.retried) := by
  rw [h.line]
  exact (h.endCall.goto (.ctl (.retry hs))).sessionInv nofun hi

theorem AtCall.sessionInv_wait {c : CallSite} {s : State} (h : AtCall c s) (hi : callInv c s)
    (hsuf : s.phase <:+ callItems c s) (hrec : ∀ it ∈ s.phase.head?, receives it = true)
    (hcomes : payloadComes (payloadNeed c) s.phase s) : SessionInv s := by
  refine sessionInv_of_running h.flags h.core ⟨fun _ => by simp [h.line], fun _ => h.link⟩ ?_ ?_
  · rw [lineInv, h.line]
    exact hi
  · rw [phaseInv, h.line]
    exact .inr ⟨hsuf, hrec, hcomes⟩

/-- However a call ends or waits, the session invariant holds after it. -/
theorem InCall.settle {c : CallSite} {its : List Item} {s : State} (h : InCall c its s) :
    SessionInv (settle (runItems its s)) := by
  have hframe := runItems_frame its s
  have hat : AtCall c (runItems its s).state :=
    { flags := h.flags.of_callFrame hframe
      core := h.core.of_same hframe.sameCore (runItems_dev_wf its h.core.dev)
      link := hframe.linkOpen.trans h.link
      line := hframe.line.trans h.line }
  cases hr : runItems its s with
  | done t =>
    rw [hr] at hat
    exact hat.sessionInv_done (h.after hr)
  | fail e t =>
    rw [hr] at hat
    exact sessionInv_raise _ (hat.core.of_same (by constructor <;> rfl) rfl) (runItems_fail hr) hat.flags.done
  | retry t =>
    have hi := callInv_of_frame h.inv hframe (h.identity (by simp [hr]))
    have hsync := runItems_retry hr
    rw [hr] at hat hi
    rw [h.line] at hsync
    cases c with
    | sync hs => exact hat.sessionInv_retry hi
    | _ => cases hsync
  | wait t =>
    have hi := callInv_of_frame h.inv hframe (h.identity (by simp [hr]))
    have hcomes := runItems_comes (replyOk_suffix h.suffix (callItems_replyOk c s)) h.comes hr
    obtain ⟨hsuf, -, hrec, -⟩ := runItems_wait hr
    rw [hr] at hat hi hframe
    exact hat.sessionInv_wait hi ((callItems_frame hframe).symm ▸ hsuf.trans h.suffix) hrec hcomes

/-! ## One step -/

theorem runSequencer_sessionInv {s t : State} (h : SessionInv s) (ht : runSequencer s = .next t) : SessionInv t := by
  obtain ⟨-, rfl⟩ | ⟨hr, hp, c, hl, hc⟩ | ⟨hr, -, c, hl, rfl, -⟩ | ⟨hr, hp, rfl⟩ := runSequencer_cases ht
  · exact h
  · exact runCtl_sessionInv h hr hp hl hc
  · exact (inCall_begin h hr hl).settle
  · obtain ⟨c, hcall⟩ := inCall_resume h hr hp
    exact hcall.settle

/-- The session invariant asks nothing of the world outside but DEV. -/
theorem sessionInv_outside {s t : State} (h : SessionInv s)
    (ht : t = { s with
      moves := t.moves, hostCfg := t.hostCfg, openAns := t.openAns, sendAns := t.sendAns, rx := t.rx, src := t.src }) :
    SessionInv t := by
  rw [ht]
  exact
    { params := h.params
      flags := { h.flags with }
      ranges := { h.ranges with }
      dev := h.dev
      written := h.written
      fits := h.fits
      idle := fun hi => { h.idle hi with }
      link := h.link
      line := h.line
      phase := h.phase
      finished := h.finished }

theorem sessionInv_withMoves {s : State} (h : SessionInv s) (ms : List Move) : SessionInv (s.withMoves ms) :=
  sessionInv_outside h rfl

/-- An accepted `start` begins a session at its first line (R263, R264). -/
theorem sessionInv_start {s : State} (h : SessionInv s) (hi : s.idle = true) (ha : s.configAdmitted = true) :
    SessionInv (State.goto { s.sampled with run := true } (.ctl .openLink)) := by
  obtain ⟨hseq, -, -, hbytes, hphase⟩ := h.idle hi
  obtain ⟨hrun, hdone, herr⟩ := idle_iff.1 hi
  obtain ⟨hcode, hstep⟩ := h.flags.noError herr
  have hclosed := h.flags.closed hrun
  have hcore : CoreInv (State.goto { s.sampled with run := true } (.ctl .openLink)) :=
    { params := h.params
      ranges := { h.ranges with }
      dev := h.dev
      written := by simp [hbytes]
      fits := configAdmitted_iff.1 ha }
  exact sessionInv_of_running ⟨rfl, hdone, herr, hcode, hstep⟩ hcore (by simp [hclosed]) hseq hphase

theorem runMove_sessionInv {m : Move} {s t : State} (h : SessionInv s) (hm : m ≠ .pass) (ht : runMove m s = .next t) :
    SessionInv t := by
  obtain ⟨-, -, rfl⟩ | ⟨-, hi, ha, rfl⟩ | ⟨-, heq⟩ := runMove_cases hm ht
  · exact sessionInv_resetRegs h.params h.dev
  · exact sessionInv_start h hi ha
  · exact sessionInv_outside h (by rw [heq])

/-- Settles O49: a move of the outside, a line that calls nothing, and a call, begun or gone on with, each keep the
session invariant. -/
theorem sessionInvariantIsKept : Obligations.SessionInvariantIsKept := by
  unfold Obligations.SessionInvariantIsKept
  intro s t h ht
  obtain ⟨-, ⟨ms, hseq, -⟩ | ⟨m, ms, -, hm, hmove⟩⟩ := step_cases ht
  · exact runSequencer_sessionInv (sessionInv_withMoves h ms) hseq
  · exact runMove_sessionInv (sessionInv_withMoves h ms) hm hmove

end Sys2Proof.Machine
end

section
/-! O50: under the session invariant no line and no call meets a fault (R40, R41, R206). -/

namespace Sys2Proof.Machine
open Sys2Proof.Safety

/-- The lines that can fault read what their invariant says is there. -/
theorem runCtl_answers {c : Ctl} {s : State} (hi : ctlInv c s) : ∃ t, runCtl c s = .next t := by
  cases c with
  | versionCheck =>
    rw [runCtl, runVersionCheck, if_pos hi.1]
    split <;> exact ⟨_, rfl⟩
  | chipCheck =>
    rw [runCtl, runChipCheck, if_pos hi.2.1]
    split <;> exact ⟨_, rfl⟩
  | eraseSelect => exact ⟨_, if_pos (mayChange_verValid hi.1)⟩
  | advance =>
    obtain ⟨⟨-, -, hne, -⟩, -⟩ := hi
    exact ⟨_, if_neg hne⟩
  | _ => exact ⟨_, rfl⟩

/-- A block that the source contract admits fits its data frame (R96, R208). -/
theorem blockOk_of_blockReady {s : State} (hc : CoreInv s) (hb : blockReady s) : blockOk s.params s.chunk = true := by
  have hmax := (Params.ok_iff.1 hc.params).2.2.1
  have hbuf := hc.ranges.chunkBuf
  have hlen := hc.ranges.chunkLen
  have hpos := hb.1
  have hchunk : s.chunk.length = s.chunkLen := by
    rw [State.chunk, List.length_take]
    omega
  simp only [blockOk, hchunk, Bool.and_eq_true, decide_eq_true_eq]
  omega

theorem runSequencer_answers {s : State} (h : SessionInv s) : ∃ t, runSequencer s = .next t := by
  by_cases hr : s.run = true
  · by_cases hp : s.phase = []
    · cases hl : s.line with
      | call c =>
        have hb : c = .write → blockOk s.params s.chunk = true := by
          rintro rfl
          exact blockOk_of_blockReady (.of_sessionInv h) (callInv_of_line h hr hl).2
        simp only [runSequencer, hr, if_true, fetch_call hp hl]
        exact ⟨_, exec_call hl hb⟩
      | ctl c =>
        simp only [runSequencer, hr, if_true, fetch_ctl hp hl, hl, hp]
        exact runCtl_answers (ctlInv_of_line h hr hl)
    · obtain ⟨c, -, -, hrec, -⟩ := sessionInv_phase_suffix h hr hp
      exact ⟨_, runSequencer_resume hr hp fun f i hf _ => absurd (hrec _ hf) Bool.false_ne_true⟩
  · exact ⟨s, runSequencer_idle (Bool.eq_false_iff.2 hr)⟩

theorem runMove_answers {m : Move} (hm : m ≠ .reset) (s : State) : ∃ t, runMove m s = .next t := by
  cases m with
  | reset => exact absurd rfl hm
  | _ => exact ⟨_, rfl⟩

/-- Where the outside makes a move other than `pass`, a step is that move (R12). -/
theorem step_move {s : State} {m : Move} {ms : List Move} (hok : s.params.ok = true) (hms : s.moves = m :: ms)
    (hm : m ≠ .pass) : step s = runMove m (s.withMoves ms) := by
  rw [step, if_pos hok, hms]
  cases m with
  | pass => exact absurd rfl hm
  | _ => rfl

/-- Settles O50: the sequencer and every move but `reset` answer a next state, and `reset` is refused only while the
session runs. -/
theorem sessionsNeverFault : Obligations.SessionsNeverFault := by
  unfold Obligations.SessionsNeverFault
  intro s h
  have hseq : ∀ ms, ∃ t, runSequencer (s.withMoves ms) = .next t := fun ms =>
    runSequencer_answers (sessionInv_withMoves h ms)
  by_cases hnone : s.moves = [] ∨ ∃ ms, s.moves = .pass :: ms
  · rw [step_noMove h.params hnone]
    exact .inl (hseq _)
  · rw [not_or, not_exists] at hnone
    obtain ⟨m, ms, hms⟩ := List.exists_cons_of_ne_nil hnone.1
    have hm : m ≠ .pass := by rintro rfl; exact hnone.2 ms hms
    rw [step_move h.params hms hm]
    by_cases hreset : m = .reset
    · subst hreset
      cases hr : s.run with
      | true => exact .inr ⟨rfl, ⟨ms, hms⟩, if_pos hr⟩
      | false => exact .inl ⟨_, if_neg (by simpa using hr)⟩
    · exact .inl (runMove_answers hreset _)

end Sys2Proof.Machine
end

section
/-! O52, O53, O55: what a step adds to the trace. Frames and answers come of calls alone, thresholds of the advance alone. -/

namespace Sys2Proof.Machine
open Sys2Proof.Safety

/-! ## The events of a step -/

theorem settle_quiet (r : Run) : QuietTrace r.state (settle r) := by
  cases r with
  | fail e s => exact AddsEvents.trans (t := s.doubtAll) (.none rfl) (raise_quiet _ _ _)
  | done s | retry s | wait s => exact .none rfl

theorem settle_nextPct (r : Run) : (settle r).nextPct = r.state.nextPct := by
  cases r with
  | fail e s => exact raise_nextPct _ _ _
  | done s | retry s | wait s => rfl

/-- A step adds quiet events and those of the call `c`. -/
def CallStep (c : CallSite) (s t : State) : Prop :=
  AddsEvents (fun e => e.isQuiet = true ∨ CallEvent s.params (callItems c s) e) s t

theorem settle_runItems_events (its : List Item) (s : State) :
    AddsEvents (fun e => e.isQuiet = true ∨ CallEvent s.params its e) s (settle (runItems its s)) :=
  AddsEvents.trans (AddsEvents.mono (fun _ => .inr) (runItems_trace its s))
    (AddsEvents.mono (fun _ => .inl) (settle_quiet _))

theorem settle_runItems_nextPct (its : List Item) (s : State) : (settle (runItems its s)).nextPct = s.nextPct :=
  (settle_nextPct _).trans (runItems_frame its s).nextPct

/-- What a step other than `reset` shows: quiet events, a report of progress, or the traffic of the call its line makes. -/
inductive StepEvents (s t : State) : Prop
  | quiet (nextPct : t.nextPct = s.nextPct) (events : QuietTrace s t)
  | report (nextPct : t.nextPct = s.advanced.reported.nextPct) (trace : t.trace = s.advanced.reported.trace)
  | call (c : CallSite) (run : s.run = true) (line : s.line = .call c) (nextPct : t.nextPct = s.nextPct)
      (events : CallStep c s t)

theorem runCtl_events {c : Ctl} {s t : State} (h : runCtl c s = .next t) : StepEvents s t := by
  cases runCtl_end h with
  | goesOn frame => exact .quiet frame.nextPct frame.quiet
  | raises f error frame =>
    exact .quiet ((raise_nextPct _ _ _).trans frame.nextPct) (frame.quiet.trans (raise_quiet _ _ _))
  | reports => exact .report rfl rfl
  | finishes => exact .quiet rfl ⟨[.close, .haltDone], List.append_assoc _ _ _, by simp [Event.isQuiet]⟩

theorem runSequencer_events {s t : State} (h : SessionInv s) (ht : runSequencer s = .next t) : StepEvents s t := by
  obtain ⟨-, rfl⟩ | ⟨-, -, c, -, hc⟩ | ⟨hr, -, c, hl, rfl, -⟩ | ⟨hr, hp, rfl⟩ := runSequencer_cases ht
  · exact .quiet rfl (.none rfl)
  · exact runCtl_events hc
  · refine .call c hr hl ((settle_runItems_nextPct _ _).trans (by simp)) ?_
    have hbegin : CallStep c s ((doubting c s).beginCall c) := .none (by simp)
    have hrun := settle_runItems_events (callItems c s) ((doubting c s).beginCall c)
    rw [State.beginCall_params, doubting_params] at hrun
    exact AddsEvents.trans hbegin hrun
  · obtain ⟨c, hl, hsuf, -, -⟩ := sessionInv_phase_suffix h hr hp
    refine .call c hr hl (settle_runItems_nextPct _ _) ?_
    have hresume : CallStep c s (s.withPhase []) := .none rfl
    refine AddsEvents.trans hresume
      (AddsEvents.mono (fun e he => he.imp_right fun hcall => ?_) (settle_runItems_events s.phase _))
    exact hcall.imp_right fun ⟨f, a, hf, he⟩ => ⟨f, a, hsuf.mem hf, he⟩

theorem step_events {s t : State} (h : SessionInv s) (hreset : ∀ ms, s.moves ≠ .reset :: ms) (ht : step s = .next t) :
    StepEvents s t := by
  obtain ⟨-, ⟨ms, hseq, -⟩ | ⟨m, ms, hms, hm, hmove⟩⟩ := step_cases ht
  · cases runSequencer_events (sessionInv_withMoves h ms) hseq with
    | quiet nextPct events => exact .quiet nextPct events
    | report nextPct trace => exact .report nextPct trace
    | call c run line nextPct events => exact .call c run line nextPct events
  · obtain ⟨rfl, -⟩ | ⟨-, -, -, rfl⟩ | ⟨-, heq⟩ := runMove_cases hm hmove
    · exact absurd hms (hreset ms)
    · exact .quiet rfl (.none rfl)
    · rw [heq]
      exact .quiet rfl (.none rfl)

/-! ## Traffic -/

/-- A frame sent or an answer received. -/
def Event.isTraffic : Event → Bool
  | .tx _ _ => true
  | .rx _ => true
  | _ => false

theorem isQuiet_of_isTraffic {e : Event} (h : e.isTraffic = true) : e.isQuiet = false := by
  cases e <;> simp_all [Event.isTraffic, Event.isQuiet]

theorem newEvents_reported {s t : State} (h : t.trace = s.advanced.reported.trace) :
    newEvents s t = .progress s.advanced.bytesWritten.toNat ::
      (thresholds s.params.pctStep (percentage s.advanced.bytesWritten s.totalBytes) thresholdFuel s.nextPct).1.map .pct :=
  newEvents_of_append h

/-- Traffic is that of the call the line makes. -/
theorem StepEvents.traffic {s t : State} (h : StepEvents s t) {e : Event} (he : e ∈ newEvents s t)
    (hk : e.isTraffic = true) :
    ∃ c, s.run = true ∧ s.line = .call c ∧ CallEvent s.params (callItems c s) e := by
  have hnot : e.isQuiet ≠ true := Bool.eq_false_iff.1 (isQuiet_of_isTraffic hk)
  cases h with
  | quiet _ events => exact absurd (events.newEvents e he) hnot
  | report _ trace =>
    rw [newEvents_reported trace] at he
    rcases List.mem_cons.1 he with rfl | he
    · exact absurd hk Bool.false_ne_true
    · obtain ⟨k, -, rfl⟩ := List.mem_map.1 he
      exact absurd hk Bool.false_ne_true
  | call c run line _ events => exact ⟨c, run, line, (AddsEvents.newEvents events e he).resolve_left hnot⟩

/-- Settles O52: traffic comes of a call, and every line that makes one has the link open. -/
theorem trafficOnlyWhileOpen : Obligations.TrafficOnlyWhileOpen := by
  unfold Obligations.TrafficOnlyWhileOpen
  intro s t h hreset ht htraffic
  obtain ⟨e, he, hk⟩ : ∃ e ∈ newEvents s t, e.isTraffic = true := by
    obtain ⟨bs, a, he⟩ | ⟨a, he⟩ := htraffic
    · exact ⟨_, he, rfl⟩
    · exact ⟨_, he, rfl⟩
  obtain ⟨c, hr, hl, -⟩ := (step_events h hreset ht).traffic he hk
  exact (h.link hr).2 (by simp [hl])

/-! ## Thresholds -/

theorem pctOf_of_isQuiet {e : Event} (h : e.isQuiet = true) : pctOf e = none := by
  cases e <;> simp_all [Event.isQuiet, pctOf]

theorem pctOf_of_callEvent {p : Params} {its : List Item} {e : Event} (h : CallEvent p its e) : pctOf e = none := by
  obtain ⟨a, rfl⟩ | ⟨f, a, -, rfl⟩ := h <;> rfl

/-- A step that reports no progress reports no threshold. -/
theorem thresholds_none {s t : State} (hn : t.nextPct = s.nextPct) (he : ∀ e ∈ newEvents s t, pctOf e = none) :
    s.nextPct ≤ t.nextPct ∧ ((newEvents s t).filterMap pctOf).Pairwise (· < ·)
      ∧ ∀ k, Event.pct k ∈ newEvents s t → s.nextPct ≤ k ∧ k < t.nextPct ∧ k ≤ 100 ∧ s.params.pctStep ∣ k := by
  refine ⟨hn.ge, ?_, fun k hk => ?_⟩
  · rw [List.filterMap_eq_nil_iff.2 he]
    exact List.Pairwise.nil
  · exact absurd (he _ hk) (by simp [pctOf])

theorem filterMap_pctOf_map_pct (ks : List Nat) : (ks.map Event.pct).filterMap pctOf = ks := by
  rw [List.filterMap_map]
  exact List.filterMap_some

/-- Settles O55: only the advance reports thresholds, those its loop has gone past. -/
theorem thresholdsFireOnce : Obligations.ThresholdsFireOnce := by
  unfold Obligations.ThresholdsFireOnce
  intro s t h hreset ht
  cases step_events h hreset ht with
  | quiet nextPct events =>
    exact thresholds_none nextPct fun e he => pctOf_of_isQuiet (events.newEvents e he)
  | call c _ _ nextPct events =>
    exact thresholds_none nextPct fun e he =>
      (AddsEvents.newEvents events e he).elim pctOf_of_isQuiet pctOf_of_callEvent
  | report nextPct trace =>
    have hstep := (Params.ok_iff.1 h.params).2.2.2.2.1
    obtain ⟨-, -, hhigh, hdvd, -, -⟩ := h.ranges
    rw [newEvents_reported trace, nextPct]
    refine ⟨(thresholds_next _ _ _ _ hdvd hhigh).1, ?_, fun k hk => ?_⟩
    · rw [List.filterMap_cons_none rfl, filterMap_pctOf_map_pct]
      exact thresholds_rise _ hstep _ _ hdvd hhigh
    · rcases List.mem_cons.1 hk with hk | hk
      · cases hk
      · obtain ⟨k', hk', hkk⟩ := List.mem_map.1 hk
        cases hkk
        exact thresholds_mem _ hstep _ _ hdvd hhigh k hk'

/-! ## Gating -/

/-- What O53 asks before a command that changes the DEVICE (R49 b). -/
structure Identified (s : State) : Prop where
  seq : Seq.identified.code ≤ s.seq.code
  verValid : s.verValid = true
  idValid : s.idValid = true
  supported : s.chipId ∈ s.params.supportedChipIds

theorem Identified.of_passed {s : State} (h : identityPassed s) (hq : Seq.identified.code ≤ s.seq.code) :
    Identified s := by
  obtain ⟨⟨hv, -⟩, hid, hsup⟩ := h
  exact ⟨hq, hv, hid, chipSupported_iff.1 hsup⟩

/-- Every line of a command but SYNC, GET_VERSION and GET_ID has the identity known and supported. -/
theorem identified_of_callInv {c : CallSite} {s : State} (hi : callInv c s) (hs : ∀ h, c ≠ .sync h)
    (hv : c ≠ .getVersion) (hc : c ≠ .getId) : Identified s := by
  cases c with
  | sync h => exact absurd rfl (hs h)
  | getVersion => exact absurd rfl hv
  | getId => exact absurd rfl hc
  | writeUnprotect => exact .of_passed hi.1.1 (by rw [hi.2])
  | erase => exact .of_passed hi.1.1 (by rw [hi.2.1]; decide)
  | extErase => exact .of_passed hi.1.1 (by rw [hi.2.1]; decide)
  | write => obtain ⟨⟨hm, hq, -⟩, -⟩ := hi; exact .of_passed hm.1 (by rw [hq]; decide)
  | go =>
    obtain ⟨⟨hid, hq⟩, -⟩ := hi
    exact .of_passed hid (by rw [hq]; split <;> decide)

/-- Every line of a command but SYNC comes after the handshake. -/
theorem connected_of_callInv {c : CallSite} {s : State} (hi : callInv c s) (hs : ∀ h, c ≠ .sync h) :
    Seq.connected.code ≤ s.seq.code := by
  by_cases hv : c = .getVersion
  · subst hv
    rw [show s.seq = .connected from hi]
  by_cases hc : c = .getId
  · subst hc
    rw [hi.2]
    decide
  · exact Nat.le_trans (by decide) (identified_of_callInv hi hs hv hc).seq

/-- The frames of the three commands that need no identity (R144, R146, R150). -/
theorem send_mem_sync {h : Handshake} {s : State} {f : Frame} (hf : .send f ∈ callItems (.sync h) s) : f = .sync := by
  simpa [callItems, syncItems] using hf

theorem send_mem_getVersion {s : State} {f : Frame} (hf : .send f ∈ callItems .getVersion s) :
    f = .cmd s.params.opcGetVersion := by
  simpa [callItems, getVersionItems, verReplyItems] using hf

theorem send_mem_getId {s : State} {f : Frame} (hf : .send f ∈ callItems .getId s) : f = .cmd s.params.opcGetId := by
  simpa [callItems, getIdItems, idReplyItems] using hf

/-- A frame sent is one of the call its line makes. -/
theorem StepEvents.sent {s t : State} (h : StepEvents s t) {bs : List Byte} {a : LinkAnswer}
    (he : .tx bs a ∈ newEvents s t) :
    ∃ c f, s.run = true ∧ s.line = .call c ∧ .send f ∈ callItems c s ∧ bs = f.bytes s.params := by
  obtain ⟨c, hr, hl, hcall⟩ := h.traffic he rfl
  obtain ⟨a', ha⟩ | ⟨f, a', hf, ha⟩ := hcall
  · cases ha
  · cases ha
    exact ⟨c, f, hr, hl, hf, rfl⟩

/-- Inside a call no command is fetched. -/
theorem formatOf_fetchResponse {fmt : Format} {s : State} {r : Instr × List RxAnswer}
    (hfmt : fmt = .rAck ∨ fmt = .rVer ∨ fmt = .rId) (h : fetchResponse fmt s = some r) : formatOf r.1 ≠ .fCmd := by
  unfold fetchResponse at h
  split at h
  · next i rest hd =>
    cases h
    obtain rfl | rfl | rfl := hfmt
    · obtain ⟨-, -, -, -, hf, -⟩ := decodeAckByte_back (p := s.params) hd
      simp [hf]
    · obtain ⟨ps, rfl, -⟩ := decodeVer_back (p := s.params) hd
      exact Format.noConfusion
    · obtain ⟨id, rfl, -⟩ := decodeId_back (p := s.params) hd
      exact Format.noConfusion
  · cases h

theorem formatOf_frame {f : Frame} {i : Instr} (h : f.instr = some i) : formatOf i ≠ .fCmd := by
  cases f <;> cases h <;> exact Format.noConfusion

theorem formatOf_fetchPhase {s : State} {its : List Item} {r : Instr × List Item × List RxAnswer}
    (h : fetchPhase s its = some r) : formatOf r.1 ≠ .fCmd := by
  have hack : ∀ {q : List Item}, (fetchResponse .rAck s).map (fun r => (r.1, q, r.2)) = some r → formatOf r.1 ≠ .fCmd := by
    intro q hq
    obtain ⟨r', hr', rfl⟩ := Option.map_eq_some_iff.1 hq
    exact formatOf_fetchResponse (.inl rfl) hr'
  unfold fetchPhase at h
  split at h
  · split at h
    · next hver => cases h; exact formatOf_fetchResponse (.inr (.inl rfl)) hver
    · exact hack h
  · split at h
    · next hid => cases h; exact formatOf_fetchResponse (.inr (.inr rfl)) hid
    · exact hack h
  · exact hack h
  · obtain ⟨i, hi, rfl⟩ := Option.map_eq_some_iff.1 h
    exact formatOf_frame hi
  · cases h

/-- A fetched command is the one its line calls. -/
theorem fetch_command {s u : State} {i : Instr} (h : s.fetch = some (i, u)) (hi : formatOf i = .fCmd) :
    ∃ c, s.line = .call c ∧ i = c.instr := by
  unfold State.fetch at h
  split at h
  · split at h
    · next c hl => cases h; exact ⟨c, hl, rfl⟩
    · cases h
  · obtain ⟨r, hr, he⟩ := Option.map_eq_some_iff.1 h
    cases he
    exact absurd hi (formatOf_fetchPhase hr)

/-- Settles O53: each frame is one of the call its line makes, each command is the one its line calls, and the line's
invariant holds the gate. -/
theorem commandsAreGated : Obligations.CommandsAreGated := by
  unfold Obligations.CommandsAreGated
  intro s t h hreset ht
  have hev := step_events h hreset ht
  refine ⟨fun bs a he hsync => ?_, fun bs a he hsync hver hid => ?_, fun i u hr hf hi => ?_⟩
  · obtain ⟨c, f, hr, hl, hf, rfl⟩ := hev.sent he
    refine connected_of_callInv (callInv_of_line h hr hl) ?_
    rintro hs rfl
    exact hsync (by rw [send_mem_sync hf]; rfl)
  · obtain ⟨c, f, hr, hl, hf, rfl⟩ := hev.sent he
    obtain ⟨hq, hv, hi, hsup⟩ : Identified s := by
      refine identified_of_callInv (callInv_of_line h hr hl) ?_ ?_ ?_
      · rintro hs rfl
        exact hsync (by rw [send_mem_sync hf]; rfl)
      · rintro rfl
        exact hver (by rw [send_mem_getVersion hf]; rfl)
      · rintro rfl
        exact hid (by rw [send_mem_getId hf]; rfl)
    exact ⟨hq, hv, hi, hsup⟩
  · have hfmt : formatOf i = .fCmd := by
      simp only [List.mem_cons, List.not_mem_nil, or_false] at hi
      obtain rfl | rfl | rfl | rfl | rfl := hi <;> rfl
    obtain ⟨c, hl, rfl⟩ := fetch_command hf hfmt
    have hci := callInv_of_line h hr hl
    obtain ⟨hq, hv, hid, hsup⟩ : Identified s := by
      refine identified_of_callInv hci ?_ ?_ ?_
      all_goals
        intros
        rintro rfl
        simp [CallSite.instr] at hi
    refine ⟨hq, hv, hid, hsup, fun hw => ?_⟩
    have hc : c = .write := by cases c <;> simp_all [CallSite.instr]
    subst hc
    obtain ⟨⟨-, hseq, -⟩, -⟩ := hci
    exact hseq

end Sys2Proof.Machine
end

section
/-! O46: every step keeps DEV in its canonical form. Only a call writes DEV. -/

namespace Sys2Proof.Machine
open Sys2Proof.Safety

theorem settle_dev_wf {r : Run} (h : r.state.dev.wf = true) : (settle r).dev.wf = true := by
  obtain hd | hd := settle_dev r
  · rwa [hd]
  · rw [hd]
    rfl

theorem settle_runItems_dev_wf (its : List Item) {s : State} (h : s.dev.wf = true) :
    (settle (runItems its s)).dev.wf = true :=
  settle_dev_wf (runItems_dev_wf its h)

theorem runCtl_dev {c : Ctl} {s t : State} (h : runCtl c s = .next t) : t.dev = s.dev := by
  cases runCtl_end h with
  | goesOn frame => exact frame.dev
  | raises f error frame => exact (raise_dev _ _ _).trans frame.dev
  | reports => rfl
  | finishes => rfl

theorem runSequencer_dev_wf {s t : State} (hs : s.dev.wf = true) (h : runSequencer s = .next t) :
    t.dev.wf = true := by
  obtain ⟨-, rfl⟩ | ⟨-, -, c, -, hc⟩ | ⟨-, -, c, -, rfl, -⟩ | ⟨-, -, rfl⟩ := runSequencer_cases h
  · exact hs
  · rwa [runCtl_dev hc]
  · exact settle_runItems_dev_wf (callItems c s) (s := (doubting c s).beginCall c) (wf_doubting c hs)
  · exact settle_runItems_dev_wf ([] ++ s.phase) (s := s.withPhase []) hs

/-- The outside reaches DEV through calls alone; `reset` does not reset it (R262). -/
theorem runMove_dev {m : Move} {s t : State} (hm : m ≠ .pass) (h : runMove m s = .next t) : t.dev = s.dev := by
  obtain ⟨-, -, rfl⟩ | ⟨-, -, -, rfl⟩ | ⟨-, ht⟩ := runMove_cases hm h
  · rfl
  · rfl
  · rw [ht]

/-- Settles O46: a call keeps the canonical form, and nothing else writes DEV. -/
theorem deviceMemoryStaysCanonical : Obligations.DeviceMemoryStaysCanonical := by
  unfold Obligations.DeviceMemoryStaysCanonical
  intro s t hs h
  obtain ⟨-, ⟨ms, hseq, -⟩ | ⟨m, ms, -, hm, hmove⟩⟩ := step_cases h
  · exact runSequencer_dev_wf (s := s.withMoves ms) hs hseq
  · rwa [runMove_dev (s := s.withMoves ms) hm hmove]

end Sys2Proof.Machine
end

section
/-! O30: a call whose phases complete up to a frame that the link refuses (R141, R143), and what is left of the machine
then. -/

namespace Sys2Proof.Machine
open Sys2Proof.Safety

/-! ## Phases that complete, and then a refused frame -/

theorem nextAnswer_err {l : List LinkAnswer} (h : nextAnswer l = .err) : l = .err :: l.tail := by
  cases l with
  | nil => cases h
  | cons a l => exact congrArg (· :: l) h

/-- One phase of a call: a frame and its acknowledgement (R141). -/
def phaseItems (f : Frame) : List Item := [.send f, .ack]

/-- What the trace shows of a phase that completes. -/
def phaseEvents (p : Params) (f : Frame) : List Event := [sentOk p f, gotAck p]

/-- `CKSUM` after the frames `fs`, one after another (R47). -/
def cksumAfter (old : Byte) (fs : List Frame) : Byte := fs.foldl Frame.cksum old

/-- The phases of the frames `fs` complete, and the frame `f` after them is refused: the call ends there. -/
theorem runItems_refused {f : Frame} {rest : List Item} {ans : List LinkAnswer} {q : List RxAnswer} (fs : List Frame) :
    ∀ {s : State}, s.sendAns = List.replicate fs.length .ok ++ .err :: ans →
      s.rx = List.replicate fs.length (ackAns s.params) ++ q →
      runItems (fs.flatMap phaseItems ++ .send f :: rest) s = .fail .transportError { s with
        call := .linkFailed, cksum := f.cksum (cksumAfter s.cksum fs), sendAns := ans, rx := q
        trace := s.trace ++ (fs.flatMap (phaseEvents s.params) ++ [.tx (f.bytes s.params) .err]) } := by
  induction fs with
  | nil =>
    intro s hans hrx
    have hrefused : nextAnswer s.sendAns = .err := by simp [hans, nextAnswer]
    simp only [List.length_nil, List.replicate_zero, List.nil_append] at hans hrx
    rw [List.flatMap_nil, List.nil_append, runItems_send_err hrefused]
    simp [State.sent, State.setCall, hans, hrx, nextAnswer, cksumAfter]
  | cons g fs ih =>
    intro s hans hrx
    have hok : nextAnswer s.sendAns = .ok := by simp [hans, nextAnswer, List.replicate_succ]
    have hack : s.rx = ackAns s.params :: (List.replicate fs.length (ackAns s.params) ++ q) := hrx
    refine (runItems_phase hok hack).trans ((ih ?_ ?_).trans ?_)
    · simp [hans, List.replicate_succ]
    · simp [hack]
    · simp [State.sent, State.setCall, State.received, hok, phaseEvents, sentOk, gotAck, ackAns, cksumAfter]

/-! ## A command executed, and how it fails -/

/-- A command other than SYNC runs at its own line, wherever it is executed from. -/
theorem exec_command {c : CallSite} {s : State} (hc : ∀ h, c ≠ .sync h)
    (hb : c = .write → blockOk s.params s.chunk = true) :
    exec c.instr s = .next (callAt c (callItems c s) (doubting c s)) := by
  cases c with
  | sync h => exact absurd rfl (hc h)
  | write => exact if_pos (hb rfl)
  | getVersion | getId | writeUnprotect | erase | extErase | go => rfl

theorem doubting_eq_withDev (c : CallSite) (s : State) : doubting c s = s.withDev (doubting c s).dev := by
  cases c <;> rfl

/-- A command one of whose frames is refused raises at its own step, with nothing known of DEV (R194, U1). -/
theorem exec_command_refused {c : CallSite} {s : State} {rest : List Item} {ans : List LinkAnswer}
    {q : List RxAnswer} (fs : List Frame) (f : Frame) (hc : ∀ h, c ≠ .sync h)
    (hb : c = .write → blockOk s.params s.chunk = true)
    (hits : callItems c s = fs.flatMap phaseItems ++ .send f :: rest)
    (hans : s.sendAns = List.replicate fs.length .ok ++ .err :: ans)
    (hrx : s.rx = List.replicate fs.length (ackAns s.params) ++ q) :
    exec c.instr s = .next (raise .transportError c.failStep { s with
      line := .call c, phase := [], payload := [], remain := 0, call := .linkFailed, dev := []
      cksum := f.cksum (cksumAfter s.cksum fs), sendAns := ans, rx := q
      trace := s.trace ++ (fs.flatMap (phaseEvents s.params) ++ [.tx (f.bytes s.params) .err]) }) := by
  rw [exec_command hc hb, callAt, hits, doubting_eq_withDev,
    runItems_refused (s := (s.withDev (doubting c s).dev).beginCall c) fs hans hrx, settle_fail]
  rfl

/-! ## The frames of a command -/

/-- Every command but SYNC begins with the frame of its opcode (R93, R180). -/
theorem callItems_command {c : CallSite} (hc : ∀ h, c ≠ .sync h) (s : State) :
    ∃ op rest, callItems c s = .send (.cmd op) :: rest ∧ encode s.params c.instr = Frame.bytes s.params (.cmd op) := by
  cases c with
  | sync h => exact absurd rfl (hc h)
  | getVersion | getId | writeUnprotect | erase | extErase | write | go => exact ⟨_, _, rfl, rfl⟩

/-- A command with an argument sends it once its opcode has been acknowledged (R165, R168, R172, R176). -/
theorem callItems_argFrame {c : CallSite} {s : State} {f : Frame} (h : argFrame c s = some f) :
    ∃ op rest, callItems c s = .send (.cmd op) :: .ack :: .send f :: rest
      ∧ encode s.params c.instr = Frame.bytes s.params (.cmd op) := by
  cases c with
  | sync | getVersion | getId | writeUnprotect => cases h
  | erase | extErase | write | go => cases h; exact ⟨_, _, rfl, rfl⟩

/-- Settles O30: the refused frame is the first, or the second or third after one or two phases that complete. -/
theorem refusedSendRaises : Obligations.RefusedSendRaises := by
  unfold Obligations.RefusedSendRaises
  intro s c hc hb failed
  refine ⟨fun hans => ?_, fun f ans q harg hans hrx => ?_, fun ans q hw hans hrx => ?_⟩
  · obtain ⟨op, rest, hits, henc⟩ := callItems_command hc s
    rw [henc]
    exact exec_command_refused [] (.cmd op) hc hb hits (nextAnswer_err hans) rfl
  · obtain ⟨op, rest, hits, henc⟩ := callItems_argFrame harg
    rw [henc]
    exact exec_command_refused [.cmd op] f hc hb hits hans hrx
  · subst hw
    exact exec_command_refused [.cmd s.params.opcWriteMemory, .addr s.curAddr] (.data s.chunk) hc hb rfl hans hrx

end Sys2Proof.Machine
end

section
/-! O39, O43: the line that opens the link and the line that reads the source. -/

namespace Sys2Proof.Machine
open Sys2Proof.Safety

/-- Where the outside makes no move, a step at a line that calls nothing is that line. -/
theorem step_ctl {s : State} {c : Ctl} (hok : s.params.ok = true) (hr : s.run = true) (hm : s.moves = [])
    (hp : s.phase = []) (hl : s.line = .ctl c) : step s = runCtl c s := by
  simp [step, hok, hm, runSequencer, hr, fetch_ctl hp hl, hl, hp]

/-- Settles O39: the two answers of `Open`; the refused one aborts with no link to close. -/
theorem openLineOpensOrRaises : Obligations.OpenLineOpensOrRaises := by
  unfold Obligations.OpenLineOpensOrRaises
  intro s hok hr hm hp hl
  rw [step_ctl hok hr hm hp hl, runCtl, runOpen]
  refine ⟨fun hans => ?_, fun hans hclosed => ?_⟩
  · simp [hans, State.opened, State.goto]
  · rw [hans]
    refine ⟨_, rfl, by simp, by simp, by simp, by simp, by simp, ?_⟩
    exact newEvents_of_append (by simp [hans, hclosed, closing])

theorem chunk_storeChunk (s : State) (bs : List Byte) : (s.storeChunk bs).chunk = bs :=
  List.take_left

/-- Settles O43: the three ways of `takeChunk`. -/
theorem sourceReadStoresOrEnds : Obligations.SourceReadStoresOrEnds := by
  unfold Obligations.SourceReadStoresOrEnds
  intro s bs q hok hr hm hp hl hsrc got
  have hgot : s.fed bs = got := by
    simp [got, State.fed, hsrc]
  have hstep : step s = .next (takeChunk bs got) := by
    rw [step_ctl hok hr hm hp hl, runCtl, runRead, hsrc, ← hgot]
  rw [hstep, takeChunk]
  refine ⟨fun hnil => ?_, fun hover hne => ?_, fun hne hmax hsum hbuf => ?_⟩
  · rw [if_pos hnil]
    rfl
  · have hover : got.overrun bs = true := overrun_iff.2 hover
    rw [if_neg hne, if_pos hover]
  · have hfits : ¬ got.overrun bs = true := by
      rw [overrun_iff]
      exact not_or.2 ⟨Nat.not_lt.2 hmax, Nat.not_lt.2 hsum⟩
    rw [if_neg hne, if_neg hfits]
    refine ⟨_, rfl, chunk_storeChunk got bs, ?_, rfl⟩
    show (bs ++ s.chunkBuf.drop bs.length).length = s.params.maxChunk
    rw [List.length_append, List.length_drop]
    omega

end Sys2Proof.Machine
end

section
/-! O13, O14, O15: the decoder and the encoder undo each other, format by format (R90 to R101). -/

namespace Sys2Proof.Machine
open Sys2Proof.Safety

/-- Settles O13: row by row of the opcode table. -/
theorem encodedInstructionsDecode : Obligations.EncodedInstructionsDecode := by
  unfold Obligations.EncodedInstructionsDecode
  intro i
  cases i with
  | sync => exact Laws.RoundTrip.sync
  | getVersion => exact Laws.RoundTrip.getVersion
  | getId => exact Laws.RoundTrip.getId
  | writeUnprotect => exact Laws.RoundTrip.writeUnprotect
  | erase => exact Laws.RoundTrip.erase
  | extErase => exact Laws.RoundTrip.extErase
  | writeMemory => exact Laws.RoundTrip.writeMemory
  | go => exact Laws.RoundTrip.go
  | frameArgc arg => exact Laws.RoundTrip.frameArgc arg
  | frameArgx args => exact Laws.RoundTrip.frameArgx args
  | frameAddr a => exact Laws.RoundTrip.frameAddr a
  | frameData ds => exact Laws.RoundTrip.frameData ds
  | responseAck => exact Laws.RoundTrip.responseAck
  | responseNack => exact Laws.RoundTrip.responseNack
  | responseUnexpected b => exact Laws.RoundTrip.responseUnexpected b
  | responseVer ps => exact Laws.RoundTrip.responseVer ps
  | responseId id => exact Laws.RoundTrip.responseId id

/-! ## What was read is written back -/

/-- `i` is a well-formed instruction of the format, and `bs` is its encoding with `rest` after it. -/
def ReadBack (p : Params) (fmt : Format) (bs rest : List Byte) (i : Instr) : Prop :=
  formatOf i = fmt ∧ WellFormed p i = true ∧ encode p i ++ rest = bs

theorem guarded_eq_ok {ε α : Type} {c : Prop} [Decidable c] {x : Except ε α} {e : ε} {a : α} :
    (if c then x else .error e) = .ok a ↔ c ∧ x = .ok a := by
  by_cases h : c <;> simp [h]

/-- A byte after the first `n` shows that there are `n` before it. -/
theorem take_of_drop_eq_cons {α : Type} {n : Nat} {l after : List α} {x : α} (h : l.drop n = x :: after) :
    (l.take n).length = n ∧ l.take n ++ x :: after = l := by
  refine ⟨?_, by rw [← h, List.take_append_drop]⟩
  have := congrArg List.length h
  simp only [List.length_drop, List.length_cons] at this
  rw [List.length_take]
  omega

theorem addrBytes_addrOfBytes (b3 b2 b1 b0 : Byte) : addrBytes (addrOfBytes b3 b2 b1 b0) = [b3, b2, b1, b0] := by
  have h3 : (addrOfBytes b3 b2 b1 b0).extractLsb' 24 8 = b3 :=
    ((BitVec.extractLsb'_append_eq_of_le (by decide)).trans (BitVec.extractLsb'_append_eq_of_le (by decide))).trans
      BitVec.extractLsb'_append_eq_left
  have h2 : (addrOfBytes b3 b2 b1 b0).extractLsb' 16 8 = b2 :=
    ((BitVec.extractLsb'_append_eq_of_le (by decide)).trans (BitVec.extractLsb'_append_eq_of_le (by decide))).trans
      BitVec.extractLsb'_append_eq_right
  have h1 : (addrOfBytes b3 b2 b1 b0).extractLsb' 8 8 = b1 :=
    (BitVec.extractLsb'_append_eq_of_le (by decide)).trans BitVec.extractLsb'_append_eq_right
  have h0 : (addrOfBytes b3 b2 b1 b0).extractLsb' 0 8 = b0 := BitVec.extractLsb'_append_eq_right
  rw [addrBytes, h3, h2, h1, h0]

/-- The opcode a command is selected by is the one it is sent with (R103). -/
theorem commandOf_back {p : Params} {op : Byte} {i : Instr} (h : commandOf p op = some i) :
    formatOf i = .fCmd ∧ WellFormed p i = true ∧ encode p i = encodeSingleByteCommand op := by
  unfold commandOf at h
  split_ifs at h <;> cases h
  all_goals exact ⟨rfl, rfl, congrArg encodeSingleByteCommand (Eq.symm ‹op = _›)⟩

theorem decodeSync_back {p : Params} {bs rest : List Byte} {i : Instr} (h : decodeSync p bs = .ok (i, rest)) :
    ReadBack p .fSync bs rest i := by
  unfold decodeSync at h
  split at h
  · obtain ⟨rfl, ⟨⟩⟩ := guarded_eq_ok.1 h
    exact ⟨rfl, rfl, rfl⟩
  · cases h

theorem decodeCmd_back {p : Params} {bs rest : List Byte} {i : Instr} (h : decodeCmd p bs = .ok (i, rest)) :
    ReadBack p .fCmd bs rest i := by
  unfold decodeCmd at h
  split at h
  · obtain ⟨rfl, hcmd⟩ := guarded_eq_ok.1 h
    split at hcmd
    · rename_i hi
      cases hcmd
      obtain ⟨hfmt, hwf, henc⟩ := commandOf_back hi
      exact ⟨hfmt, hwf, by rw [henc]; rfl⟩
    · cases hcmd
  · cases h

theorem decodeArgc_back {p : Params} {bs rest : List Byte} {i : Instr} (h : decodeArgc bs = .ok (i, rest)) :
    ReadBack p .fArgc bs rest i := by
  unfold decodeArgc at h
  split at h
  · obtain ⟨rfl, ⟨⟩⟩ := guarded_eq_ok.1 h
    exact ⟨rfl, rfl, rfl⟩
  · cases h

theorem decodeArgx_back {p : Params} {bs rest : List Byte} {i : Instr} (h : decodeArgx bs = .ok (i, rest)) :
    ReadBack p .fArgx bs rest i := by
  unfold decodeArgx at h
  split at h
  · cases h
  · cases h
  · rename_i hlast hne
    obtain ⟨rfl, ⟨⟩⟩ := guarded_eq_ok.1 h
    refine ⟨rfl, ?_, ?_⟩
    · simpa [WellFormed, argxOk] using hne
    · rw [List.append_nil]
      exact List.dropLast_append_getLast? _ hlast

theorem decodeAddr_back {p : Params} {bs rest : List Byte} {i : Instr} (h : decodeAddr bs = .ok (i, rest)) :
    ReadBack p .fAddr bs rest i := by
  unfold decodeAddr at h
  split at h
  · obtain ⟨rfl, ⟨⟩⟩ := guarded_eq_ok.1 h
    exact ⟨rfl, rfl, by simp [encode, Frame.bytes, encodeAddr, encodePayload, addrBytes_addrOfBytes]⟩
  · cases h

theorem decodeData_back {p : Params} {bs rest : List Byte} {i : Instr} (h : decodeData p bs = .ok (i, rest)) :
    ReadBack p .fData bs rest i := by
  unfold decodeData at h
  split at h
  · rename_i l ds
    dsimp only at h
    split_ifs at h with hmax
    split at h
    · rename_i x after hdrop
      obtain ⟨rfl, ⟨⟩⟩ := guarded_eq_ok.1 h
      obtain ⟨hlen, hds⟩ := take_of_drop_eq_cons hdrop
      have hl := l.isLt
      refine ⟨rfl, ?_, ?_⟩
      · simp only [WellFormed, blockOk, hlen, Bool.and_eq_true, decide_eq_true_eq]
        omega
      · simpa [encode, Frame.bytes, encodeData, dataPayload, encodePayload, hlen] using hds
    · cases h
  · cases h

/-- Settles O14: format by format. -/
theorem decodedBytesEncodeBack : Obligations.DecodedBytesEncodeBack := by
  unfold Obligations.DecodedBytesEncodeBack
  intro p fmt bs rest i h
  cases fmt with
  | fSync => exact decodeSync_back h
  | fCmd => exact decodeCmd_back h
  | fArgc => exact decodeArgc_back h
  | fArgx => exact decodeArgx_back h
  | fAddr => exact decodeAddr_back h
  | fData => exact decodeData_back h
  | rAck =>
    obtain ⟨b, rfl, -, henc, hfmt, hwf⟩ := decodeAckByte_back h
    exact ⟨hfmt, hwf, congrArg (· ++ rest) henc⟩
  | rVer =>
    obtain ⟨ps, rfl, hok, hbytes⟩ := decodeVer_back h
    exact ⟨rfl, hok, hbytes⟩
  | rId =>
    obtain ⟨id, rfl, hbytes⟩ := decodeId_back h
    exact ⟨rfl, rfl, hbytes⟩

/-- Settles O15, by running the decoder on each word. -/
theorem tableWordsDecode : Obligations.TableWordsDecode := by
  unfold Obligations.TableWordsDecode
  decide

end Sys2Proof.Machine
end

section
/-! O17: a response that stands at the head of RX is the row that a step runs (R99 to R101, R126). -/

namespace Sys2Proof.Machine
open Sys2Proof.Safety

/-! ## The encoding of a response is read back, whatever stands after it -/

theorem decode_ackByte_append {p : Params} {i : Instr} (hok : p.ok = true) (hfmt : formatOf i = .rAck)
    (hwf : WellFormed p i = true) (rest : List Byte) : decode p .rAck (encode p i ++ rest) = .ok (i, rest) := by
  cases i with
  | responseAck => simp [decode, encode, decodeAckByte, responseOf]
  | responseNack => simp [decode, encode, decodeAckByte, responseOf, decodeAck_nack (Params.ok_ack hok)]
  | responseUnexpected b =>
    simp only [WellFormed, unexpectedOk, Bool.and_eq_true, bne_iff_ne] at hwf
    simp [decode, encode, decodeAckByte, responseOf, decodeAck, hwf]
  | _ => cases hfmt

theorem decode_ver_append (p : Params) {ps : List Byte} (hps : verPayloadOk ps = true) (rest : List Byte) :
    decode p .rVer (encode p (.responseVer ps) ++ rest) = .ok (.responseVer ps, rest) := by
  simp only [verPayloadOk, Bool.and_eq_true, decide_eq_true_eq] at hps
  have hcount : (verCount ps).toNat + 1 = ps.length := countByte_toNat hps.1 hps.2
  simp [decode, encode, decodeVer, hcount]

theorem decode_id_append (p : Params) (id : ChipId) (rest : List Byte) :
    decode p .rId (encode p (.responseId id) ++ rest) = .ok (.responseId id, rest) := by
  simp [decode, encode, decodeId, chipIdOf_own]

/-! ## From the bytes in RX to the step -/

theorem rxBytes_append (bs : List Byte) (q : List RxAnswer) : rxBytes (bs.map .byte ++ q) = bs ++ rxBytes q := by
  induction bs with
  | nil => rfl
  | cons b bs ih => exact congrArg (b :: ·) ih

/-- A response that reads back is the one fetched, and its answers are taken off RX. -/
theorem fetchResponse_of_rx {s : State} {fmt : Format} {i : Instr} {q : List RxAnswer}
    (hrx : s.rx = (encode s.params i).map .byte ++ q)
    (hread : ∀ rest, decode s.params fmt (encode s.params i ++ rest) = .ok (i, rest)) :
    fetchResponse fmt s = some (i, q) := by
  simp [fetchResponse, hrx, rxBytes_append, hread]

/-- One acknowledgement is fetched where it does not begin a whole reply. -/
theorem fetchPhase_ack {s : State} {rest : List Item} (hcount : rest.head? ≠ some .count)
    (hone : rest.head? ≠ some .countOne) :
    fetchPhase s (.ack :: rest) = (fetchResponse .rAck s).map fun r => (r.1, rest, r.2) := by
  unfold fetchPhase
  split
  case h_1 h => cases h; exact absurd rfl hcount
  case h_2 h => cases h; exact absurd rfl hone
  case h_3 h => cases h; rfl
  case h_4 h => cases h
  case h_5 _ _ h _ => exact (h _ rfl).elim

/-- In the middle of a call a step runs the row that the call's items fetch. -/
theorem step_fetchPhase {s : State} {i : Instr} {its : List Item} {q : List RxAnswer} (hok : s.params.ok = true)
    (hr : s.run = true) (hm : s.moves = []) (hp : s.phase ≠ [])
    (hf : fetchPhase s s.phase = some (i, its, q)) : step s = exec i (s.taken its q) := by
  have hfetch : s.fetch = some (i, s.taken its q) := by
    simp [State.fetch, hf]
  simp [step, hok, hm, runSequencer, hr, hfetch]

/-- Settles O17: each of the three formats is fetched where it is awaited. -/
theorem stepRunsTheDecodedResponse : Obligations.StepRunsTheDecodedResponse := by
  unfold Obligations.StepRunsTheDecodedResponse
  intro s q rest hok hr hm
  refine ⟨fun i hfmt hwf hp hcount hone hrx => ?_, fun ps hps hp hrx => ?_, fun id hp hrx => ?_⟩
  · have hfetch := fetchResponse_of_rx hrx (decode_ackByte_append hok hfmt hwf)
    exact step_fetchPhase hok hr hm (by simp [hp]) (by rw [hp, fetchPhase_ack hcount hone, hfetch]; rfl)
  · have hfetch := fetchResponse_of_rx hrx (decode_ver_append s.params hps)
    exact step_fetchPhase hok hr hm (by simp [hp, verReplyItems])
      (by simp [hp, verReplyItems, fetchPhase, hfetch])
  · have hfetch := fetchResponse_of_rx hrx (decode_id_append s.params id)
    exact step_fetchPhase hok hr hm (by simp [hp, idReplyItems])
      (by simp [hp, idReplyItems, fetchPhase, hfetch])

end Sys2Proof.Machine
end

section
/-! O35, O36, O37: what a response does to the call in progress (R142, R144, R146, R150), and the argument frames that
their format cannot carry. -/

namespace Sys2Proof.Machine
open Sys2Proof.Safety

/-- Settles O35: F-ARGX and F-DATA are the frames that bound their operand. -/
theorem illFormedFramesStop : Obligations.IllFormedFramesStop := by
  unfold Obligations.IllFormedFramesStop
  intro s f i hi hwf
  exact exec_illformed hi (by simp [hwf])

/-- The call goes on with the bytes of the response in RX. -/
theorem resumeWith_answeredBy (its : List Item) (s : State) (bs : List Byte) :
    resumeWith its (s.answeredBy bs) =
      settle (runItems (its ++ s.phase) ((s.answeredBy bs).withPhase [])) := rfl

/-! ## One acknowledgement -/

/-- A NACK or an unexpected byte is an error where an acknowledgement is awaited (R142). -/
theorem ackError_byte_ne_none {p : Params} {b : Byte} (hb : b ≠ p.ackByte) : ackError p (.byte b) ≠ .none := by
  rw [ackError, if_neg hb]
  split <;> exact ErrCode.noConfusion

/-- SYNC counts a byte that is no ACK as a failed attempt, and writes nothing (R144). -/
theorem ackAnswer_retry {s : State} {b : Byte} (hl : s.line.isSync = true) (hb : b ≠ s.params.ackByte) :
    ackAnswer (.byte b) s = .retry s := by
  have hclass : decodeAck s.params b ≠ .ack := fun h => hb (decodeAck_eq_ack.1 h)
  simp only [ackAnswer, hl, syncAnswer]
  split
  · contradiction
  · rfl
  · rfl

/-- A byte that is no ACK ends a SYNC call as a failed attempt (R144). -/
theorem runItems_ack_retry {rest : List Item} {s : State} {b : Byte} {q : List RxAnswer} (hl : s.line.isSync = true)
    (hb : b ≠ s.params.ackByte) (hrx : s.rx = .byte b :: q) :
    runItems (.ack :: rest) s = .retry (s.received (.byte b)) :=
  runItems_cons_retry (show runItem .ack s = _ from
    (recv_cons hrx ackAnswer).trans (ackAnswer_retry (s := s.received (.byte b)) hl hb))

/-- An ACK lets the call go on with what is left of it. -/
theorem resumeWith_ack (s : State) :
    resumeWith [.ack] (s.answeredBy [s.params.ackByte]) = settle (runItems s.phase { s with
      phase := [], call := .acked, trace := s.trace ++ [gotAck s.params] }) := by
  rw [resumeWith_answeredBy, List.singleton_append, runItems_ack rfl]
  rfl

/-- Any other byte ends a call that is no SYNC, with its error. -/
theorem resumeWith_ack_error {s : State} {b : Byte} (hl : s.line.isSync = false) (hb : b ≠ s.params.ackByte) :
    resumeWith [.ack] (s.answeredBy [b]) = raise (ackError s.params (.byte b)) s.line.failStep { s with
      phase := [], call := ackCall s.params (.byte b), dev := [], trace := s.trace ++ [.rx (.byte b)] } := by
  rw [resumeWith_answeredBy, List.singleton_append,
    runItems_ack_error (s := (s.answeredBy [b]).withPhase []) hl (ackError_byte_ne_none hb) rfl, settle_fail]
  simp [State.doubtAll, State.withDev, State.setCall, State.received, State.answeredBy, State.withPhase]

/-- Any other byte makes a SYNC a failed attempt. -/
theorem resumeWith_ack_retry {s : State} {b : Byte} {h : Handshake} (hl : s.line = .call (.sync h))
    (hb : b ≠ s.params.ackByte) :
    resumeWith [.ack] (s.answeredBy [b]) = { s with
      line := .ctl (.retry h), phase := [], payload := [], remain := 0, call := .awaitingAck
      trace := s.trace ++ [.rx (.byte b)] } := by
  have hsync : s.line.isSync = true := by rw [hl, Line.isSync]
  rw [resumeWith_answeredBy, List.singleton_append,
    runItems_ack_retry (s := (s.answeredBy [b]).withPhase []) hsync hb rfl]
  simp [settle, hl, Line.retried, State.endCall, State.goto, State.received, State.answeredBy, State.withPhase]

/-- Settles O36: the three classes of a byte, in and out of SYNC. -/
theorem ackResponsesDoWhatTheirClassSays : Obligations.AckResponsesDoWhatTheirClassSays := by
  unfold Obligations.AckResponsesDoWhatTheirClassSays
  intro s hok
  have hnack : s.params.nackByte ≠ s.params.ackByte := (Params.ok_ack hok).symm
  refine ⟨congrArg _ (resumeWith_ack s), fun hl => ?_, fun b hl hack hb => ?_, fun h hl => ⟨?_, fun b hb => ?_⟩⟩
  · refine congrArg Host.Outcome.next ((resumeWith_ack_error hl hnack).trans ?_)
    simp [ackError, ackCall, hnack]
  · refine congrArg Host.Outcome.next ((resumeWith_ack_error hl hack).trans ?_)
    simp [ackError, ackCall, hack, hb]
  · exact congrArg _ (resumeWith_ack_retry hl hnack)
  · exact congrArg _ (resumeWith_ack_retry hl hb)

/-! ## A whole reply -/

/-- The bytes of a whole reply (R100, R101). -/
def replyBytes (p : Params) (c : Byte) (bs : List Byte) : List Byte := p.ackByte :: c :: bs ++ [p.ackByte]

/-- A whole reply that stands in RX is taken up to what its command writes. The count item is given by what it makes of
the count byte. -/
theorem runItems_reply {s : State} {it : Item} {c : Byte} {bs : List Byte} {rest : List Item} {q : List RxAnswer}
    (hcount : ∀ {t : State} {its : List Item} {r : List RxAnswer}, t.rx = .byte c :: r →
      runItems (it :: its) t = runItems its ((t.received (.byte c)).withRemain bs.length))
    (hne : bs ≠ []) (hpay : s.payload = []) (hrx : s.rx = (replyBytes s.params c bs).map .byte ++ q) :
    runItems (.ack :: it :: .data :: .ack :: rest) s = runItems rest { s with
      payload := bs, remain := 0, call := .acked, rx := q
      trace := s.trace ++ (replyBytes s.params c bs).map fun b => Event.rx (.byte b) } := by
  replace hrx : s.rx = .byte s.params.ackByte :: .byte c :: (bs.map .byte ++ .byte s.params.ackByte :: q) := by
    simpa [replyBytes] using hrx
  rw [runItems_ack hrx, hcount (r := bs.map .byte ++ .byte s.params.ackByte :: q) (by simp [hrx]),
    runItems_data (bs := bs) (q := .byte s.params.ackByte :: q) hne rfl (by simp [hrx]),
    runItems_ack (q := q) (by simp [hrx])]
  simp [replyBytes, hrx, hpay, State.setCall, State.received, State.tookPayload, State.withRemain]

/-- R-VER is taken whole, and its version written (R101, R146). -/
theorem resumeWith_verReply {s : State} {p0 : Byte} {ps : List Byte} (hlen : ps.length ≤ 255) (hpay : s.payload = []) :
    resumeWith verReplyItems (s.answeredBy (encode s.params (.responseVer (p0 :: ps)))) =
      settle (runItems s.phase { s with
        phase := [], payload := p0 :: ps, remain := 0, call := .acked
        blMajor := majorOf p0, blMinor := minorOf p0, verValid := true
        trace := s.trace ++ (encode s.params (.responseVer (p0 :: ps))).map fun b => Event.rx (.byte b) }) := by
  have hcount : (verCount (p0 :: ps)).toNat + 1 = (p0 :: ps).length :=
    countByte_toNat (Nat.le_add_left 1 _) (Nat.succ_le_succ hlen)
  have hitem {t its r} (h : t.rx = .byte (verCount (p0 :: ps)) :: r) : runItems (.count :: its) t =
      runItems its ((t.received (.byte (verCount (p0 :: ps)))).withRemain (p0 :: ps).length) := by
    rw [runItems_count h, hcount]
  refine congrArg settle ((runItems_reply (s := (s.answeredBy (encode s.params (.responseVer (p0 :: ps)))).withPhase [])
    hitem (List.cons_ne_nil p0 ps) hpay rfl).trans ?_)
  exact runItems_cons_done rfl

/-- R-ID is taken whole, and its identifier written (R100, R150). -/
theorem resumeWith_idReply {s : State} (id : ChipId) (hpay : s.payload = []) :
    resumeWith idReplyItems (s.answeredBy (encode s.params (.responseId id))) =
      settle (runItems s.phase { s with
        phase := [], payload := [idHi id, idLo id], remain := 0, call := .acked, chipId := id, idValid := true
        trace := s.trace ++ (encode s.params (.responseId id)).map fun b => Event.rx (.byte b) }) := by
  refine congrArg settle ((runItems_reply (s := (s.answeredBy (encode s.params (.responseId id))).withPhase [])
    (bs := [idHi id, idLo id]) runItems_countOne (List.cons_ne_nil _ _) hpay rfl).trans
      ((runItems_cons_done rfl).trans ?_))
  rw [State.withId, chipIdOf_own]
  rfl

/-- Settles O37: the two replies, and the payload lengths that no count byte announces. -/
theorem repliesWriteTheIdentity : Obligations.RepliesWriteTheIdentity := by
  unfold Obligations.RepliesWriteTheIdentity
  intro s hpay
  refine ⟨fun p0 ps hlen => ?_, fun id => congrArg _ (resumeWith_idReply id hpay), rfl, fun ps hlen => ?_⟩
  · have hok : verPayloadOk (p0 :: ps) = true := by
      simp only [verPayloadOk, List.length_cons, Bool.and_eq_true, decide_eq_true_eq]
      omega
    exact (if_pos hok).trans (congrArg _ (resumeWith_verReply hlen hpay))
  · have hlong : ¬ verPayloadOk ps = true := by
      simp only [verPayloadOk, Bool.and_eq_true, decide_eq_true_eq]
      omega
    exact if_neg hlong

end Sys2Proof.Machine
end

section
/-! O10, O11, O12: the checksum unit, the validators of the two trailers, and the class of a received byte (R120 to
R128). Both validators are read as a length and an `xorsum`, so the laws of `xorsum` give every law of R128. -/

namespace Sys2Proof.Machine
open Sys2Proof.Safety

/-! ## The checksum unit -/

theorem xor_cmpl (b : Byte) : b ^^^ cmpl b = 0xFF := by
  rw [cmpl, ← BitVec.xor_assoc, BitVec.xor_self, BitVec.zero_xor]

theorem cmpl_cmpl (b : Byte) : cmpl (cmpl b) = b := by
  rw [cmpl_eq_not, cmpl_eq_not, BitVec.not_not]

theorem toNat_add_toNat_cmpl (b : Byte) : b.toNat + (cmpl b).toNat = 255 := by
  rw [cmpl_eq_not, BitVec.toNat_not]
  omega

/-- A byte and its complement sum to 255, which is odd. -/
theorem cmpl_ne (b : Byte) : cmpl b ≠ b := by
  intro h
  have hsum := toNat_add_toNat_cmpl b
  rw [h] at hsum
  omega

theorem xorsumFrom_eq_foldl (acc : Byte) (bs : List Byte) : xorsumFrom acc bs = bs.foldl (· ^^^ ·) acc := by
  induction bs generalizing acc with
  | nil => rfl
  | cons b bs ih => exact ih (acc ^^^ b)

theorem xorsum_nil : xorsum [] = 0#8 := rfl

theorem xorsum_singleton (b : Byte) : xorsum [b] = b := BitVec.zero_xor

theorem byte_xor_left_comm (x y z : Byte) : x ^^^ (y ^^^ z) = y ^^^ (x ^^^ z) := by
  rw [← BitVec.xor_assoc, BitVec.xor_comm x, BitVec.xor_assoc]

theorem xorsum_append (a b : List Byte) : xorsum (a ++ b) = xorsum a ^^^ xorsum b := by
  induction a with
  | nil => exact BitVec.zero_xor.symm
  | cons x xs ih => rw [List.cons_append, xorsum_cons, xorsum_cons, ih, BitVec.xor_assoc]

theorem xorsum_perm {a b : List Byte} (h : a.Perm b) : xorsum a = xorsum b := by
  rw [xorsum, xorsum, xorsumFrom_eq_foldl, xorsumFrom_eq_foldl]
  exact h.foldl_eq 0

/-- Two halves of equal bytes cancel. -/
theorem xorsum_replicate_of_even {n : Nat} (h : Even n) (b : Byte) : xorsum (List.replicate n b) = 0#8 := by
  obtain ⟨k, rfl⟩ := h
  rw [List.replicate_add, xorsum_append, BitVec.xor_self]

/-- R121: a byte that occurs an even number of times cancels. -/
theorem xorsum_filter_of_even_count {b : Byte} {bs : List Byte} (h : Even (bs.count b)) :
    xorsum bs = xorsum (bs.filter (· != b)) :=
  calc xorsum bs
      = xorsum (bs.filter (· == b) ++ bs.filter (· != b)) := xorsum_perm (List.filter_append_perm (· == b) bs).symm
    _ = xorsum (List.replicate (bs.count b) b) ^^^ xorsum (bs.filter (· != b)) := by
        rw [xorsum_append, List.filter_beq]
    _ = xorsum (bs.filter (· != b)) := by rw [xorsum_replicate_of_even h, BitVec.zero_xor]

/-- An even number and its successor differ in bit 0 alone. -/
theorem ofNat_xor_ofNat_succ {n : Nat} (h : Even n) : BitVec.ofNat 8 n ^^^ BitVec.ofNat 8 (n + 1) = 1 := by
  rw [← Nat.xor_one_of_even h, BitVec.ofNat_xor, ← BitVec.xor_assoc, BitVec.xor_self]
  exact BitVec.zero_xor

/-- The numbers below `2 * n` pair off, each pair with exclusive-or 1. -/
theorem xorsum_range_two_mul (n : Nat) :
    xorsum ((List.range (2 * n)).map (BitVec.ofNat 8)) = xorsum (List.replicate n 1) := by
  induction n with
  | zero => rfl
  | succ n ih =>
    have hpair : (List.range (2 * (n + 1))).map (BitVec.ofNat 8) =
        (List.range (2 * n)).map (BitVec.ofNat 8) ++ [BitVec.ofNat 8 (2 * n), BitVec.ofNat 8 (2 * n + 1)] := by
      simp [Nat.mul_succ, List.range_succ]
    rw [hpair, xorsum_append, ih, xorsum_cons, xorsum_singleton, ofNat_xor_ofNat_succ (even_two_mul n),
      List.replicate_succ', xorsum_append, xorsum_singleton]

/-- R121: every byte value once. -/
theorem xorsum_all_bytes : xorsum ((List.range 256).map (BitVec.ofNat 8)) = 0 :=
  (xorsum_range_two_mul 128).trans (xorsum_replicate_of_even (by decide) 1)

/-- Settles O10: the laws of the two checksums, assembled; the corners are computed. -/
theorem checksumUnitLaws : Obligations.ChecksumUnitLaws := by
  unfold Obligations.ChecksumUnitLaws
  exact ⟨fun b => ⟨cmpl_cmpl b, xor_cmpl b, toNat_add_toNat_cmpl b, cmpl_ne b⟩,
    by decide, by decide, by decide, by decide,
    xorsumFrom_eq_foldl 0x00, fun _ => xorsumFrom_eq_foldl 0x00,
    xorsum_nil, xorsum_singleton, xorsum_append, fun _ _ => xorsum_perm, fun _ _ => xorsum_filter_of_even_count,
    by decide, xorsum_all_bytes, by decide⟩

/-! ## The validators, and the frames that pass them -/

theorem checkXor_iff {f : List Byte} : checkXor f = true ↔ 2 ≤ f.length ∧ xorsum f = 0 := by
  rw [checkXor, Bool.and_eq_true, decide_eq_true_iff, beq_iff_eq]

theorem checkCmpl_iff {f : List Byte} : checkCmpl f = true ↔ f.length = 2 ∧ xorsum f = 0xFF := by
  match f with
  | [] => simp [checkCmpl]
  | [_] => simp [checkCmpl]
  | [a, b] => simp [checkCmpl, xorsum_cons, xorsum_nil]
  | _ :: _ :: _ :: _ => simp [checkCmpl]

theorem checkCmpl_encodeSingleByteCommand (op : Byte) : checkCmpl (encodeSingleByteCommand op) = true :=
  beq_iff_eq.2 (xor_cmpl op)

theorem checkXor_encodePayload {bs : List Byte} (h : bs ≠ []) : checkXor (encodePayload bs) = true := by
  rw [checkXor_iff, encodePayload, xorsum_append, xorsum_singleton, BitVec.xor_self, List.length_append]
  exact ⟨Nat.succ_le_succ (List.length_pos_iff.2 h), rfl⟩

/-! ## Flipped bits -/

/-- Bit `j` flipped in byte after byte of the list `is`. -/
def flipBits (f : List Byte) (is : List Nat) (j : Nat) : List Byte := is.foldl (fun g i => flipBit g i j) f

@[simp] theorem length_flipBit (f : List Byte) (i j : Nat) : (flipBit f i j).length = f.length := List.length_modify ..

theorem xorsum_flipBit {f : List Byte} {i : Nat} (hi : i < f.length) (j : Nat) :
    xorsum (flipBit f i j) = BitVec.twoPow 8 j ^^^ xorsum f := by
  induction f generalizing i with
  | nil => exact absurd hi (Nat.not_lt_zero i)
  | cons b bs ih =>
    cases i with
    | zero =>
      rw [flipBit, List.modify_zero_cons, xorsum_cons, xorsum_cons, BitVec.xor_comm b, BitVec.xor_assoc]
    | succ i =>
      have hbs : xorsum (bs.modify i (· ^^^ BitVec.twoPow 8 j)) = BitVec.twoPow 8 j ^^^ xorsum bs :=
        ih (Nat.lt_of_succ_lt_succ hi)
      rw [flipBit, List.modify_succ_cons, xorsum_cons, xorsum_cons, hbs, byte_xor_left_comm]

theorem xorsum_flipBit_ne {f : List Byte} {i j : Nat} (hi : i < f.length) (hj : j < 8) :
    xorsum (flipBit f i j) ≠ xorsum f := by
  rw [xorsum_flipBit hi]
  intro h
  have hzero : BitVec.twoPow 8 j = 0#8 := (BitVec.xor_left_inj (xorsum f)).1 (h.trans BitVec.zero_xor.symm)
  have hnat : 2 ^ j = 0 := (BitVec.toNat_twoPow_of_lt hj).symm.trans (congrArg BitVec.toNat hzero)
  exact absurd hnat (Nat.two_pow_pos j).ne'

theorem length_flipBits (f : List Byte) (is : List Nat) (j : Nat) : (flipBits f is j).length = f.length := by
  induction is generalizing f with
  | nil => rfl
  | cons i is ih => exact (ih (flipBit f i j)).trans (length_flipBit f i j)

theorem xorsum_flipBits {f : List Byte} {is : List Nat} (his : ∀ i ∈ is, i < f.length) (j : Nat) :
    xorsum (flipBits f is j) = xorsum (List.replicate is.length (BitVec.twoPow 8 j)) ^^^ xorsum f := by
  induction is generalizing f with
  | nil => exact BitVec.zero_xor.symm
  | cons i is ih =>
    obtain ⟨hi, his⟩ := List.forall_mem_cons.1 his
    have hrest : xorsum (flipBits (flipBit f i j) is j) = _ := ih (by simpa using his)
    calc xorsum (flipBits f (i :: is) j)
        = xorsum (List.replicate is.length (BitVec.twoPow 8 j)) ^^^ (BitVec.twoPow 8 j ^^^ xorsum f) :=
          hrest.trans (by rw [xorsum_flipBit hi])
      _ = xorsum (List.replicate (i :: is).length (BitVec.twoPow 8 j)) ^^^ xorsum f := by
          rw [List.length_cons, List.replicate_succ, xorsum_cons, BitVec.xor_assoc, byte_xor_left_comm]

theorem xorsum_flipBits_of_even {f : List Byte} {is : List Nat} (his : ∀ i ∈ is, i < f.length) (h : Even is.length)
    (j : Nat) : xorsum (flipBits f is j) = xorsum f := by
  rw [xorsum_flipBits his, xorsum_replicate_of_even h, BitVec.zero_xor]

/-- Settles O11: one flip changes the `xorsum` that a validator reads, an even number at one bit position keeps it. -/
theorem framesPassTheirValidators : Obligations.FramesPassTheirValidators := by
  unfold Obligations.FramesPassTheirValidators
  refine ⟨checkCmpl_encodeSingleByteCommand, fun _ => checkXor_encodePayload, fun a => ?addr, fun ds hmin hmax => ?data,
    fun f i j hi hj => ?single, fun f j is _ _ his heven => ?even⟩
  case addr =>
    exact ⟨checkXor_encodePayload (List.cons_ne_nil _ _), _, _, _, _, _, rfl, addrOfBytes_own a⟩
  case data =>
    exact ⟨checkXor_encodePayload (List.cons_ne_nil _ _), _, _, rfl, countByte_toNat hmin hmax⟩
  case single =>
    have hne := xorsum_flipBit_ne hi hj
    simp only [← Bool.not_eq_true, checkCmpl_iff, checkXor_iff]
    exact ⟨fun h h' => hne (h'.2.trans h.2.symm), fun h h' => hne (h'.2.trans h.2.symm)⟩
  case even =>
    change (_ → checkXor (flipBits f is j) = true) ∧ (_ → checkCmpl (flipBits f is j) = true)
    rw [checkXor_iff, checkXor_iff, checkCmpl_iff, checkCmpl_iff, length_flipBits, xorsum_flipBits_of_even his heven]
    exact ⟨id, id⟩

/-! ## The class of a received byte -/

theorem decodeAck_eq_nack {p : Params} (h : p.ackByte ≠ p.nackByte) {b : Byte} :
    decodeAck p b = .nack ↔ b = p.nackByte := by
  unfold decodeAck
  split
  · simp [*]
  · split <;> simp [*]

theorem decodeAck_eq_unexpected {p : Params} {b : Byte} :
    decodeAck p b = .unexpected ↔ b ≠ p.ackByte ∧ b ≠ p.nackByte := by
  unfold decodeAck
  split
  · simp [*]
  · split <;> simp [*]

/-- Two distinct members erased from the 256 numbers of a byte. -/
theorem length_filter_range_ne_ne {m n : Nat} (hm : m < 256) (hn : n < 256) (h : m ≠ n) :
    ((List.range 256).filter fun k => k != m && k != n).length = 254 := by
  have hm' : m ∈ (List.range 256).erase n := (List.mem_erase_of_ne h).2 (List.mem_range.2 hm)
  rw [← List.filter_filter, ← List.nodup_range.erase_eq_filter, ← (List.nodup_range.erase n).erase_eq_filter,
    List.length_erase_of_mem hm', List.length_erase_of_mem (List.mem_range.2 hn), List.length_range]

theorem ofNat_ne_iff {k : Nat} (hk : k < 256) (b : Byte) : BitVec.ofNat 8 k ≠ b ↔ k ≠ b.toNat := by
  rw [Ne, ← BitVec.toNat_inj, BitVec.toNat_ofNat, Nat.mod_eq_of_lt hk]

theorem length_filter_unexpected {p : Params} (h : p.ackByte ≠ p.nackByte) :
    ((List.range 256).filter fun n => decodeAck p (BitVec.ofNat 8 n) = .unexpected).length = 254 := by
  rw [← length_filter_range_ne_ne p.ackByte.isLt p.nackByte.isLt (mt BitVec.eq_of_toNat_eq h)]
  refine congrArg List.length (List.filter_congr fun k hk => ?_)
  have hk := List.mem_range.1 hk
  rw [Bool.eq_iff_iff]
  simp [decodeAck_eq_unexpected, ← ofNat_ne_iff hk]

/-- Settles O12: two of the 256 bytes are taken out, and each answer is what `expectAnswer` makes of its class. -/
theorem ackBytesClassify : Obligations.AckBytesClassify := by
  unfold Obligations.AckBytesClassify
  intro p hp
  have hne := Params.ok_ack hp
  refine ⟨fun b => ⟨decodeAck_eq_ack, decodeAck_eq_nack hne, decodeAck_eq_unexpected⟩, length_filter_unexpected hne, ?_⟩
  rintro s rfl
  refine ⟨?_, ?_, fun b hack hnack => ?_, rfl, rfl⟩
  · simp [expectAnswer, State.setCall]
  · simp [expectAnswer, State.setCall, decodeAck_nack hne]
  · simp [expectAnswer, State.setCall, decodeAck_eq_unexpected.2 ⟨hack, hnack⟩]

end Sys2Proof.Machine
end

section
/-! O32, O33, O34: an argument frame and the answer it gets, one phase of the call in progress (R141 to R143). -/

namespace Sys2Proof.Machine
open Sys2Proof.Safety

/-- A well-formed argument frame runs its phase before what is left of the call. -/
theorem exec_frame_settle {s : State} {f : Frame} {i : Instr} (hi : f.instr = some i)
    (hw : WellFormed s.params i = true) :
    exec i s = .next (settle (runItems (.send f :: .ack :: s.phase) (s.withPhase []))) :=
  exec_frame hi hw

/-- Settles O32: the phase completes, and the call goes on. -/
theorem argumentFramesComplete : Obligations.ArgumentFramesComplete := by
  unfold Obligations.ArgumentFramesComplete
  intro s f i q hi hw hs hrx
  have hok : nextAnswer s.sendAns = .ok := nextAnswer_of_sendsOk hs
  rw [exec_frame_settle hi hw, runItems_phase (s := s.withPhase []) hok hrx, ← Frame.bytes_instr hi]
  simp [State.sent, State.received, State.setCall, State.withPhase, hok, hrx, gotAck, ackAns]

/-- A call with nothing but `CALL <- Idle` left returns, and the session goes on after its line (R180, R190). -/
theorem settle_runItems_idle (s : State) : settle (runItems [.idle] s) =
    { s with line := s.line.after, phase := [], payload := [], remain := 0, call := .idle } := rfl

/-- Settles O33: what is left of the call writes `CALL` alone. -/
theorem lastArgumentFrameReturns : Obligations.LastArgumentFrameReturns := by
  unfold Obligations.LastArgumentFrameReturns
  intro s c f i q hi hw hl hp hs hrx
  rw [argumentFramesComplete s f i q hi hw hs hrx, hp, settle_runItems_idle]
  simp [hl, Line.after]

/-- Settles O34: the answer, or the link, ends the call at the frame. -/
theorem refusedArgumentFramesRaise : Obligations.RefusedArgumentFramesRaise := by
  unfold Obligations.RefusedArgumentFramesRaise
  intro s f i hi hw
  rw [exec_frame_settle hi hw, ← Frame.bytes_instr hi]
  refine ⟨fun a q hs hl he _ hrx => ?_, fun hans => ?_⟩
  · have hok : nextAnswer s.sendAns = .ok := nextAnswer_of_sendsOk hs
    rw [runItems_phase_error (s := s.withPhase []) hl he hok hrx, settle_fail]
    simp [State.sent, State.received, State.setCall, State.withPhase, State.doubtAll, State.withDev, hok, hrx]
  · rw [runItems_send_err (s := s.withPhase []) hans, settle_fail]
    simp [State.sent, State.setCall, State.withPhase, State.doubtAll, State.withDev, hans]

end Sys2Proof.Machine
end

section
/-! O18: one attempt of SYNC, for every answer (R144). -/

namespace Sys2Proof.Machine
open Sys2Proof.Safety

/-- An ACK is taken alike by ExpectAck and by SYNC (R142, R144). -/
theorem ackAnswer_ack {s : State} {b : Byte} (hb : b = s.params.ackByte) :
    ackAnswer (.byte b) s = .done (s.setCall .acked) := by
  unfold ackAnswer
  split <;> simp [syncAnswer, expectAnswer, hb]

/-- SYNC is called in the handshake the state is in (R192). -/
theorem exec_sync (s : State) : exec .sync s = .next (callAt (.sync s.line.handshake) syncItems s) := rfl

/-- Settles O18: the refused frame ends the attempt; of the answers only ACK connects and only a link error raises. -/
theorem syncAttempt : Obligations.SyncAttempt := by
  unfold Obligations.SyncAttempt
  intro s h sent
  rw [exec_sync, callAt, syncItems]
  refine ⟨fun hans => ?_, fun a q hans hrx => ?_⟩
  · rw [runItems_send_err (s := s.beginCall (.sync h)) hans, settle_fail]
    rfl
  · intro got
    obtain rfl : q = s.rx.tail := by rw [hrx, List.tail_cons]
    rw [runItems_sendAck (s := s.beginCall (.sync h)) hans hrx]
    cases a with
    | byte b =>
      by_cases hb : b = s.params.ackByte
      · rw [ackAnswer_ack (s := ((s.beginCall (.sync h)).sent .sync).received (.byte b)) hb]
        exact congrArg Host.Outcome.next (if_pos hb).symm
      · rw [ackAnswer_retry (s := ((s.beginCall (.sync h)).sent .sync).received (.byte b)) rfl hb]
        exact congrArg Host.Outcome.next (if_neg hb).symm
    | timeout => rfl
    | err => rfl

end Sys2Proof.Machine
end

section
/-! O29, O60: a command whose phases complete up to an acknowledgement that is refused (R142, R194). -/

namespace Sys2Proof.Machine
open Sys2Proof.Safety

/-! ## Frames accepted, and then a refused acknowledgement -/

/-- The `ok` answers of the first `m` frames and those of the `n` after them. -/
theorem sendsOk_add {m n : Nat} {s : State} (h : sendsOk (m + n) s) :
    sendsOk m s ∧ sendsOk n { s with sendAns := s.sendAns.drop m } := by
  rw [sendsOk, List.take_add] at h
  exact ⟨fun a ha => h a (List.mem_append_left _ ha), fun a ha => h a (List.mem_append_right _ ha)⟩

theorem runItems_send_ok {f : Frame} {rest : List Item} {s : State} (hs : nextAnswer s.sendAns = .ok) :
    runItems (.send f :: rest) s = runItems rest (s.sent f) :=
  runItems_cons_done (trySend_ok hs)

/-- The phases of the frames `fs` complete, and the call goes on with the items after them (R141). -/
theorem runItems_phases {its : List Item} {q : List RxAnswer} (fs : List Frame) :
    ∀ {s : State}, sendsOk fs.length s → s.rx = List.replicate fs.length (ackAns s.params) ++ q →
      ∃ c, runItems (fs.flatMap phaseItems ++ its) s = runItems its { s with
        call := c, cksum := cksumAfter s.cksum fs, sendAns := s.sendAns.drop fs.length, rx := q
        trace := s.trace ++ fs.flatMap (phaseEvents s.params) } := by
  induction fs with
  | nil =>
    intro s _ hrx
    obtain rfl : s.rx = q := hrx
    exact ⟨s.call, by simp [cksumAfter]⟩
  | cons g fs ih =>
    intro s hs hrx
    have hok : nextAnswer s.sendAns = .ok := nextAnswer_of_sendsOk hs
    have hack : s.rx = ackAns s.params :: (List.replicate fs.length (ackAns s.params) ++ q) := hrx
    obtain ⟨c, hc⟩ := ih (s := ((s.sent g).received (ackAns s.params)).setCall .acked) (sendsOk_tail hs rfl)
      (by simp [hack])
    refine ⟨c, (runItems_phase hok hack).trans (hc.trans ?_)⟩
    simp [State.sent, State.setCall, State.received, hok, phaseEvents, sentOk, gotAck, cksumAfter, ackAns]

/-- The phases of the frames `fs` complete, and the acknowledgement of the frame `f` after them is refused: the call
ends there. -/
theorem runItems_phases_error {f : Frame} {rest : List Item} {s : State} {a : RxAnswer} {q : List RxAnswer}
    (fs : List Frame) (hl : s.line.isSync = false) (hs : sendsOk (fs.length + 1) s)
    (he : ackError s.params a ≠ .none) (hrx : s.rx = List.replicate fs.length (ackAns s.params) ++ a :: q) :
    runItems (fs.flatMap phaseItems ++ .send f :: .ack :: rest) s = .fail (ackError s.params a) { s with
      call := ackCall s.params a, cksum := f.cksum (cksumAfter s.cksum fs), sendAns := s.sendAns.drop (fs.length + 1)
      rx := q, trace := s.trace ++ (fs.flatMap (phaseEvents s.params) ++ [sentOk s.params f, .rx a]) } := by
  obtain ⟨hphases, hlast⟩ := sendsOk_add hs
  have hok : nextAnswer (s.sendAns.drop fs.length) = .ok := nextAnswer_of_sendsOk hlast
  obtain ⟨c, hc⟩ := runItems_phases (its := .send f :: .ack :: rest) fs hphases hrx
  rw [hc, runItems_phase_error (a := a) (q := q)]
  · simp [State.sent, State.received, State.setCall, hok, sentOk]
  · exact hl
  · exact he
  · exact hok
  · rfl

/-- `k` acknowledgements are received, and the next is refused: the call ends there (R162). -/
theorem runItems_acks_error (k : Nat) {rest : List Item} {s : State} {a : RxAnswer} {q : List RxAnswer}
    (hl : s.line.isSync = false) (he : ackError s.params a ≠ .none)
    (hrx : s.rx = List.replicate k (ackAns s.params) ++ a :: q) :
    runItems (List.replicate k Item.ack ++ Item.ack :: rest) s = .fail (ackError s.params a) { s with
      call := ackCall s.params a, rx := q, trace := s.trace ++ (List.replicate k (gotAck s.params) ++ [.rx a]) } := by
  obtain ⟨c, hc⟩ := runItems_acks k (rest := .ack :: rest) hrx
  rw [hc, runItems_ack_error (a := a) (q := q)]
  · simp [State.received, State.setCall]
  · exact hl
  · exact he
  · rfl

/-! ## A command executed, and how it is refused -/

theorem isSync_call {c : CallSite} (hc : ∀ h, c ≠ .sync h) : (Line.call c).isSync = false := by
  cases c with
  | sync h => exact absurd rfl (hc h)
  | getVersion | getId | writeUnprotect | erase | extErase | write | go => rfl

/-- A command that is refused at an acknowledgement raises at its own step, with nothing known of DEV (R194, U1). -/
theorem exec_command_refusedAck {c : CallSite} {s : State} {rest : List Item} {a : RxAnswer} {q : List RxAnswer}
    (fs : List Frame) (f : Frame) (hc : ∀ h, c ≠ .sync h) (hb : c = .write → blockOk s.params s.chunk = true)
    (hits : callItems c s = fs.flatMap phaseItems ++ .send f :: .ack :: rest) (hs : sendsOk (fs.length + 1) s)
    (he : ackError s.params a ≠ .none) (hrx : s.rx = List.replicate fs.length (ackAns s.params) ++ a :: q) :
    exec c.instr s = .next (raise (ackError s.params a) c.failStep { s with
      line := .call c, phase := [], payload := [], remain := 0, call := ackCall s.params a, dev := []
      cksum := f.cksum (cksumAfter s.cksum fs), sendAns := s.sendAns.drop (fs.length + 1), rx := q
      trace := s.trace ++ (fs.flatMap (phaseEvents s.params) ++ [sentOk s.params f, .rx a]) }) := by
  rw [exec_command hc hb, callAt, hits, doubting_eq_withDev,
    runItems_phases_error (s := (s.withDev (doubting c s).dev).beginCall c) fs (isSync_call hc) hs he hrx, settle_fail]
  rfl

/-- Every command but SYNC sends the frame of its opcode and awaits an acknowledgement (R93, R180). -/
theorem callItems_firstPhase {c : CallSite} {s : State} (hc : ∀ h, c ≠ .sync h) (hok : s.params.ok = true) :
    ∃ op rest, callItems c s = .send (.cmd op) :: .ack :: rest
      ∧ encode s.params c.instr = Frame.bytes s.params (.cmd op) := by
  cases c with
  | sync h => exact absurd rfl (hc h)
  | writeUnprotect =>
    obtain ⟨-, -, -, -, -, -, -, hacks, -⟩ := Params.ok_iff.1 hok
    obtain ⟨n, hn⟩ := Nat.exists_eq_add_of_le' hacks
    exact ⟨_, List.replicate n Item.ack ++ [Item.idle], by rw [callItems, writeUnprotectItems, hn]; rfl, rfl⟩
  | getVersion | getId | erase | extErase | write | go => exact ⟨_, _, rfl, rfl⟩

/-- A command with an argument awaits an acknowledgement of its opcode and then of its argument (R165, R168, R172,
R176). -/
theorem callItems_argPhase {c : CallSite} {s : State} {f : Frame} (h : argFrame c s = some f) :
    ∃ op rest, callItems c s = .send (.cmd op) :: .ack :: .send f :: .ack :: rest
      ∧ encode s.params c.instr = Frame.bytes s.params (.cmd op) := by
  cases c with
  | sync | getVersion | getId | writeUnprotect => cases h
  | erase | extErase | write | go => cases h; exact ⟨_, _, rfl, rfl⟩

/-- Settles O29: the first phase of the call ends it. -/
theorem refusedFirstAckRaises : Obligations.RefusedFirstAckRaises := by
  unfold Obligations.RefusedFirstAckRaises
  intro s c a q hc hs hok hb he hrx
  obtain ⟨op, rest, hits, henc⟩ := callItems_firstPhase hc hok
  rw [henc, ← List.drop_one]
  exact exec_command_refusedAck [] (.cmd op) hc hb hits hs he hrx

/-- WRITE_UNPROTECT refused after `k` of its acknowledgements (R162). -/
theorem exec_writeUnprotect_refused {s : State} {a : RxAnswer} {q : List RxAnswer} {k : Nat}
    (he : ackError s.params a ≠ .none) (hs : sendsOk 1 s) (hk : k < s.params.wupAcks)
    (hrx : s.rx = List.replicate k (ackAns s.params) ++ a :: q) :
    exec .writeUnprotect s = .next (raise (ackError s.params a) .writeUnprotect { s with
      line := .call .writeUnprotect, phase := [], payload := [], remain := 0, call := ackCall s.params a
      sendAns := s.sendAns.tail, rx := q, dev := []
      trace := s.trace ++ Event.tx (encode s.params .writeUnprotect) .ok
        :: List.replicate k (gotAck s.params) ++ [.rx a] }) := by
  have hok : nextAnswer s.sendAns = .ok := nextAnswer_of_sendsOk hs
  obtain ⟨n, hn⟩ := Nat.exists_eq_add_of_lt hk
  have hits : writeUnprotectItems s.params = .send (.cmd s.params.opcWriteUnprotect) ::
      (List.replicate k Item.ack ++ Item.ack :: (List.replicate n Item.ack ++ [Item.idle])) := by
    simp [writeUnprotectItems, hn, Nat.add_assoc, List.replicate_add, List.replicate_succ]
  rw [exec, execWriteUnprotect, callAt, hits, runItems_send_ok (s := s.beginCall .writeUnprotect) hok,
    runItems_acks_error (s := (s.beginCall .writeUnprotect).sent (.cmd s.params.opcWriteUnprotect)) k rfl he hrx,
    settle_fail]
  simp [State.sent, State.beginCall, State.doubtAll, State.withDev, hok, encode, Frame.cksum, CallSite.failStep,
    Line.failStep]

/-- Settles O60: WRITE_UNPROTECT after any number of its acknowledgements, and the second phase of the others. -/
theorem refusedLaterAckRaises : Obligations.RefusedLaterAckRaises := by
  unfold Obligations.RefusedLaterAckRaises
  intro s a q hok he
  refine ⟨fun k hs hk hrx => exec_writeUnprotect_refused he hs hk hrx, fun c f harg hb hs hrx => ?_⟩
  obtain ⟨op, rest, hits, henc⟩ := callItems_argPhase harg
  have hc : ∀ h, c ≠ .sync h := by rintro h rfl; cases harg
  rw [henc]
  exact exec_command_refusedAck [.cmd op] f hc hb hits hs he hrx

end Sys2Proof.Machine
end

section
/-! O19, O20, O21, O22, O58: GET_VERSION and GET_ID against a whole reply, and the places where a reply can fail (R143,
R146, R150). -/

namespace Sys2Proof.Machine
open Sys2Proof.Safety

/-! ## A whole reply -/

/-- Where the item `it` awaits the count byte of a reply, the byte `b` announces `n` payload bytes (R146, R150). -/
def Announces (it : Item) (b : Byte) (n : Nat) : Prop :=
  ∀ (rest : List Item) (s : State) (q : List RxAnswer), s.rx = .byte b :: q →
    runItems (it :: rest) s = runItems rest ((s.received (.byte b)).withRemain n)

theorem announces_count (b : Byte) : Announces .count b (b.toNat + 1) := fun _ _ _ => runItems_count

theorem announces_countOne : Announces .countOne 1 2 := fun _ _ _ => runItems_countOne

/-- A query command against a whole reply: its writes are what is left of the call. -/
theorem callAt_reply {c : CallSite} {op : Byte} {it : Item} {b : Byte} {bs : List Byte} {rest : List Item} {s : State}
    {q : List RxAnswer} (hs : sendsOk 1 s) (hb : Announces it b bs.length) (hne : bs ≠ [])
    (hrx : s.rx = (replyBytes s.params b bs).map .byte ++ q) :
    callAt c (.send (.cmd op) :: .ack :: it :: .data :: .ack :: rest) s = settle (runItems rest { s with
      line := .call c, phase := [], payload := bs, remain := 0, call := .acked, sendAns := s.sendAns.tail, rx := q
      trace := s.trace ++ .tx [op, ~~~op] .ok :: (replyBytes s.params b bs).map fun b => Event.rx (.byte b) }) := by
  have hok : nextAnswer s.sendAns = .ok := nextAnswer_of_sendsOk hs
  rw [callAt, runItems_send_ok (s := s.beginCall c) hok,
    runItems_reply (s := (s.beginCall c).sent (.cmd op)) (hb _ _ _) hne rfl hrx]
  simp [State.sent, State.beginCall, hok, Frame.bytes, Frame.cksum, encodeSingleByteCommand, cmpl_eq_not]

theorem exec_getVersion (s : State) : exec .getVersion s = .next (callAt .getVersion
    [.send (.cmd s.params.opcGetVersion), .ack, .count, .data, .ack, .setVersion, .idle] s) := rfl

theorem exec_getId (s : State) : exec .getId s = .next (callAt .getId
    [.send (.cmd s.params.opcGetId), .ack, .countOne, .data, .ack, .setId, .idle] s) := rfl

/-- Settles O19: the reply is taken whole, and the version written from its first byte. -/
theorem getVersionReadsTheVersion : Obligations.GetVersionReadsTheVersion := by
  unfold Obligations.GetVersionReadsTheVersion
  intro s n p0 ps q hs hlen hrx
  have hcount : Announces .count n (p0 :: ps).length := by
    rw [List.length_cons, hlen]
    exact announces_count n
  have hreply : s.rx = (replyBytes s.params n (p0 :: ps)).map .byte ++ q := by simp [hrx, replyBytes, ackAns]
  rw [exec_getVersion, callAt_reply hs hcount (List.cons_ne_nil p0 ps) hreply, runItems_cons_done rfl,
    settle_runItems_idle]
  simp [State.withVersion, majorOf, minorOf, replyBytes, gotAck, ackAns, Line.after, CallSite.after]

/-- Settles O20: the reply is taken whole, and the identifier written from its two bytes. -/
theorem getIdReadsTheChip : Obligations.GetIdReadsTheChip := by
  unfold Obligations.GetIdReadsTheChip
  intro s hi lo q hs hrx
  have hreply : s.rx = (replyBytes s.params 1 [hi, lo]).map .byte ++ q := by simp [hrx, replyBytes, ackAns]
  refine ⟨chipIdOf hi lo, chipIdOf_toNat hi lo, ?_⟩
  rw [exec_getId, callAt_reply hs announces_countOne (List.cons_ne_nil hi [lo]) hreply, runItems_cons_done rfl,
    settle_runItems_idle]
  simp [State.withId, replyBytes, gotAck, ackAns, Line.after, CallSite.after]

/-- Settles O21: the call ends at the count byte. -/
theorem getIdRefusesAnotherCount : Obligations.GetIdRefusesAnotherCount := by
  unfold Obligations.GetIdRefusesAnotherCount
  intro s n q hs hn hrx
  have hok : nextAnswer s.sendAns = .ok := nextAnswer_of_sendsOk hs
  rw [exec_getId, callAt, runItems_send_ok (s := s.beginCall .getId) hok, runItems_ack (q := .byte n :: q),
    runItems_countOne_other (q := q) hn, settle_fail]
  · simp [State.sent, State.beginCall, State.received, State.setCall, State.doubtAll, State.withDev, Frame.cksum, hok,
      hrx, sentOk, gotAck, ackAns, CallSite.failStep, Line.failStep]
  · simp [hrx]
  · simp [hrx, ackAns]

/-! ## A reply that fails -/

/-- How RX can fail a reply whose count byte the item `it` awaits: with the error `e`, and `q` left in RX. -/
inductive FailsReply (p : Params) (it : Item) (q : List RxAnswer) : List RxAnswer → ErrCode → Prop
  | atCount (a : RxAnswer) (error : dataError a ≠ .none) : FailsReply p it q (ackAns p :: a :: q) (dataError a)
  | inPayload (a : RxAnswer) (b : Byte) (bs : List Byte) {n : Nat} (announced : Announces it b n)
      (short : bs.length < n) (error : dataError a ≠ .none) :
      FailsReply p it q (ackAns p :: .byte b :: bs.map .byte ++ a :: q) (dataError a)
  | atEnd (a : RxAnswer) (b : Byte) (bs : List Byte) (announced : Announces it b bs.length) (nonempty : bs ≠ [])
      (error : ackError p a ≠ .none) :
      FailsReply p it q (ackAns p :: .byte b :: bs.map .byte ++ a :: q) (ackError p a)

/-- A count byte that does not come ends the call (R143). -/
theorem runItems_count_error {it : Item} {rest : List Item} {s : State} {a : RxAnswer} {q : List RxAnswer}
    (hit : it = .count ∨ it = .countOne) (he : dataError a ≠ .none) (hrx : s.rx = a :: q) :
    runItems (it :: rest) s = .fail (dataError a) ((s.received a).setCall (ackCall s.params a)) := by
  obtain rfl | rfl := hit
  · exact runItems_cons_fail (recvData_error he hrx _)
  · exact runItems_cons_fail (recvData_error he hrx _)

/-- A payload that stops short ends the call (R143). -/
theorem runItems_data_error {rest : List Item} {s : State} {bs : List Byte} {a : RxAnswer} {q : List RxAnswer}
    (he : dataError a ≠ .none) (hshort : bs.length < s.remain) (hrx : s.rx = bs.map .byte ++ a :: q) :
    ∃ u, runItems (.data :: rest) s = .fail (dataError a) u ∧ u.rx = q := by
  obtain ⟨u, hu, hq⟩ := recvMany_error he bs s.remain s hshort hrx
  exact ⟨u, runItems_cons_fail hu, hq⟩

/-- A failing reply ends the call where it fails (R143, R142). -/
theorem runItems_failsReply {it : Item} {rest : List Item} {s : State} {l q : List RxAnswer} {e : ErrCode}
    (hit : it = .count ∨ it = .countOne) (hl : s.line.isSync = false) (hf : FailsReply s.params it q l e)
    (hrx : s.rx = l) :
    ∃ u, runItems (.ack :: it :: .data :: .ack :: rest) s = .fail e u ∧ u.rx = q := by
  cases hf with
  | atCount a error =>
    rw [runItems_ack hrx, runItems_count_error (q := q) hit error]
    · exact ⟨_, rfl, by simp [hrx]⟩
    · simp [hrx]
  | inPayload a b bs announced short error =>
    rw [runItems_ack hrx, announced (q := bs.map .byte ++ a :: q)]
    · exact runItems_data_error error short (by simp [hrx])
    · simp [hrx]
  | atEnd a b bs announced nonempty error =>
    rw [runItems_ack hrx, announced (q := bs.map .byte ++ a :: q),
      runItems_data (q := a :: q) nonempty rfl, runItems_ack_error (a := a) (q := q)]
    · simp [hrx]
    · simpa using hl
    · simpa using error
    all_goals simp [hrx]

/-- A query command whose reply fails raises at its own step, and the identity and SEQ keep what they had (R194). -/
theorem callAt_failsReply {c : CallSite} {op : Byte} {it : Item} {rest : List Item} {s : State} {l q : List RxAnswer}
    {e : ErrCode} (hc : ∀ h, c ≠ .sync h) (hit : it = .count ∨ it = .countOne)
    (hits : callItems c s = .send (.cmd op) :: .ack :: it :: .data :: .ack :: rest) (hs : sendsOk 1 s)
    (hf : FailsReply s.params it q l e) (hrx : s.rx = l) :
    ∃ u, callAt c (callItems c s) s = raise e c.failStep u ∧ SameIdentity s u ∧ u.seq = s.seq ∧ u.rx = q := by
  obtain ⟨u, hfail, hq⟩ := runItems_failsReply (rest := rest) (s := (s.beginCall c).sent (.cmd op)) hit
    (isSync_call hc) hf hrx
  have hrun : runItems (callItems c s) (s.beginCall c) = .fail e u := by
    rw [hits, runItems_send_ok (s := s.beginCall c) (nextAnswer_of_sendsOk hs), hfail]
  have hframe : CallFrame (s.beginCall c) u := by
    simpa [hrun, Run.state] using runItems_frame (callItems c s) (s.beginCall c)
  have hsame : SameDevice (s.beginCall c) u := by
    simpa [hrun, Run.state] using runItems_same (callItems_writesLast c s) (s := s.beginCall c) (by simp [hrun])
  have hid := hsame.identity
  refine ⟨u.doubtAll, ?_, ⟨hid.blMajor, hid.blMinor, hid.verValid, hid.chipId, hid.idValid⟩, hframe.seq, hq⟩
  rw [callAt, hrun, settle_fail, hframe.line]
  rfl

/-- GET_VERSION's reply fails (R146). -/
theorem getVersion_failsReply {s : State} {l q : List RxAnswer} {e : ErrCode} (hs : sendsOk 1 s)
    (hf : FailsReply s.params .count q l e) (hrx : s.rx = l) :
    ∃ u, exec .getVersion s = .next (raise e .getVersion u)
      ∧ u.verValid = s.verValid ∧ u.blMajor = s.blMajor ∧ u.blMinor = s.blMinor ∧ u.seq = s.seq ∧ u.rx = q := by
  obtain ⟨u, hu, hid, hseq, hq⟩ :=
    callAt_failsReply (c := .getVersion) (fun _ => CallSite.noConfusion) (.inl rfl) rfl hs hf hrx
  exact ⟨u, congrArg _ hu, hid.verValid, hid.blMajor, hid.blMinor, hseq, hq⟩

/-- GET_ID's reply fails (R150). -/
theorem getId_failsReply {s : State} {l q : List RxAnswer} {e : ErrCode} (hs : sendsOk 1 s)
    (hf : FailsReply s.params .countOne q l e) (hrx : s.rx = l) :
    ∃ u, exec .getId s = .next (raise e .getId u)
      ∧ u.idValid = s.idValid ∧ u.chipId = s.chipId ∧ u.seq = s.seq ∧ u.rx = q := by
  obtain ⟨u, hu, hid, hseq, hq⟩ :=
    callAt_failsReply (c := .getId) (fun _ => CallSite.noConfusion) (.inr rfl) rfl hs hf hrx
  exact ⟨u, congrArg _ hu, hid.idValid, hid.chipId, hseq, hq⟩

/-- Settles O22: the three places where the reply can fail. -/
theorem getVersionFailsInItsReply : Obligations.GetVersionFailsInItsReply := by
  unfold Obligations.GetVersionFailsInItsReply
  intro s n ps a q hs
  refine ⟨fun he => getVersion_failsReply hs (.atCount a he),
    fun he hshort => getVersion_failsReply hs (.inPayload a n ps (announces_count n) hshort he),
    fun he hlen => getVersion_failsReply hs (.atEnd a n ps ?_ ?_ he)⟩
  · rw [hlen]
    exact announces_count n
  · exact List.ne_nil_of_length_eq_add_one hlen

/-- Settles O58: the three places where the reply can fail. -/
theorem getIdFailsInItsReply : Obligations.GetIdFailsInItsReply := by
  unfold Obligations.GetIdFailsInItsReply
  intro s a q hs failsWith
  exact ⟨fun he => getId_failsReply hs (.atCount a he),
    fun ps he hshort => getId_failsReply hs (.inPayload a 1 ps announces_countOne hshort he),
    fun hi lo he => getId_failsReply hs (.atEnd a 1 [hi, lo] announces_countOne (List.cons_ne_nil _ _) he)⟩

end Sys2Proof.Machine
end

section
/-! O23, O24, O25, O26, O27, O28, O31: the commands that change the DEVICE, acknowledged at every phase, and a
WRITE_MEMORY that is refused late or never sent (R162, R165, R168, R172, R176). -/

namespace Sys2Proof.Machine
open Sys2Proof.Safety

/-! ## A block stored in DEV -/

/-- The address of byte `i + 1` of a block, counted from its second byte (R64). -/
theorem addr_succ (a : Addr) (i : Nat) : a + 1 + BitVec.ofNat 32 i = a + BitVec.ofNat 32 (i + 1) := by
  rw [BitVec.ofNat_add, BitVec.add_assoc, BitVec.add_comm (BitVec.ofNat 32 i)]
  rfl

/-- A block that goes at most once around the address space does not come back to its first byte. -/
theorem addr_add_ne {a : Addr} {i : Nat} (h0 : 0 < i) (h : i < 2 ^ 32) :
    a.toNat ≠ (a + BitVec.ofNat 32 i).toNat := by
  rw [BitVec.toNat_add, BitVec.toNat_ofNat]
  have := a.isLt
  omega

theorem Memory.read_writeBlock_other (a : Addr) (ds : List Byte) (m : Memory) {x : Nat}
    (h : ∀ i < ds.length, x ≠ (a + BitVec.ofNat 32 i).toNat) :
    Memory.read x (Memory.writeBlock a ds m) = Memory.read x m := by
  induction ds generalizing a m with
  | nil => rfl
  | cons d ds ih =>
    rw [Memory.writeBlock, ih, Memory.read_write_other]
    · simpa using h 0 (Nat.zero_lt_succ _)
    · intro i hi
      rw [addr_succ]
      exact h (i + 1) (Nat.succ_lt_succ hi)

/-- Byte `i` of a block is read back at `a +_32 i` (R64). -/
theorem Memory.read_writeBlock (a : Addr) (ds : List Byte) (m : Memory) (hlen : ds.length ≤ 2 ^ 32) {i : Nat}
    (h : i < ds.length) : Memory.read (a + BitVec.ofNat 32 i).toNat (Memory.writeBlock a ds m) = some ds[i] := by
  induction ds generalizing a m i with
  | nil => exact absurd h (Nat.not_lt_zero i)
  | cons d ds ih =>
    rw [List.length_cons] at hlen h
    cases i with
    | zero =>
      rw [BitVec.add_zero, Memory.writeBlock, Memory.read_writeBlock_other, Memory.read_write_same]
      · rfl
      · intro i hi
        rw [addr_succ]
        exact addr_add_ne (Nat.zero_lt_succ i) (by omega)
    | succ i =>
      rw [← addr_succ]
      exact ih (a + 1) _ (by omega) (by omega)

/-! ## A command whose phases all complete -/

/-- The phases of the frames `fs` complete in a call that then goes on with `its` (R141). -/
theorem callAt_phases {c : CallSite} {s : State} {its : List Item} {q : List RxAnswer} (fs : List Frame)
    (hs : sendsOk fs.length s) (hrx : s.rx = List.replicate fs.length (ackAns s.params) ++ q) :
    ∃ k, callAt c (fs.flatMap phaseItems ++ its) s = settle (runItems its { s with
      line := .call c, phase := [], payload := [], remain := 0, call := k, cksum := cksumAfter s.cksum fs
      sendAns := s.sendAns.drop fs.length, rx := q, trace := s.trace ++ fs.flatMap (phaseEvents s.params) }) := by
  obtain ⟨k, hk⟩ := runItems_phases (its := its) (s := s.beginCall c) fs hs hrx
  exact ⟨k, congrArg settle hk⟩

/-- A call of nothing but phases returns when they are complete, and the session goes on after its line (R190). -/
theorem callAt_completes {c : CallSite} {s : State} {q : List RxAnswer} (fs : List Frame)
    (hs : sendsOk fs.length s) (hrx : s.rx = List.replicate fs.length (ackAns s.params) ++ q) :
    callAt c (fs.flatMap phaseItems ++ [.idle]) s = { s with
      line := .ctl c.after, phase := [], payload := [], remain := 0, call := .idle, cksum := cksumAfter s.cksum fs
      sendAns := s.sendAns.drop fs.length, rx := q, trace := s.trace ++ fs.flatMap (phaseEvents s.params) } := by
  obtain ⟨k, hk⟩ := callAt_phases (c := c) (its := [.idle]) fs hs hrx
  rw [hk, settle_runItems_idle]
  rfl

theorem phaseEvents_cmd (p : Params) (op : Byte) : phaseEvents p (.cmd op) = [.tx [op, ~~~op] .ok, gotAck p] := by
  rw [← cmpl_eq_not]
  rfl

theorem phaseEvents_argc (p : Params) (arg : Byte) :
    phaseEvents p (.argc arg) = [.tx [arg, ~~~arg] .ok, gotAck p] :=
  phaseEvents_cmd p arg

/-- Settles O24: the phases of the opcode and of the argument complete. -/
theorem eraseCompletes : Obligations.EraseCompletes := by
  unfold Obligations.EraseCompletes
  intro s q hs hrx
  have hcall := callAt_completes (c := .erase) (s := s.doubtAll) [.cmd s.params.opcErase, .argc s.params.eraseArg] hs hrx
  simp only [List.flatMap_cons, phaseEvents_cmd, phaseEvents_argc] at hcall
  exact congrArg Host.Outcome.next hcall

/-- Settles O25: the phases of the opcode and of the argument complete. -/
theorem extEraseCompletes : Obligations.ExtEraseCompletes := by
  unfold Obligations.ExtEraseCompletes
  intro s q hs hrx
  have hcall := callAt_completes (c := .extErase) (s := s.doubtAll)
    [.cmd s.params.opcExtErase, .argx s.params.extEraseArg] hs hrx
  simp only [List.flatMap_cons, phaseEvents_cmd] at hcall
  exact congrArg Host.Outcome.next hcall

/-- Settles O28: the phases of the opcode and of the address complete. -/
theorem goCompletes : Obligations.GoCompletes := by
  unfold Obligations.GoCompletes
  intro s a q hs hrx
  refine ⟨?_, ?_⟩
  · have hcall := callAt_completes (c := .go) [.cmd s.params.opcGo, .addr a] hs hrx
    simp only [List.flatMap_cons, phaseEvents_cmd] at hcall
    exact congrArg Host.Outcome.next hcall
  · rintro rfl
    rfl

/-- Settles O23: the frame is sent, and every acknowledgement it awaits comes. -/
theorem writeUnprotectCompletes : Obligations.WriteUnprotectCompletes := by
  unfold Obligations.WriteUnprotectCompletes
  intro s q _ hs hrx
  have hok : nextAnswer s.sendAns = .ok := nextAnswer_of_sendsOk hs
  obtain ⟨k, hk⟩ := runItems_acks s.params.wupAcks (rest := [.idle])
    (s := (s.beginCall .writeUnprotect).sent (.cmd s.params.opcWriteUnprotect)) hrx
  rw [exec, execWriteUnprotect, callAt, writeUnprotectItems, List.cons_append,
    runItems_send_ok (s := s.beginCall .writeUnprotect) hok, hk, settle_runItems_idle]
  simp [State.sent, State.beginCall, hok, Frame.bytes, Frame.cksum, encodeSingleByteCommand, cmpl_eq_not, Line.after,
    CallSite.after]

/-! ## WRITE_MEMORY -/

theorem blockOk_iff {p : Params} {ds : List Byte} :
    blockOk p ds = true ↔ 1 ≤ ds.length ∧ ds.length ≤ p.maxChunk ∧ ds.length ≤ 256 := by
  simp [blockOk, and_assoc]

/-- WRITE_MEMORY acknowledged three times ends with its store: `MemWrite` and `CALL <- Idle` (R172). -/
theorem callWriteMemory_stores {s : State} {a : Addr} {ds : List Byte} {q : List RxAnswer} (hs : sendsOk 3 s)
    (hb : blockOk s.params ds = true)
    (hrx : s.rx = ackAns s.params :: ackAns s.params :: ackAns s.params :: q) :
    callWriteMemory a ds s = .next { s with
      line := .ctl .advance, phase := [], payload := [], remain := 0, call := .idle
      dev := Memory.writeBlock a ds (Memory.forget a ds.length s.dev)
      cksum := xorsum (dataPayload ds), sendAns := s.sendAns.drop 3, rx := q
      trace := s.trace ++ [.tx [s.params.opcWriteMemory, ~~~s.params.opcWriteMemory] .ok, gotAck s.params,
        .tx (encodeAddr a) .ok, gotAck s.params, .tx (encodeData ds) .ok, gotAck s.params] } := by
  obtain ⟨k, hk⟩ := callAt_phases (c := .write) (s := s.doubtBlock a ds.length) (its := [.memWrite a ds, .idle])
    [.cmd s.params.opcWriteMemory, .addr a, .data ds] hs hrx
  rw [runItems_cons_done rfl, settle_runItems_idle] at hk
  simp only [List.flatMap_cons, phaseEvents_cmd] at hk
  exact (if_pos hb).trans (congrArg Host.Outcome.next hk)

/-- Settles O26: the three phases complete, and the block is stored over what was known of its bytes. -/
theorem writeMemoryCompletes : Obligations.WriteMemoryCompletes := by
  unfold Obligations.WriteMemoryCompletes
  intro s a ds q hs hne hmax h256 hrx
  have hb : blockOk s.params ds = true := blockOk_iff.2 ⟨hne, hmax, h256⟩
  refine ⟨⟨_, callWriteMemory_stores hs hb hrx, fun i hi => ?_, fun x hx => ?_⟩, ?_⟩
  · exact Memory.read_writeBlock a ds _ (by omega) hi
  · rw [Memory.read_writeBlock_other a ds _ hx, Memory.read_forget_other a _ _ hx]
  · rintro rfl rfl
    rfl

/-- Settles O27: the block does not fit its data frame. -/
theorem writeMemoryStopsOnABadBlock : Obligations.WriteMemoryStopsOnABadBlock := by
  unfold Obligations.WriteMemoryStopsOnABadBlock
  intro s hbad
  have hb : ¬ blockOk s.params s.chunk = true := by
    intro hok
    obtain ⟨hne, hmax, h256⟩ := blockOk_iff.1 hok
    obtain hnil | hlong | hlong := hbad
    · simp [hnil] at hne
    · omega
    · omega
  exact if_neg hb

/-- Settles O31: one or two phases complete, and the acknowledgement after them is refused. -/
theorem refusedWriteLeavesTheBlock : Obligations.RefusedWriteLeavesTheBlock := by
  unfold Obligations.RefusedWriteLeavesTheBlock
  intro s a q hs hb he
  have hc : ∀ h, CallSite.write ≠ .sync h := fun _ => CallSite.noConfusion
  refine ⟨fun hrx => ?_, fun hrx => ?_⟩
  · obtain ⟨hs2, -⟩ := sendsOk_add (m := 2) (n := 1) hs
    exact ⟨_, exec_command_refusedAck [.cmd s.params.opcWriteMemory] (.addr s.curAddr) hc (fun _ => hb) rfl hs2 he hrx,
      rfl, rfl, rfl, rfl, rfl, newEvents_of_append rfl⟩
  · exact ⟨_, exec_command_refusedAck [.cmd s.params.opcWriteMemory, .addr s.curAddr] (.data s.chunk) hc (fun _ => hb)
      rfl hs he hrx, rfl, rfl, rfl, rfl, rfl, newEvents_of_append rfl⟩

end Sys2Proof.Machine
end

section
/-! O8, O16, O40, O41, O42: a step at a line of the session, and a step that runs a row of the opcode table (R190). -/

namespace Sys2Proof.Machine
open Sys2Proof.Safety

/-! ## A row of the opcode table -/

/-- Where the outside makes no move, a step between calls is the command that the line calls. -/
theorem step_call {s : State} {c : CallSite} (hok : s.params.ok = true) (hr : s.run = true) (hm : s.moves = [])
    (hp : s.phase = []) (hl : s.line = .call c) : step s = exec c.instr s := by
  simp [step, hok, hm, runSequencer, hr, fetch_call hp hl]

theorem fetchPhase_frame {s : State} {f : Frame} {i : Instr} (rest : List Item) (hi : f.instr = some i) :
    fetchPhase s (.send f :: .ack :: rest) = some (i, rest, s.rx) := by
  simp [fetchPhase, hi]

/-- Settles O16: the row is the command of the line, or the argument frame. -/
theorem stepRunsTheSelectedInstruction : Obligations.StepRunsTheSelectedInstruction := by
  unfold Obligations.StepRunsTheSelectedInstruction
  intro s hok hr hm
  refine ⟨fun c hp hl => step_call hok hr hm hp hl, fun f i rest hp hi => ?_⟩
  exact step_fetchPhase (q := s.rx) hok hr hm (by simp [hp]) (hp ▸ fetchPhase_frame rest hi)

/-! ## The checks, the branches and the end -/

/-- Settles O8: the line closes the link and then halts. -/
theorem finishHaltsWithDone : Obligations.FinishHaltsWithDone := by
  unfold Obligations.FinishHaltsWithDone
  intro s hok hr hm hp hl
  rw [step_ctl hok hr hm hp hl, runCtl, runFinish]
  simp [closeLink, State.emit]

/-- Settles O40: the two sides of `MIN_VERSION`. -/
theorem versionCheckAcceptsFromTheMinimum : Obligations.VersionCheckAcceptsFromTheMinimum := by
  unfold Obligations.VersionCheckAcceptsFromTheMinimum
  intro s hok hr hm hp hl hv
  rw [step_ctl hok hr hm hp hl, runCtl, runVersionCheck, if_pos hv]
  exact ⟨fun hle => if_neg (Nat.not_lt.2 hle), fun hlt => if_pos hlt⟩

/-- Settles O41: the two answers of the membership. -/
theorem chipCheckIsMembership : Obligations.ChipCheckIsMembership := by
  unfold Obligations.ChipCheckIsMembership
  intro s hok hr hm hp hl hv
  rw [step_ctl hok hr hm hp hl, runCtl, runChipCheck, if_pos hv]
  exact ⟨fun hin => if_pos (chipSupported_iff.2 hin), fun hout => if_neg fun hsup => hout (chipSupported_iff.1 hsup)⟩

/-- Settles O42: line by line. -/
theorem branchesOfTheSession : Obligations.BranchesOfTheSession := by
  unfold Obligations.BranchesOfTheSession
  intro s hok hr hm hp
  have hstep : ∀ {c : Ctl}, s.line = .ctl c → step s = runCtl c s := fun hl => step_ctl hok hr hm hp hl
  refine ⟨fun hl => hstep hl, fun hl => hstep hl, fun hl => hstep hl, fun hl hv => ?_, fun hl => hstep hl,
    fun hl h0 => ?_, fun hl h0 => ?_, fun hl => hstep hl, fun hl => hstep hl⟩
  · rw [hstep hl, runCtl, runEraseSelect, if_pos hv, eraseSite]
    split <;> rfl
  · rw [hstep hl, runCtl, runProgramStart, if_pos h0]
    rfl
  · rw [hstep hl, runCtl, runProgramStart, if_neg h0]
    rfl

end Sys2Proof.Machine
end

section
/-! O44: the advance, and where the threshold loop stops (R210, R212). -/

namespace Sys2Proof.Machine
open Sys2Proof.Safety

/-- The loop reports its thresholds one step apart from `next` on, none above 100 or above the percentage, and goes on
from the next one (R212). -/
theorem thresholds_report (step pct : Nat) : ∀ fuel next : Nat,
    (∀ j (hj : j < (thresholds step pct fuel next).1.length), (thresholds step pct fuel next).1[j] = next + j * step)
      ∧ (∀ k ∈ (thresholds step pct fuel next).1, k ≤ 100 ∧ k ≤ pct)
      ∧ (thresholds step pct fuel next).2 = next + (thresholds step pct fuel next).1.length * step
  | 0, next => by simp [thresholds]
  | fuel + 1, next => by
    by_cases h : next ≤ 100 ∧ next ≤ pct
    · obtain ⟨hget, hmem, hnext⟩ := thresholds_report step pct fuel (next + step)
      rw [thresholds_succ_reached h]
      refine ⟨fun j hj => ?_, fun k hk => ?_, ?_⟩
      · cases j with
        | zero => simp
        | succ j =>
          have := hget j (Nat.lt_of_succ_lt_succ hj)
          simp only [List.getElem_cons_succ, this, Nat.succ_mul]
          omega
      · obtain rfl | hk := List.mem_cons.1 hk
        · exact h
        · exact hmem k hk
      · simp only [hnext, List.length_cons, Nat.succ_mul]
        omega
    · rw [thresholds_succ_stop h]
      simp

/-- The loop has turns enough to end at a threshold not reached, or past 100 (R212). -/
theorem thresholds_stops {step : Nat} (pct : Nat) (hs : 1 ≤ step) : ∀ fuel next : Nat, 101 ≤ next + fuel →
    (thresholds step pct fuel next).2 ≤ 100 → pct < (thresholds step pct fuel next).2
  | 0, next, hfuel => fun h => absurd h (by simp only [thresholds]; omega)
  | fuel + 1, next, hfuel => by
    by_cases h : next ≤ 100 ∧ next ≤ pct
    · rw [thresholds_succ_reached h]
      exact thresholds_stops pct hs fuel (next + step) (by omega)
    · rw [thresholds_succ_stop h]
      intro hle
      dsimp only at hle ⊢
      omega

theorem addr_ne_zero {a : Addr} (h : 0 < a.toNat) : a ≠ 0 := by
  rintro rfl
  exact absurd h (Nat.lt_irrefl 0)

/-- A count within the declared size is at most all of it (R212). -/
theorem percentage_le {b t : Addr} (h : b.toNat ≤ t.toNat) : percentage b t ≤ 100 :=
  Nat.div_le_of_le_mul (Nat.mul_le_mul_right _ h)

/-- Settles O44: the counts go on by the block, and the threshold loop reports what they have reached. -/
theorem advanceCountsAndReports : Obligations.AdvanceCountsAndReports := by
  unfold Obligations.AdvanceCountsAndReports
  intro s hok hr hm hp hl hpos hsum
  have hsize : s.totalBytes ≠ 0 := addr_ne_zero (by omega)
  have hcount := advanced_bytesWritten_toNat ⟨hpos, hsum⟩
  obtain ⟨-, -, -, -, hstep, -⟩ := Params.ok_iff.1 hok
  have hpct : percentage s.advanced.bytesWritten s.totalBytes ≤ 100 := percentage_le (by omega)
  obtain ⟨hget, hmem, hnext⟩ := thresholds_report s.params.pctStep
    (percentage s.advanced.bytesWritten s.totalBytes) thresholdFuel s.nextPct
  have hstop := thresholds_stops (percentage s.advanced.bytesWritten s.totalBytes) hstep thresholdFuel s.nextPct
    (Nat.le_add_left _ _)
  refine ⟨_, _, (step_ctl hok hr hm hp hl).trans (if_neg hsize), rfl, hcount, hpct, hget, hmem, hnext, hstop⟩

end Sys2Proof.Machine
end

section
/-! O56: the bound on the steps left falls with every answered step (R219 e, R287). The rank of the line falls wherever
the session goes on, and inside a call that waits again, what is left of the call. -/

namespace Sys2Proof.Machine
open Sys2Proof.Safety

/-! ## The bound between two steps of the session -/

theorem workLeft_halted {s : State} (h : s.run = false) : workLeft s = 0 := by
  simp [workLeft, h]

theorem rank_lt_workLeft {s : State} (h : s.run = true) : lineRank s * callBound s.params < workLeft s := by
  rw [workLeft, if_pos h]
  omega

theorem workLeft_le_rank {s : State} (h : s.phase = []) : workLeft s ≤ (lineRank s + 1) * callBound s.params := by
  have hbound : 1000 ≤ callBound s.params := Nat.le_add_right _ _
  simp only [workLeft, h, if_true, Nat.add_mul, Nat.one_mul]
  split
  · split <;> omega
  · omega

/-- The step halts, or the session goes on at a line of a lower rank, between two calls. -/
def HaltsOrFalls (s t : State) : Prop := t.run = false ∨ t.phase = [] ∧ lineRank t < lineRank s

theorem workLeft_lt_of_falls {s t : State} (hr : s.run = true) (hpar : t.params = s.params) (h : HaltsOrFalls s t) :
    workLeft t < workLeft s := by
  have hs := rank_lt_workLeft hr
  obtain hhalt | ⟨hphase, hrank⟩ := h
  · rw [workLeft_halted hhalt]
    omega
  · calc workLeft t ≤ (lineRank t + 1) * callBound t.params := workLeft_le_rank hphase
      _ ≤ lineRank s * callBound s.params := by rw [hpar]; exact Nat.mul_le_mul_right _ hrank
      _ < workLeft s := hs

/-! ## The lines that call nothing -/

theorem runRetry_falls {h : Handshake} {s : State} (hp : s.phase = []) (hl : s.line = .ctl (.retry h))
    (hn : s.syncFails < s.params.maxSyncAttempts) : HaltsOrFalls s (runRetry h s) := by
  unfold runRetry
  dsimp only
  split
  · exact .inl (raise_run _ _ _)
  · refine .inr ⟨hp, ?_⟩
    cases h <;> simp [lineRank, hl, handshakeRank, firstRank, againRank, attemptsLeft] <;> omega

/-- A source read that has its answer goes on to WRITE_MEMORY, ends the loop or raises (R207, R208). -/
theorem runRead_falls {s : State} (hp : s.phase = []) (hl : s.line = .ctl .read) (hsrc : s.src ≠ []) :
    HaltsOrFalls s (runRead s) := by
  unfold runRead
  split
  · contradiction
  · unfold takeChunk
    split
    · exact .inr ⟨hp, by simp [lineRank, hl]; omega⟩
    · split
      · exact .inl (raise_run _ _ _)
      · exact .inr ⟨hp, by simp [lineRank, hl, bytesLeft]⟩

/-- A block that the contract admits is at least one byte less to write (R208, R210). -/
theorem runAdvance_falls {s : State} (hp : s.phase = []) (hl : s.line = .ctl .advance) (hb : blockReady s) :
    HaltsOrFalls s (s.advanced.reported.goto (.ctl .read)) := by
  have hcount := advanced_bytesWritten_toNat hb
  obtain ⟨hpos, hsum⟩ := hb
  have hleft : bytesLeft (s.advanced.reported.goto (.ctl .read)) =
      s.totalBytes.toNat - s.advanced.bytesWritten.toNat := rfl
  have hless : bytesLeft (s.advanced.reported.goto (.ctl .read)) + 1 ≤ bytesLeft s := by
    rw [hleft, bytesLeft]
    omega
  refine .inr ⟨hp, ?_⟩
  simp only [lineRank, hl, State.goto_line]
  omega

theorem runCtl_falls {c : Ctl} {s t : State} (hp : s.phase = []) (hl : s.line = .ctl c) (hi : ctlInv c s)
    (hsrc : c = .read → s.src ≠ []) (h : runCtl c s = .next t) : HaltsOrFalls s t := by
  cases c with
  | openLink =>
    cases h
    unfold runOpen
    split
    · exact .inr ⟨hp, by simp [lineRank, hl, handshakeRank, firstRank, againRank]⟩
    · exact .inl (raise_run _ _ _)
  | connectStart hs =>
    cases h
    refine .inr ⟨hp, ?_⟩
    cases hs <;> simp [runConnectStart, lineRank, hl, handshakeRank, firstRank, againRank, attemptsLeft]
  | retry hs =>
    obtain ⟨-, hn⟩ := hi
    cases h
    exact runRetry_falls hp hl hn
  | connected hs =>
    cases h
    refine .inr ⟨hp, ?_⟩
    cases hs <;> simp [runConnected, lineRank, hl, handshakeRank, firstRank, againRank, Handshake.next]
  | versionCheck =>
    obtain ⟨hv, -⟩ := hi
    rw [runCtl, runVersionCheck, if_pos hv] at h
    split at h <;> cases h
    · exact .inl (raise_run _ _ _)
    · exact .inr ⟨hp, by simp [lineRank, hl, againRank]⟩
  | chipCheck =>
    obtain ⟨-, hv, -⟩ := hi
    rw [runCtl, runChipCheck, if_pos hv] at h
    split at h <;> cases h
    · exact .inr ⟨hp, by simp [lineRank, hl, againRank]⟩
    · exact .inl (raise_run _ _ _)
  | read => cases h; exact runRead_falls hp hl (hsrc rfl)
  | advance =>
    obtain ⟨-, hb⟩ := hi
    obtain ⟨-, rfl⟩ := runAdvance_next h
    exact runAdvance_falls hp hl hb
  | finish => cases h; exact .inl rfl
  | skipCheck =>
    cases h
    refine .inr ⟨hp, ?_⟩
    cases hskip : s.cfgSkipProg <;> simp [runSkipCheck, hskip, lineRank, hl, againRank]
  | resyncCheck =>
    cases h
    refine .inr ⟨hp, ?_⟩
    cases hres : s.params.wupResync <;> simp [runResyncCheck, hres, lineRank, hl, againRank, handshakeRank]
    omega
  | unprotected => cases h; exact .inr ⟨hp, by simp [runUnprotected, lineRank, hl]⟩
  | eraseSelect =>
    obtain ⟨hm, -⟩ := hi
    rw [runCtl, runEraseSelect, if_pos (mayChange_verValid hm)] at h
    cases h
    refine .inr ⟨hp, ?_⟩
    unfold eraseSite
    split <;> simp [lineRank, hl]
  | erased => cases h; exact .inr ⟨hp, by simp [runErased, lineRank, hl]⟩
  | programStart =>
    cases h
    unfold runProgramStart
    split
    · exact .inr ⟨hp, by simp [lineRank, hl]⟩
    · exact .inr ⟨hp, by simp [lineRank, hl, bytesLeft]; omega⟩
  | goCheck =>
    cases h
    refine .inr ⟨hp, ?_⟩
    cases hgo : s.cfgSendGo <;> simp [runGoCheck, hgo, lineRank, hl]
  | executing => cases h; exact .inr ⟨hp, by simp [runExecuting, lineRank, hl]⟩

/-! ## The calls -/

/-- What the bound counts for the call that a line makes. -/
def callWork (s : State) : Nat := if s.phase = [] then callBound s.params - 1 else phaseWork s.remain s.phase

theorem workLeft_call {s : State} {c : CallSite} (hr : s.run = true) (hl : s.line = .call c) :
    workLeft s = 1 + lineRank s * callBound s.params + callWork s := by
  simp [workLeft, hr, hl, callWork]

theorem phaseWork_acks (n k : Nat) : phaseWork n (List.replicate k .ack ++ [.idle]) = k + 1 := by
  induction k with
  | zero => rfl
  | succ k ih =>
    rw [List.replicate_succ, List.cons_append, phaseWork_cons, ih, itemWork]
    omega

/-- The whole phase list of a call costs less than the bound of a call. -/
theorem phaseWork_callItems_lt (c : CallSite) (s : State) :
    phaseWork 0 (callItems c s) < callBound s.params - 1 := by
  cases c with
  | writeUnprotect =>
    rw [callItems, writeUnprotectItems, List.cons_append, phaseWork_cons, phaseWork_acks, itemWork, callBound]
    omega
  | _ =>
    simp [callItems, syncItems, getVersionItems, verReplyItems, getIdItems, idReplyItems, eraseItems, eraseArgItems,
      extEraseItems, extEraseArgItems, writeMemoryItems, addrItems, dataItems, goItems, itemWork, callBound]
    omega

theorem lineRank_frame {s t : State} (h : CallFrame s t) : lineRank t = lineRank s := by
  simp only [lineRank, handshakeRank, firstRank, againRank, attemptsLeft, bytesLeft, h.line, h.params, h.totalBytes,
    h.bytesWritten, h.syncFails]

/-- The line after a call ranks below it. -/
theorem lineRank_after {c : CallSite} {s : State} (hl : s.line = .call c) :
    lineRank (s.endCall.goto s.line.after) < lineRank s := by
  rw [hl]
  cases c with
  | sync h => cases h <;> simp [lineRank, hl, Line.after, CallSite.after, handshakeRank, firstRank, againRank]
  | write => simp [lineRank, hl, Line.after, CallSite.after, bytesLeft]
  | getVersion | getId | writeUnprotect | erase | extErase | go =>
    simp [lineRank, hl, Line.after, CallSite.after, againRank]

/-- A failed synchronisation attempt is counted at a line that ranks below it. -/
theorem lineRank_retried {h : Handshake} {s : State} (hl : s.line = .call (.sync h)) :
    lineRank (s.endCall.goto s.line.retried) < lineRank s := by
  cases h <;> simp [lineRank, hl, Line.retried, handshakeRank, firstRank, againRank, attemptsLeft]

/-- A call that leaves its line brings the bound down by the rank, and one that waits by what is left of it. -/
theorem workLeft_settle_lt {c : CallSite} {its : List Item} {s u : State} (hr : s.run = true) (hl : s.line = .call c)
    (hu : CallFrame s u) (hwait : ∀ v, runItems its u = .wait v → phaseWork v.remain v.phase < callWork s) :
    workLeft (settle (runItems its u)) < workLeft s := by
  have hframe := hu.trans (runItems_frame its u)
  have hline := hframe.line.trans hl
  have hpar : (settle (runItems its u)).params = s.params :=
    (settle_continues (runItems its u)).params.trans hframe.params
  cases h : runItems its u with
  | done v =>
    rw [h] at hframe hline hpar
    exact workLeft_lt_of_falls hr hpar (.inr ⟨rfl, lineRank_frame hframe ▸ lineRank_after hline⟩)
  | fail e v =>
    rw [h] at hpar
    exact workLeft_lt_of_falls hr hpar (.inl (raise_run _ _ _))
  | retry v =>
    have hsync := runItems_retry h
    rw [h] at hframe hline hpar
    rw [hu.line, hl] at hsync
    cases c with
    | sync hs => exact workLeft_lt_of_falls hr hpar (.inr ⟨rfl, lineRank_frame hframe ▸ lineRank_retried hline⟩)
    | _ => cases hsync
  | wait v =>
    have hless := hwait v h
    obtain ⟨-, hphase, -⟩ := runItems_wait h
    rw [h] at hframe hline
    have hv : workLeft v = 1 + lineRank v * callBound v.params + callWork v :=
      workLeft_call (hframe.run.trans hr) hline
    have hrank : lineRank v = lineRank s := lineRank_frame hframe
    have hpar : v.params = s.params := hframe.params
    rw [settle, hv, hrank, hpar, workLeft_call hr hl, callWork, if_neg hphase]
    omega

theorem callFrame_beginCall {c : CallSite} {s : State} (hl : s.line = .call c) :
    CallFrame s ((doubting c s).beginCall c) := by
  constructor <;> simp [hl]

/-- A call that begins and waits has its phase list left at most. -/
theorem workLeft_callAt_lt {c : CallSite} {s : State} (hr : s.run = true) (hp : s.phase = []) (hl : s.line = .call c) :
    workLeft (callAt c (callItems c s) (doubting c s)) < workLeft s := by
  refine workLeft_settle_lt hr hl (callFrame_beginCall hl) fun v hv => ?_
  calc phaseWork v.remain v.phase ≤ phaseWork 0 (callItems c s) := (runItems_work (callItems_replyOk c s) hv).1
    _ < callBound s.params - 1 := phaseWork_callItems_lt c s
    _ = callWork s := (if_pos hp).symm

/-- A call that goes on with an answer and waits again has less left of it. -/
theorem workLeft_resumeWith_lt {s : State} (h : SessionInv s) (hr : s.run = true) (hp : s.phase ≠ [])
    (hrx : s.rx ≠ []) : workLeft (resumeWith [] s) < workLeft s := by
  obtain ⟨c, hl, hsuf, -, -⟩ := sessionInv_phase_suffix h hr hp
  refine workLeft_settle_lt (its := s.phase) hr hl (u := s.withPhase []) (by constructor <;> simp) fun v hv => ?_
  rw [callWork, if_neg hp]
  exact (runItems_work (replyOk_suffix hsuf (callItems_replyOk c s)) hv).2 hrx

/-- Settles O56: a line that calls nothing falls in rank, and so does a call that ends; a call that waits again has less
left of it. -/
theorem everyAnsweredStepMakesProgress : Obligations.EveryAnsweredStepMakesProgress := by
  unfold Obligations.EveryAnsweredStepMakesProgress
  intro s t h hr hm ⟨hrx, hsrc⟩ ht
  have hseq : runSequencer s = .next t := by
    rw [← ht, step, if_pos h.params, hm]
  obtain ⟨hhalt, -⟩ | ⟨-, hp, c, hl, hc⟩ | ⟨-, hp, c, hl, rfl, -⟩ | ⟨-, hp, rfl⟩ := runSequencer_cases hseq
  · rw [hr] at hhalt
    cases hhalt
  · have hread : c = .read → s.src ≠ [] := fun hc => hsrc (hc ▸ hl)
    exact workLeft_lt_of_falls hr (runCtl_continues hc).params
      (runCtl_falls hp hl (ctlInv_of_line h hr hl) hread hc)
  · exact workLeft_callAt_lt hr hp hl
  · exact workLeft_resumeWith_lt h hr hp (hrx hp)

end Sys2Proof.Machine
end

section
/-! O51: SEQ never goes back (R219 a). Each line that writes it finds the SEQ that its invariant gives. -/

namespace Sys2Proof.Machine
open Sys2Proof.Safety

theorem Seq.code_le_max (a b : Seq) : a.code ≤ (a.max b).code := by
  unfold Seq.max
  split
  · assumption
  · exact Nat.le_refl _

theorem Seq.code_le_executing (q : Seq) : q.code ≤ Seq.executing.code := by
  cases q <;> decide

theorem runRead_seq_le {s : State} (hq : s.seq = .erased) : s.seq.code ≤ (runRead s).seq.code := by
  unfold runRead
  split
  · exact Nat.le_refl _
  · unfold takeChunk
    split
    · simp [hq, Seq.code]
    · split <;> simp

/-- A line that calls nothing writes no earlier SEQ than the one it finds. -/
theorem runCtl_seq_le {c : Ctl} {s t : State} (hi : ctlInv c s) (h : runCtl c s = .next t) :
    s.seq.code ≤ t.seq.code := by
  cases c with
  | openLink =>
    cases h
    unfold runOpen
    split <;> simp
  | retry hs =>
    cases h
    unfold runRetry
    dsimp only
    split <;> simp
  | connected hs => cases h; exact Seq.code_le_max _ _
  | versionCheck =>
    obtain ⟨hv, hq⟩ := hi
    rw [runCtl, runVersionCheck, if_pos hv] at h
    split at h <;> cases h <;> simp [hq, Seq.code]
  | chipCheck =>
    obtain ⟨-, hv, hq⟩ := hi
    rw [runCtl, runChipCheck, if_pos hv] at h
    split at h <;> cases h <;> simp [hq, Seq.code]
  | unprotected => cases h; simp [runUnprotected, hi.2, Seq.code]
  | eraseSelect =>
    rw [runCtl, runEraseSelect, if_pos (mayChange_verValid hi.1)] at h
    cases h
    exact Nat.le_refl _
  | erased => cases h; simp [runErased, hi.2, Seq.code]
  | programStart =>
    cases h
    unfold runProgramStart
    split <;> simp [hi.2, Seq.code]
  | read =>
    obtain ⟨-, hq, -⟩ := hi
    cases h
    exact runRead_seq_le hq
  | advance =>
    obtain ⟨-, rfl⟩ := runAdvance_next h
    exact Nat.le_refl _
  | executing => cases h; exact Seq.code_le_executing _
  | connectStart | skipCheck | resyncCheck | goCheck | finish => cases h; exact Nat.le_refl _

theorem settle_runItems_seq (its : List Item) (s : State) : (settle (runItems its s)).seq = s.seq := by
  rw [← (runItems_frame its s).seq]
  cases runItems its s with
  | fail e v => exact raise_seq _ _ _
  | done v | retry v | wait v => rfl

theorem runSequencer_seq_le {s t : State} (h : SessionInv s) (ht : runSequencer s = .next t) :
    s.seq.code ≤ t.seq.code := by
  obtain ⟨-, rfl⟩ | ⟨hr, -, c, hl, hc⟩ | ⟨-, -, c, -, rfl, -⟩ | ⟨-, -, rfl⟩ := runSequencer_cases ht
  · exact Nat.le_refl _
  · exact runCtl_seq_le (ctlInv_of_line h hr hl) hc
  · rw [callAt, settle_runItems_seq, State.beginCall_seq, doubting_seq]
  · rw [resumeWith, settle_runItems_seq, State.withPhase_seq]

/-- Settles O51: the sequencer does not take SEQ back, and no move of the outside but `reset` writes it. -/
theorem seqNeverDecreases : Obligations.SeqNeverDecreases := by
  unfold Obligations.SeqNeverDecreases
  intro s t h hreset ht
  obtain ⟨-, ⟨ms, hseq, -⟩ | ⟨m, ms, hms, hm, hmove⟩⟩ := step_cases ht
  · exact runSequencer_seq_le (s := s.withMoves ms) (sessionInv_withMoves h ms) hseq
  · obtain ⟨rfl, -⟩ | ⟨-, -, -, rfl⟩ | ⟨-, heq⟩ := runMove_cases hm hmove
    · exact absurd hms (hreset ms)
    · exact Nat.le_refl _
    · rw [heq]
      exact Nat.le_refl _

end Sys2Proof.Machine
end

section
/-! O54: what an abort keeps (R194, R236, R237). Whatever aborts, a line or a call, has touched none of it before it
raises. -/

namespace Sys2Proof.Machine
open Sys2Proof.Safety

/-- An event of the end of a run. -/
def Event.isEnding : Event → Bool
  | .close => true
  | .haltDone => true
  | .haltErr _ _ => true
  | _ => false

/-- What of `s` is as it was in the state `u` in which a step raises: the session's registers, identity and buffer, no
byte of DEV become known, and the run not ended yet. -/
structure AbortKept (s u : State) : Prop where
  seq : u.seq = s.seq
  identity : SameIdentity s u
  bytesWritten : u.bytesWritten = s.bytesWritten
  curAddr : u.curAddr = s.curAddr
  nextPct : u.nextPct = s.nextPct
  chunkBuf : u.chunkBuf = s.chunkBuf
  chunkLen : u.chunkLen = s.chunkLen
  linkOpen : u.linkOpen = s.linkOpen
  dev : ∀ x, Memory.read x u.dev = none ∨ Memory.read x u.dev = Memory.read x s.dev
  events : AddsEvents (fun e => e.isEnding = false) s u

/-- The step raises, and what comes before it keeps the session. -/
def Aborts (s t : State) : Prop := ∃ (code : ErrCode) (f : FailStep) (u : State), t = raise code f u ∧ AbortKept s u

/-! ## The lines that call nothing -/

/-- Before it raises a line has counted a failed attempt or taken an answer, at most. -/
theorem AbortKept.of_line {s u : State}
    (h : u = { s with syncFails := u.syncFails, openAns := u.openAns, src := u.src, trace := u.trace })
    (he : AddsEvents (fun e => e.isEnding = false) s u) : AbortKept s u where
  seq := by rw [h]
  identity := by constructor <;> rw [h]
  bytesWritten := by rw [h]
  curAddr := by rw [h]
  nextPct := by rw [h]
  chunkBuf := by rw [h]
  chunkLen := by rw [h]
  linkOpen := by rw [h]
  dev := fun x => .inr (by rw [h])
  events := he

theorem runRead_err (s : State) : (runRead s).err = s.err ∨ Aborts s (runRead s) := by
  unfold runRead
  split
  · exact .inl rfl
  · unfold takeChunk
    split
    · exact .inl rfl
    · split
      · exact .inr ⟨_, _, _, rfl, .of_line rfl (.one rfl rfl)⟩
      · exact .inl rfl

/-- A line that calls nothing leaves ERR alone or aborts. -/
theorem runCtl_err {c : Ctl} {s t : State} (h : runCtl c s = .next t) : t.err = s.err ∨ Aborts s t := by
  cases c with
  | openLink =>
    cases h
    unfold runOpen
    split
    · exact .inl rfl
    · exact .inr ⟨_, _, _, rfl, .of_line rfl (.one rfl rfl)⟩
  | retry hs =>
    cases h
    unfold runRetry
    dsimp only
    split
    · exact .inr ⟨_, _, _, rfl, .of_line rfl (.none rfl)⟩
    · exact .inl rfl
  | versionCheck =>
    simp only [runCtl, runVersionCheck] at h
    split at h
    · split at h <;> cases h
      · exact .inr ⟨_, _, _, rfl, .of_line rfl (.none rfl)⟩
      · exact .inl rfl
    · cases h
  | chipCheck =>
    simp only [runCtl, runChipCheck] at h
    split at h
    · split at h <;> cases h
      · exact .inl rfl
      · exact .inr ⟨_, _, _, rfl, .of_line rfl (.none rfl)⟩
    · cases h
  | eraseSelect =>
    simp only [runCtl, runEraseSelect] at h
    split at h <;> cases h
    exact .inl rfl
  | programStart =>
    cases h
    unfold runProgramStart
    split <;> exact .inl rfl
  | read => cases h; exact runRead_err s
  | advance =>
    obtain ⟨-, rfl⟩ := runAdvance_next h
    exact .inl rfl
  | connectStart | connected | skipCheck | resyncCheck | unprotected | erased | goCheck | executing | finish =>
    cases h; exact .inl rfl

/-! ## The calls -/

theorem isEnding_of_callEvent {p : Params} {its : List Item} {e : Event} (h : CallEvent p its e) :
    e.isEnding = false := by
  obtain ⟨a, rfl⟩ | ⟨f, a, -, rfl⟩ := h <;> rfl

/-- A call leaves ERR alone or aborts, with nothing known of DEV (U1): it fails before it has written anything. -/
theorem settle_runItems_err {its : List Item} {s u : State} (hf : CallFrame s u) (hid : SameIdentity s u)
    (ht : u.trace = s.trace) (hw : writesLast its) :
    (settle (runItems its u)).err = s.err ∨ Aborts s (settle (runItems its u)) := by
  have hframe := hf.trans (runItems_frame its u)
  cases h : runItems its u with
  | done v | retry v | wait v =>
    rw [h] at hframe
    exact .inl hframe.err
  | fail e v =>
    have hsame := (runItems_same hw (s := u) (by simp [h])).identity
    have hevents := runItems_trace its u
    rw [h] at hframe hsame hevents
    refine .inr ⟨e, _, v.doubtAll, rfl, ?_⟩
    exact
      { seq := hframe.seq
        identity :=
          { blMajor := hsame.blMajor.trans hid.blMajor
            blMinor := hsame.blMinor.trans hid.blMinor
            verValid := hsame.verValid.trans hid.verValid
            chipId := hsame.chipId.trans hid.chipId
            idValid := hsame.idValid.trans hid.idValid }
        bytesWritten := hframe.bytesWritten
        curAddr := hframe.curAddr
        nextPct := hframe.nextPct
        chunkBuf := hframe.chunkBuf
        chunkLen := hframe.chunkLen
        linkOpen := hframe.linkOpen
        dev := fun x => .inl rfl
        events := by
          obtain ⟨ev, htrace, hcall⟩ := hevents
          exact ⟨ev, ht ▸ htrace, fun e he => isEnding_of_callEvent (hcall e he)⟩ }

/-! ## One step -/

theorem runSequencer_err {s t : State} (h : SessionInv s) (ht : runSequencer s = .next t) :
    t.err = s.err ∨ Aborts s t := by
  obtain ⟨-, rfl⟩ | ⟨-, -, c, -, hc⟩ | ⟨-, -, c, hl, rfl, -⟩ | ⟨hr, hp, rfl⟩ := runSequencer_cases ht
  · exact .inl rfl
  · exact runCtl_err hc
  · exact settle_runItems_err (callFrame_beginCall hl) (by constructor <;> simp) (by simp) (callItems_writesLast c s)
  · obtain ⟨c, hl, hsuf, -, -⟩ := sessionInv_phase_suffix h hr hp
    exact settle_runItems_err (u := s.withPhase []) (its := s.phase) (by constructor <;> simp) (by constructor <;> rfl)
      rfl (writesLast_suffix hsuf (callItems_writesLast c s))

/-- No move of the outside sets ERR. -/
theorem runMove_err {m : Move} {s t : State} (hm : m ≠ .pass) (hs : s.err = false) (h : runMove m s = .next t) :
    t.err = false := by
  obtain ⟨-, -, rfl⟩ | ⟨-, -, -, rfl⟩ | ⟨-, heq⟩ := runMove_cases hm h
  · rfl
  · exact hs
  · rw [heq]
    exact hs

theorem AbortKept.of_withMoves {s u : State} {ms : List Move} (h : AbortKept (s.withMoves ms) u) : AbortKept s u :=
  { h with identity := { h.identity with } }

theorem step_aborts {s t : State} (h : SessionInv s) (ht : step s = .next t) (hs : s.err = false) (he : t.err = true) :
    Aborts s t := by
  obtain ⟨-, ⟨ms, hseq, -⟩ | ⟨m, ms, -, hm, hmove⟩⟩ := step_cases ht
  · obtain hsame | ⟨code, f, u, rfl, hkept⟩ := runSequencer_err (sessionInv_withMoves h ms) hseq
    · cases he.symm.trans (hsame.trans hs)
    · exact ⟨code, f, u, rfl, hkept.of_withMoves⟩
  · cases he.symm.trans (runMove_err (s := s.withMoves ms) hm hs hmove)

/-- Settles O54: the session is kept up to the abort, and the abort adds its last events alone. -/
theorem abortKeepsTheSession : Obligations.AbortKeepsTheSession := by
  unfold Obligations.AbortKeepsTheSession
  intro s t h ht hs he
  obtain ⟨code, f, u, rfl, hkept⟩ := step_aborts h ht hs he
  obtain ⟨ev, htrace, hquiet⟩ := hkept.events
  have hends : ∀ e, e.isEnding = true → e ∉ ev := fun e hend hmem => by
    rw [hquiet e hmem] at hend
    cases hend
  simp only [raise_seq, raise_blMajor, raise_blMinor, raise_verValid, raise_chipId, raise_idValid, raise_bytesWritten,
    raise_curAddr, raise_nextPct, raise_chunkBuf, raise_chunkLen, raise_dev, raise_errCode, raise_failStep]
  refine ⟨hkept.seq, hkept.identity.blMajor, hkept.identity.blMinor, hkept.identity.verValid, hkept.identity.chipId,
    hkept.identity.idValid, hkept.bytesWritten, hkept.curAddr, hkept.nextPct, hkept.chunkBuf, hkept.chunkLen, hkept.dev,
    raise_run _ _ _, raise_linkOpen _ _ _, ev, newEvents_of_append ?_, hends _ rfl, hends _ rfl, fun c f => hends _ rfl⟩
  simp [htrace, hkept.linkOpen]

end Sys2Proof.Machine
end

section
/-! O38: CONNECT against a run of failed attempts (R192). -/

namespace Sys2Proof.Machine
open Sys2Proof.Safety

/-! ## A run, step by step -/

theorem coreRun_step (M : Host.Core) {s t : M.State} {k : Nat} (h : M.step s = .next t) :
    M.run (k + 1) s = M.run k t := by
  rw [Host.Core.run, h]

/-- A run goes on from where its first step leads. -/
theorem runs_step {s t : State} {k : Nat} (h : step s = .next t) : runs (k + 1) s = runs k t :=
  coreRun_step core h

/-! ## One attempt -/

/-- CONNECT stands before an attempt, with a link that accepts every frame. -/
structure Connecting (h : Handshake) (s : State) : Prop where
  ok : s.params.ok = true
  run : s.run = true
  moves : s.moves = []
  line : s.line = .call (.sync h)
  phase : s.phase = []
  sendAns : s.sendAns = []

/-- What a synchronisation attempt leaves (R144): the line `l`, the answers `q`, and the events of the attempt. -/
def State.attempted (s : State) (l : Line) (c : Call) (a : RxAnswer) (q : List RxAnswer) : State :=
  { s with
    line := l, phase := [], payload := [], remain := 0, call := c, rx := q
    trace := s.trace ++ [sentOk s.params .sync, .rx a] }

/-- An attempt that is acknowledged connects (R144). -/
theorem Connecting.step_ack {h : Handshake} {s : State} {q : List RxAnswer} (hs : Connecting h s)
    (hrx : s.rx = ackAns s.params :: q) :
    ∃ c, step s = .next (s.attempted (.ctl (.connected h)) c (ackAns s.params) q) := by
  have hsync := (syncAttempt s).2 (ackAns s.params) q (by rw [hs.sendAns]; rfl) hrx
  refine ⟨.acked, (step_call hs.ok hs.run hs.moves hs.phase hs.line).trans (hsync.trans ?_)⟩
  simp [ackAns, State.attempted, hs.line, Line.handshake, hs.sendAns, nextAnswer, sentOk, Frame.bytes]

/-- An attempt that fails is counted (R144, R192). -/
theorem Connecting.step_fail {h : Handshake} {s : State} {a : RxAnswer} {q : List RxAnswer} (hs : Connecting h s)
    (ha : failsSync s.params a = true) (hrx : s.rx = a :: q) :
    ∃ c, step s = .next (s.attempted (.ctl (.retry h)) c a q) := by
  have hsync := (syncAttempt s).2 a q (by rw [hs.sendAns]; rfl) hrx
  have hstep := (step_call hs.ok hs.run hs.moves hs.phase hs.line).trans hsync
  cases a with
  | byte b =>
    have hb : b ≠ s.params.ackByte := by simpa [failsSync] using ha
    refine ⟨.awaitingAck, hstep.trans ?_⟩
    simp [hb, State.attempted, hs.line, Line.handshake, hs.sendAns, nextAnswer, sentOk, Frame.bytes]
  | timeout =>
    refine ⟨.timedOut, hstep.trans ?_⟩
    simp [State.attempted, hs.line, Line.handshake, hs.sendAns, nextAnswer, sentOk, Frame.bytes]
  | err => cases ha

theorem step_attempted {s : State} {c : Ctl} {k : Call} {a : RxAnswer} {q : List RxAnswer} (hok : s.params.ok = true)
    (hr : s.run = true) (hm : s.moves = []) :
    step (s.attempted (.ctl c) k a q) = runCtl c (s.attempted (.ctl c) k a q) :=
  step_ctl hok hr hm rfl rfl

/-! ## The attempts before the last -/

/-- CONNECT stands in `u` before an attempt, after the failed attempts `fails` from `s` on, with the answers `q` to
come. -/
structure Tried (h : Handshake) (fails q : List RxAnswer) (s u : State) : Prop extends Connecting h u where
  params : u.params = s.params
  seq : u.seq = s.seq
  linkOpen : u.linkOpen = s.linkOpen
  rx : u.rx = q
  syncFails : u.syncFails = s.syncFails + fails.length
  trace : u.trace = s.trace ++ fails.flatMap (failedAttempt s.params)

/-- A failed attempt that is not the last is waited after, and CONNECT stands before the next one (R192). -/
theorem Connecting.runs_failedAttempt {h : Handshake} {s : State} {a : RxAnswer} {q : List RxAnswer}
    (hs : Connecting h s) (ha : failsSync s.params a = true) (hrx : s.rx = a :: q)
    (hn : s.syncFails + 1 < s.params.maxSyncAttempts) :
    ∃ u, (∀ k, runs (k + 2) s = runs k u) ∧ Tried h [a] q s u := by
  obtain ⟨c, hfail⟩ := hs.step_fail ha hrx
  have hretry := (step_attempted (c := .retry h) (k := c) (a := a) (q := q) hs.ok hs.run hs.moves).trans
    (congrArg Host.Outcome.next (if_neg (Nat.ne_of_lt hn)))
  refine ⟨_, fun k => (runs_step hfail).trans (runs_step hretry), ?_⟩
  exact
    { ok := hs.ok
      run := hs.run
      moves := hs.moves
      line := rfl
      phase := rfl
      sendAns := hs.sendAns
      params := rfl
      seq := rfl
      linkOpen := rfl
      rx := rfl
      syncFails := rfl
      trace := by simp [State.attempted, failedAttempt] }

/-- Failed attempts that leave one more are counted, and CONNECT stands before that one (R192). -/
theorem Connecting.runs_failedAttempts {h : Handshake} {q : List RxAnswer} (fails : List RxAnswer) : ∀ {s : State},
    Connecting h s → (∀ a ∈ fails, failsSync s.params a = true) → s.rx = fails ++ q →
      s.syncFails + fails.length < s.params.maxSyncAttempts →
      ∃ u, (∀ k, runs (k + 2 * fails.length) s = runs k u) ∧ Tried h fails q s u := by
  induction fails with
  | nil =>
    intro s hs _ hrx _
    exact ⟨s, fun _ => rfl,
      { hs with params := rfl, seq := rfl, linkOpen := rfl, rx := hrx, syncFails := rfl, trace := by simp }⟩
  | cons a fails ih =>
    intro s hs hfails hrx hn
    obtain ⟨ha, hfails⟩ := List.forall_mem_cons.1 hfails
    rw [List.length_cons] at hn
    obtain ⟨v, hv, hsv⟩ := hs.runs_failedAttempt ha hrx (by omega)
    have hcount : v.syncFails = s.syncFails + 1 := hsv.syncFails
    obtain ⟨u, hu, hvu⟩ := ih hsv.toConnecting (hsv.params ▸ hfails) hsv.rx (by rw [hcount, hsv.params]; omega)
    refine ⟨u, fun k => (hv _).trans (hu k), ?_⟩
    exact
      { hvu.toConnecting with
        params := hvu.params.trans hsv.params
        seq := hvu.seq.trans hsv.seq
        linkOpen := hvu.linkOpen.trans hsv.linkOpen
        rx := hvu.rx
        syncFails := by rw [hvu.syncFails, hcount, List.length_cons]; omega
        trace := by rw [hvu.trace, hsv.trace, hsv.params]; simp }

/-! ## The last attempt -/

/-- The attempt that is acknowledged ends CONNECT (R192). -/
theorem Connecting.runs_connects {h : Handshake} {s : State} {q : List RxAnswer} (hs : Connecting h s)
    (hrx : s.rx = ackAns s.params :: q) :
    ∃ t, runs 2 s = .next t ∧ t.line = h.next ∧ t.seq = s.seq.max .connected ∧ t.syncFails = s.syncFails ∧ t.rx = q
      ∧ t.run = true ∧ t.trace = s.trace ++ [sentOk s.params .sync, gotAck s.params] := by
  obtain ⟨c, hack⟩ := hs.step_ack hrx
  have hconnected := step_attempted (c := .connected h) (k := c) (a := ackAns s.params) (q := q) hs.ok hs.run hs.moves
  exact ⟨_, (runs_step hack).trans (runs_step hconnected), rfl, rfl, rfl, rfl, hs.run, rfl⟩

/-- The last attempt allowed, failed too, raises with no wait after it (R192). -/
theorem Connecting.runs_givesUp {h : Handshake} {s : State} {a : RxAnswer} {q : List RxAnswer}
    (hs : Connecting h s) (ha : failsSync s.params a = true) (hrx : s.rx = a :: q)
    (hn : s.syncFails + 1 = s.params.maxSyncAttempts) :
    ∃ u, runs 2 s = .next (raise .handshakeTimeout h.failStep u) ∧ u.syncFails = s.params.maxSyncAttempts
      ∧ u.seq = s.seq ∧ u.rx = q ∧ u.linkOpen = s.linkOpen
      ∧ u.trace = s.trace ++ [sentOk s.params .sync, .rx a] := by
  obtain ⟨c, hfail⟩ := hs.step_fail ha hrx
  have hretry := (step_attempted (c := .retry h) (k := c) (a := a) (q := q) hs.ok hs.run hs.moves).trans
    (congrArg Host.Outcome.next (if_pos hn))
  exact ⟨_, (runs_step hfail).trans (runs_step hretry), hn, rfl, rfl, rfl, rfl⟩

/-! ## CONNECT -/

/-- CONNECT begins with no attempt counted, and stands before the next one after any number of failed attempts that
leaves one more (R192). -/
theorem runs_connect {s : State} {h : Handshake} {fails q : List RxAnswer}
    (hstart : step s = .next (runConnectStart h s)) (hconn : Connecting h (runConnectStart h s))
    (hfails : ∀ a ∈ fails, failsSync s.params a = true) (hn : fails.length < s.params.maxSyncAttempts)
    (hrx : s.rx = fails ++ q) :
    ∃ u, (∀ k, runs (k + 2 * fails.length + 1) s = runs k u) ∧ Tried h fails q (runConnectStart h s) u := by
  obtain ⟨u, hu, htried⟩ := hconn.runs_failedAttempts fails hfails hrx (by simpa [runConnectStart] using hn)
  exact ⟨u, fun k => (runs_step hstart).trans (hu k), htried⟩

/-- Settles O38: the failed attempts that leave one more, and then the one that is acknowledged or the last that
fails. -/
theorem connectIsBounded : Obligations.ConnectIsBounded := by
  unfold Obligations.ConnectIsBounded
  intro s h fails q hok hr hm hl hp hsend hfails
  have hstart : step s = .next (runConnectStart h s) := step_ctl hok hr hm hp hl
  have hconn : Connecting h (runConnectStart h s) := ⟨hok, hr, hm, rfl, hp, hsend⟩
  refine ⟨fun hn hrx => ?_, fun hn hrx => ?_⟩
  · obtain ⟨u, hu, htried⟩ := runs_connect hstart hconn hfails hn hrx
    have hpar : u.params = s.params := htried.params
    obtain ⟨t, ht, hline, hseq, hcount, hrest, hrun, htrace⟩ := htried.runs_connects (hpar ▸ htried.rx)
    refine ⟨t, ?_, hline, hseq.trans (by rw [htried.seq]; rfl), hcount.trans ?_, hrest, hrun, htrace.trans ?_⟩
    · rw [← ht, ← hu]
      congr 1
      omega
    · simpa [runConnectStart] using htried.syncFails
    · rw [htried.trace, hpar]
      rfl
  · obtain ⟨-, -, -, hpos, -⟩ := Params.ok_iff.1 hok
    obtain ⟨init, a, rfl⟩ := (List.eq_nil_or_concat' fails).resolve_left (by rintro rfl; simp at hn; omega)
    rw [List.length_append, List.length_singleton] at hn
    rw [List.append_assoc] at hrx
    obtain ⟨u, hu, htried⟩ := runs_connect hstart hconn (fun b hb => hfails b (List.mem_append_left _ hb))
      (by omega) hrx
    have hpar : u.params = s.params := htried.params
    have hcount : u.syncFails = init.length := by simpa [runConnectStart] using htried.syncFails
    obtain ⟨v, hv, hmax, hseq, hrest, hlink, htrace⟩ := htried.runs_givesUp (a := a) (q := q)
      (hpar ▸ hfails a (List.mem_append_right _ (List.mem_singleton_self a))) htried.rx (by rw [hcount, hpar, hn])
    refine ⟨_, Eq.trans ?_ hv, raise_err _ _ _, raise_errCode _ _ _, raise_failStep _ _ _, raise_run _ _ _,
      (raise_syncFails _ _ _).trans (hmax.trans (by rw [hpar])), (raise_seq _ _ _).trans (hseq.trans htried.seq),
      (raise_rx _ _ _).trans hrest, ?_⟩
    · rw [← hu, List.length_append, List.length_singleton]
      congr 1
      omega
    · simp [htrace, hlink, htried.linkOpen, htried.trace, hpar, runConnectStart]

end Sys2Proof.Machine
end

section
/-! O57: the program loop against a DEVICE that acknowledges every block and a source that keeps its duty (R205 to
R212). -/

namespace Sys2Proof.Machine
open Sys2Proof.Safety

/-- The program loop stands before a source read, with a link that accepts every frame and `rest` bytes of the image
still to come. -/
structure AtRead (rest : Nat) (s : State) : Prop where
  ok : s.params.ok = true
  run : s.run = true
  moves : s.moves = []
  line : s.line = .ctl .read
  phase : s.phase = []
  sendAns : s.sendAns = []
  chunkBuf : s.chunkBuf.length = s.params.maxChunk
  addr : s.curAddr = s.params.flashBase + s.bytesWritten
  left : s.bytesWritten.toNat + rest = s.totalBytes.toNat
  fits : s.params.flashBase.toNat + s.totalBytes.toNat ≤ 2 ^ 32

/-- Where the loop will store the byte `k` bytes on from here (R210). -/
def State.writesAt (s : State) (k : Nat) : Nat := s.params.flashBase.toNat + s.bytesWritten.toNat + k

/-- The next bytes of the image lie from CUR_ADDR on, without wrapping. -/
theorem AtRead.addr_toNat {rest : Nat} {s : State} (h : AtRead rest s) {k : Nat} (hk : k < rest) :
    (s.curAddr + BitVec.ofNat 32 k).toNat = s.writesAt k := by
  have hleft := h.left
  have hfits := h.fits
  rw [h.addr, State.writesAt, BitVec.toNat_add, BitVec.toNat_add, BitVec.toNat_ofNat]
  omega

/-! ## One block -/

/-- What the loop makes of the block `b`: it is stored where the loop stood, and the counts go on (R209, R210). -/
structure BlockWritten (b : List Byte) (s u : State) : Prop where
  params : u.params = s.params
  totalBytes : u.totalBytes = s.totalBytes
  bytesWritten : u.bytesWritten.toNat = s.bytesWritten.toNat + b.length
  dev : u.dev = Memory.writeBlock s.curAddr b (Memory.forget s.curAddr b.length s.dev)

/-- A list that the contract admits is stored (R66, R208). -/
theorem takeChunk_stores {s : State} {bs : List Byte} (hne : bs ≠ []) (hmax : bs.length ≤ s.params.maxChunk)
    (hsum : s.bytesWritten.toNat + bs.length ≤ s.totalBytes.toNat) :
    takeChunk bs s = (s.storeChunk bs).goto (.call .write) := by
  have hfits : ¬ s.overrun bs = true := by
    rw [overrun_iff]
    omega
  rw [takeChunk, if_neg hne, if_neg hfits]

/-- The block `b` has been read and stored in the buffer, and WRITE_MEMORY is next (R207, R209). -/
def State.blockRead (s : State) (b : List Byte) : State := ((s.fed b).storeChunk b).goto (.call .write)

/-- The source read of a block (R207). -/
theorem AtRead.step_read {rest : Nat} {s : State} {b : List Byte} {src : List (List Byte)}
    (h : AtRead (b.length + rest) s) (hne : b ≠ []) (hmax : b.length ≤ s.params.maxChunk) (hsrc : s.src = b :: src) :
    step s = .next (s.blockRead b) := by
  have hleft := h.left
  rw [step_ctl h.ok h.run h.moves h.phase h.line, runCtl, runRead, hsrc]
  have hsum : s.bytesWritten.toNat + b.length ≤ s.totalBytes.toNat := by omega
  exact congrArg Host.Outcome.next (takeChunk_stores hne hmax hsum)

/-- What WRITE_MEMORY makes of the block `b` (R172): it is stored at CUR_ADDR, and the session stands at the advance. -/
structure Stored (b : List Byte) (q : List RxAnswer) (s w : State) : Prop where
  params : w.params = s.params
  run : w.run = s.run
  moves : w.moves = s.moves
  line : w.line = .ctl .advance
  phase : w.phase = []
  sendAns : w.sendAns = []
  totalBytes : w.totalBytes = s.totalBytes
  bytesWritten : w.bytesWritten = s.bytesWritten
  curAddr : w.curAddr = s.curAddr
  chunkBuf : w.chunkBuf = s.chunkBuf
  chunkLen : w.chunkLen = s.chunkLen
  rx : w.rx = q
  src : w.src = s.src
  dev : w.dev = Memory.writeBlock s.curAddr b (Memory.forget s.curAddr b.length s.dev)

/-- The WRITE_MEMORY of the block, acknowledged three times (R209). -/
theorem AtRead.step_write {rest : Nat} {s : State} {b : List Byte} {q : List RxAnswer} (h : AtRead rest s)
    (hne : b ≠ []) (hmax : b.length ≤ s.params.maxChunk)
    (hrx : s.rx = ackAns s.params :: ackAns s.params :: ackAns s.params :: q) :
    ∃ w, step (s.blockRead b) = .next w ∧ Stored b q (s.blockRead b) w := by
  obtain ⟨-, -, h256, -⟩ := Params.ok_iff.1 h.ok
  have hb : blockOk s.params b = true := blockOk_iff.2 ⟨List.length_pos_iff.2 hne, hmax, hmax.trans h256⟩
  have hs : sendsOk 3 (s.blockRead b) := by simp [sendsOk, State.blockRead, h.sendAns]
  have hexec : step (s.blockRead b) = callWriteMemory s.curAddr b (s.blockRead b) := by
    rw [step_call (s := s.blockRead b) (c := .write) h.ok h.run h.moves h.phase rfl]
    exact congrArg (callWriteMemory s.curAddr · (s.blockRead b)) (chunk_storeChunk (s.fed b) b)
  refine ⟨_, hexec.trans (callWriteMemory_stores hs hb hrx), ?_⟩
  constructor
  case sendAns => exact (congrArg (List.drop 3) h.sendAns).trans List.drop_nil
  all_goals rfl

/-- The advance after the block (R210). -/
theorem AtRead.step_advance {rest : Nat} {s w : State} {b : List Byte} {q : List RxAnswer} (h : AtRead rest s)
    (hw : Stored b q (s.blockRead b) w) (hsize : s.totalBytes ≠ 0) :
    step w = .next (w.advanced.reported.goto (.ctl .read)) := by
  have hpar : w.params = s.params := hw.params
  have htotal : w.totalBytes = s.totalBytes := hw.totalBytes
  exact (step_ctl (hpar ▸ h.ok) (hw.run.trans h.run) (hw.moves.trans h.moves) hw.phase hw.line).trans
    (if_neg (htotal ▸ hsize))

/-- The advanced counts stand before the next source read. -/
theorem AtRead.advanced {rest : Nat} {s w : State} {b : List Byte} {q : List RxAnswer} (h : AtRead (b.length + rest) s)
    (hpos : 1 ≤ b.length) (hmax : b.length ≤ s.params.maxChunk) (hw : Stored b q (s.blockRead b) w) :
    AtRead rest (w.advanced.reported.goto (.ctl .read)) ∧ BlockWritten b s (w.advanced.reported.goto (.ctl .read)) := by
  have hleft := h.left
  have hpar : w.params = s.params := hw.params
  have htotal : w.totalBytes = s.totalBytes := hw.totalBytes
  have hbytes : w.bytesWritten = s.bytesWritten := hw.bytesWritten
  have haddr : w.curAddr = s.curAddr := hw.curAddr
  have hlen : w.chunkLen = b.length := hw.chunkLen
  have hcount : w.advanced.bytesWritten.toNat = s.bytesWritten.toNat + b.length := by
    rw [advanced_bytesWritten_toNat ⟨by omega, by rw [hlen, htotal, hbytes]; omega⟩, hlen, hbytes]
  refine ⟨?_, hpar, htotal, hcount, hw.dev⟩
  exact
    { ok := hpar ▸ h.ok
      run := hw.run.trans h.run
      moves := hw.moves.trans h.moves
      line := rfl
      phase := hw.phase
      sendAns := hw.sendAns
      chunkBuf := by
        have hbuf := h.chunkBuf
        show w.chunkBuf.length = w.params.maxChunk
        rw [hw.chunkBuf, hpar]
        show (b ++ s.chunkBuf.drop b.length).length = s.params.maxChunk
        rw [List.length_append, List.length_drop]
        omega
      addr := by
        show w.curAddr + BitVec.ofNat 32 w.chunkLen = w.params.flashBase + (w.bytesWritten + BitVec.ofNat 32 w.chunkLen)
        rw [haddr, hpar, hbytes, h.addr, BitVec.add_assoc]
      left := by
        show w.advanced.bytesWritten.toNat + rest = w.totalBytes.toNat
        rw [hcount, htotal]
        omega
      fits := by
        show w.params.flashBase.toNat + w.totalBytes.toNat ≤ 2 ^ 32
        rw [hpar, htotal]
        exact h.fits }

/-- The source read, the WRITE_MEMORY and the advance of one block (R207, R209, R210). -/
theorem AtRead.runs_block {rest : Nat} {s : State} {b : List Byte} {src : List (List Byte)} {q : List RxAnswer}
    (h : AtRead (b.length + rest) s) (hne : b ≠ []) (hmax : b.length ≤ s.params.maxChunk) (hsrc : s.src = b :: src)
    (hrx : s.rx = ackAns s.params :: ackAns s.params :: ackAns s.params :: q) :
    ∃ u, (∀ k, runs (k + 3) s = runs k u) ∧ AtRead rest u ∧ BlockWritten b s u ∧ u.src = src ∧ u.rx = q := by
  have hleft := h.left
  have hpos : 1 ≤ b.length := List.length_pos_iff.2 hne
  obtain ⟨w, hwrite, hw⟩ := h.step_write hne hmax hrx
  have hadvance := h.step_advance hw (addr_ne_zero (by omega))
  obtain ⟨hat, hblock⟩ := h.advanced hpos hmax hw
  exact ⟨_, fun k => (runs_step (h.step_read hne hmax hsrc)).trans ((runs_step hwrite).trans (runs_step hadvance)),
    hat, hblock, hw.src.trans (congrArg List.tail hsrc), hw.rx⟩

/-! ## The blocks, one after another -/

/-- What the loop ends with: the bytes `image` stand in DEV from where it stood in `s` on (R219 d), and every byte below
is as it was. -/
structure ImageWritten (image : List Byte) (s t : State) : Prop where
  line : t.line = .ctl .goCheck
  seq : t.seq = .programmed
  bytesWritten : t.bytesWritten = s.totalBytes
  run : t.run = true
  image : ∀ k (h : k < image.length), Memory.read (s.writesAt k) t.dev = some image[k]
  below : ∀ x < s.writesAt 0, Memory.read x t.dev = Memory.read x s.dev

/-- The empty list ends the loop (R207). -/
theorem AtRead.runs_end {s : State} {src : List (List Byte)} (h : AtRead 0 s) (hsrc : s.src = [] :: src) :
    ∃ t, runs 1 s = .next t ∧ ImageWritten [] s t ∧ t.rx = s.rx ∧ t.src = src := by
  have hstep := (sourceReadStoresOrEnds s [] src h.ok h.run h.moves h.phase h.line hsrc).1 rfl
  refine ⟨_, runs_step hstep, ?_, rfl, rfl⟩
  exact
    { line := rfl
      seq := rfl
      bytesWritten := BitVec.eq_of_toNat_eq h.left
      run := h.run
      image := fun k hk => absurd hk (Nat.not_lt_zero k)
      below := fun x _ => rfl }

/-- A block and then the rest of the image stand where the loop stood before the block. -/
theorem ImageWritten.block {rest : Nat} {b image : List Byte} {s u t : State} (hs : AtRead (b.length + rest) s)
    (hb : BlockWritten b s u) (ht : ImageWritten image u t) : ImageWritten (b ++ image) s t := by
  have hleft := hs.left
  have hlen : b.length ≤ 2 ^ 32 := by have := s.totalBytes.isLt; omega
  have hat : ∀ k, u.writesAt k = s.writesAt (b.length + k) := fun k => by
    rw [State.writesAt, State.writesAt, hb.params, hb.bytesWritten]
    omega
  have hbelow : ∀ x < s.writesAt b.length, Memory.read x t.dev =
      Memory.read x (Memory.writeBlock s.curAddr b (Memory.forget s.curAddr b.length s.dev)) := fun x hx => by
    rw [ht.below x (by rw [hat]; exact hx), hb.dev]
  refine ⟨ht.line, ht.seq, ht.bytesWritten.trans hb.totalBytes, ht.run, fun k hk => ?_, fun x hx => ?_⟩
  · by_cases hkb : k < b.length
    · rw [hbelow _ (by simp only [State.writesAt]; omega), List.getElem_append_left hkb,
        ← hs.addr_toNat (by omega)]
      exact Memory.read_writeBlock _ _ _ hlen hkb
    · rw [List.getElem_append_right (by omega), ← ht.image _ (by rw [List.length_append] at hk; omega), hat]
      congr 2
      omega
  · have hother : ∀ i < b.length, x ≠ (s.curAddr + BitVec.ofNat 32 i).toNat := fun i hi => by
      rw [hs.addr_toNat (by omega)]
      simp only [State.writesAt] at hx ⊢
      omega
    rw [hbelow x (by simp only [State.writesAt] at hx ⊢; omega), Memory.read_writeBlock_other _ _ _ hother,
      Memory.read_forget_other _ _ _ hother]

/-- Block by block, for every chunking, and then the empty list. -/
theorem AtRead.runs_blocks {q : List RxAnswer} {src : List (List Byte)} (blocks : List (List Byte)) : ∀ {s : State},
    AtRead blocks.flatten.length s → (∀ b ∈ blocks, b ≠ [] ∧ b.length ≤ s.params.maxChunk) →
      s.src = blocks ++ [] :: src → s.rx = List.replicate (3 * blocks.length) (ackAns s.params) ++ q →
      ∃ t, runs (3 * blocks.length + 1) s = .next t ∧ ImageWritten blocks.flatten s t ∧ t.rx = q ∧ t.src = src := by
  induction blocks with
  | nil =>
    intro s h _ hsrc hrx
    obtain ⟨t, ht, himage, hrest, htsrc⟩ := h.runs_end hsrc
    exact ⟨t, ht, himage, hrest.trans hrx, htsrc⟩
  | cons b blocks ih =>
    intro s h hblocks hsrc hrx
    obtain ⟨⟨hne, hmax⟩, hblocks⟩ := List.forall_mem_cons.1 hblocks
    rw [List.flatten_cons, List.length_append] at h
    have hacks : s.rx = ackAns s.params :: ackAns s.params :: ackAns s.params ::
        (List.replicate (3 * blocks.length) (ackAns s.params) ++ q) := by
      rw [hrx, List.length_cons, Nat.mul_add]
      simp [List.replicate_succ]
    obtain ⟨u, hu, hat, hblock, husrc, hurx⟩ := h.runs_block hne hmax hsrc hacks
    obtain ⟨t, ht, himage, hrest, htsrc⟩ := ih hat (hblock.params ▸ hblocks) husrc (hblock.params ▸ hurx)
    refine ⟨t, ?_, himage.block h hblock, hrest, htsrc⟩
    rw [← ht, ← hu, List.length_cons]
    congr 1

/-- Settles O57: the loop begins at FLASH_BASE, and then block by block. -/
theorem programLoopWritesTheImage : Obligations.ProgramLoopWritesTheImage := by
  unfold Obligations.ProgramLoopWritesTheImage
  intro s blocks q src hok hr hm hp hl hsend hsize hbuf hblocks hlen hfits hsrc hrx
  have hstep : step s = .next (s.rewound.goto (.ctl .read)) :=
    (step_ctl hok hr hm hp hl).trans (congrArg Host.Outcome.next (if_neg hsize))
  have hat : AtRead blocks.flatten.length (s.rewound.goto (.ctl .read)) :=
    ⟨hok, hr, hm, rfl, hp, hsend, hbuf, (BitVec.add_zero _).symm, by simpa using hlen, hfits⟩
  obtain ⟨t, ht, himage, hrest, htsrc⟩ := hat.runs_blocks blocks hblocks hsrc hrx
  exact ⟨t, (runs_step hstep).trans ht, himage.line, himage.seq, himage.bytesWritten, himage.run, hrest, htsrc,
    himage.image⟩

end Sys2Proof.Machine
end

section
/-! O7: nothing but `raise` sets ERR (R236), in any state: the session's invariant is not needed for that. -/

namespace Sys2Proof.Machine
open Sys2Proof.Safety

/-- `t` is the end of an abort that records an error. -/
def Raised (t : State) : Prop := ∃ (code : ErrCode) (f : FailStep) (u : State), t = raise code f u ∧ code ≠ .none

theorem runCtl_raised {c : Ctl} {s t : State} (h : runCtl c s = .next t) : t.err = s.err ∨ Raised t := by
  cases runCtl_end h with
  | goesOn frame => exact .inl frame.err
  | raises f error frame => exact .inr ⟨_, f, _, rfl, error⟩
  | reports => exact .inl rfl
  | finishes => exact .inl rfl

/-- Of the ways a call can stand only a failure sets ERR, and what fails has a code (R140). -/
theorem settle_runItems_raised (its : List Item) (s : State) :
    (settle (runItems its s)).err = s.err ∨ Raised (settle (runItems its s)) := by
  have hframe := (runItems_frame its s).err
  cases h : runItems its s with
  | fail e v => exact .inr ⟨e, _, _, rfl, runItems_fail h⟩
  | done v | retry v | wait v => rw [h] at hframe; exact .inl hframe

theorem runSequencer_raised {s t : State} (h : runSequencer s = .next t) : t.err = s.err ∨ Raised t := by
  obtain ⟨-, rfl⟩ | ⟨-, -, c, -, hc⟩ | ⟨-, -, c, -, rfl, -⟩ | ⟨-, -, rfl⟩ := runSequencer_cases h
  · exact .inl rfl
  · exact runCtl_raised hc
  · rw [← doubting_err c s]
    exact settle_runItems_raised (callItems c s) ((doubting c s).beginCall c)
  · exact settle_runItems_raised s.phase (s.withPhase [])

/-- Settles O7: of the lines, the calls and the moves of the outside, only a line or a call that raises sets ERR. -/
theorem raiseIsTheOnlyAbort : Obligations.RaiseIsTheOnlyAbort := by
  unfold Obligations.RaiseIsTheOnlyAbort
  refine ⟨raise_eq, fun s t ht hs he => ?_⟩
  obtain ⟨-, ⟨ms, hseq, -⟩ | ⟨m, ms, -, hm, hmove⟩⟩ := step_cases ht
  · obtain hsame | hraised := runSequencer_raised hseq
    · cases he.symm.trans (hsame.trans hs)
    · exact hraised
  · cases he.symm.trans (runMove_err (s := s.withMoves ms) hm hs hmove)

end Sys2Proof.Machine
end

section
/-! O1 to O4: what `reset` and `start` do, and when they have no effect or no step (R260 to R264). -/

namespace Sys2Proof.Machine
open Sys2Proof.Safety

/-! ## reset -/

/-- Settles O1: a step with `reset` given is `resetRegs`. It leaves the FRAMER idle, so the configuration registers hold no
value; the flags of the identity registers are down, and no byte of CHUNK_BUF lies below `CHUNK_LEN = 0`. -/
theorem resetGivesEveryRegisterItsValue : Obligations.ResetGivesEveryRegisterItsValue := by
  unfold Obligations.ResetGivesEveryRegisterItsValue
  intro s ms hok hr hms
  have hstep : step s = .next (s.withMoves ms).resetRegs :=
    (step_move hok hms nofun).trans (if_neg (by simp [hr]))
  have hnoValue : ∀ r ∈ [Reg.cfgPort, .cfgBaud, .cfgSkipProg, .cfgSendGo, .totalBytes, .blMajor, .blMinor, .chipId],
      readReg (s.withMoves ms).resetRegs r = .error (.noValue r) := by
    simp only [List.forall_mem_cons]
    exact ⟨rfl, rfl, rfl, rfl, rfl, rfl, rfl, rfl, nofun⟩
  exact ⟨_, hstep, rfl, rfl, rfl, rfl, rfl, rfl, rfl, rfl, rfl, rfl, rfl, rfl, rfl, rfl, rfl, rfl, rfl, hnoValue,
    fun i => readReg_chunkBuf_past (Nat.zero_le i), rfl, rfl, rfl, rfl, rfl, rfl, rfl, rfl⟩

/-- Settles O2: `hostReset` asks for `RUN = 0` first. -/
theorem resetHasNoMoveWhileRunning : Obligations.ResetHasNoMoveWhileRunning := by
  unfold Obligations.ResetHasNoMoveWhileRunning
  intro s ms hok hr hms
  exact (step_move hok hms nofun).trans (if_pos hr)

/-! ## start -/

theorem step_start {s : State} {ms : List Move} (hok : s.params.ok = true) (hms : s.moves = .start :: ms) :
    step s = .next (hostStart (s.withMoves ms)) :=
  step_move hok hms nofun

theorem hostStart_accepted {s : State} (hi : s.idle = true) (ha : s.configAdmitted = true) :
    hostStart s = State.goto { s.sampled with run := true } (.ctl .openLink) :=
  if_pos (Bool.and_eq_true_iff.2 ⟨hi, ha⟩)

theorem hostStart_ignored {s : State} (h : ¬ (s.idle = true ∧ s.configAdmitted = true)) : hostStart s = s :=
  if_neg (mt Bool.and_eq_true_iff.1 h)

/-- From idle, RUN after `start` is the answer of the configuration check (R264). -/
theorem hostStart_run {s : State} (hi : s.idle = true) : (hostStart s).run = s.configAdmitted := by
  cases ha : s.configAdmitted with
  | true => rw [hostStart_accepted hi ha]; rfl
  | false => rw [hostStart_ignored (by simp [ha])]; exact (idle_iff.1 hi).1

/-- The empty image ends where it begins, inside the address space (R206, R264). -/
theorem configAdmitted_of_empty {s : State} (h : s.hostCfg.totalBytes = 0) : s.configAdmitted = true := by
  rw [configAdmitted_iff, h]
  exact Nat.le_of_lt s.params.flashBase.isLt

/-- Whatever `Open` answers, its event is the first of S0 (R61, R191). -/
theorem newEvents_runOpen_head (s : State) :
    (newEvents s (runOpen s)).head? = some (.opened s.cfgPort s.cfgBaud (nextAnswer s.openAns)) := by
  have htrace : ∃ ev, (runOpen s).trace = s.trace ++ .opened s.cfgPort s.cfgBaud (nextAnswer s.openAns) :: ev := by
    unfold runOpen
    cases hans : nextAnswer s.openAns with
    | ok => exact ⟨[], by simp [State.opened, hans]⟩
    | err => exact ⟨closing s.linkOpen ++ [.haltErr .transportError .openLink], by simp [State.opened, hans]⟩
  obtain ⟨ev, hev⟩ := htrace
  rw [newEvents_of_append hev, List.head?_cons]

/-- At S0 the next step begins with the `Open`, where the outside makes no further move. -/
theorem step_openLink_head {s t : State} (hok : s.params.ok = true) (hr : s.run = true) (hp : s.phase = [])
    (hl : s.line = .ctl .openLink) (h : step (s.withMoves []) = .next t) :
    (newEvents s t).head? = some (.opened s.cfgPort s.cfgBaud (nextAnswer s.openAns)) := by
  cases (step_ctl (s := s.withMoves []) hok hr rfl hp hl).symm.trans h
  exact newEvents_runOpen_head (s.withMoves [])

/-- Settles O3: the two ways of `hostStart`; an accepted one leads to S0, whose first event is the `Open`. -/
theorem startSamplesOrIsIgnored : Obligations.StartSamplesOrIsIgnored := by
  unfold Obligations.StartSamplesOrIsIgnored
  intro s ms hok hms
  refine ⟨fun hr hd he hfits => ?_, fun hnot => ?_⟩
  · have hstep : step s = .next (State.goto { (s.withMoves ms).sampled with run := true } (.ctl .openLink)) :=
      (step_start hok hms).trans
        (congrArg Host.Outcome.next (hostStart_accepted (idle_iff.2 ⟨hr, hd, he⟩) (configAdmitted_iff.2 hfits)))
    refine ⟨hstep, fun t u ht hp hu => ?_⟩
    cases hstep.symm.trans ht
    exact step_openLink_head hok rfl hp rfl hu
  · rw [step_start hok hms, hostStart_ignored]
    · rfl
    · rintro ⟨hi, ha⟩
      obtain ⟨hr, hd, he⟩ := idle_iff.1 hi
      have hfits := configAdmitted_iff.1 ha
      obtain hrun | hdone | herr | hpast := hnot
      · exact Bool.false_ne_true (hr.symm.trans hrun)
      · exact Bool.false_ne_true (hd.symm.trans hdone)
      · exact Bool.false_ne_true (he.symm.trans herr)
      · exact Nat.not_lt.2 hfits hpast

/-- Settles O4: from idle RUN is what the configuration check answers, and the parameters are checked before any move. -/
theorem configurationPastTheTopIsRefused : Obligations.ConfigurationPastTheTopIsRefused := by
  unfold Obligations.ConfigurationPastTheTopIsRefused
  intro s ms hi hms
  refine ⟨fun hbad => if_neg (by simp [hbad]), fun hok => ⟨_, step_start hok hms, ?_⟩⟩
  have hrun : (hostStart (s.withMoves ms)).run = s.configAdmitted := hostStart_run hi
  rw [hrun, Nat.not_lt]
  exact ⟨configAdmitted_iff, configAdmitted_of_empty⟩

end Sys2Proof.Machine
end
